-- ==== Sys2Proof/Word.lean ====
section
/-! DEFINITION. The word types of PEPE (spec/00_scope.md R5, R8): 16-bit registers, addresses and
instruction words, 8-bit memory cells, 4-bit instruction fields. -/

namespace Sys2Proof

/-- A register, an address while it is computed, or an instruction word: 16 bits (R5). -/
abbrev Word := BitVec 16

/-- One memory cell `Mb[a]`, or an 8-bit constant of an instruction: 8 bits (R71, R114). -/
abbrev Byte := BitVec 8

/-- One of the four fields of an instruction word: 4 bits (R101). -/
abbrev Nibble := BitVec 4

end Sys2Proof
end

