-- ==== Sys2Proof/Syntax.lean ====
section
/-! DEFINITION. The syntax of PEPE: the sixteen numbered registers (spec/10_state.md R20) and the 76 instructions,
one constructor for each row of spec/opcode_table.json, in the order of spec/30_encoding.md R120. -/

namespace Sys2Proof

/-- A numbered register as a register field names it (R20, R110): R0 to R10 by number, 11 = RL, 12 = SP,
13 = RE, 14 = BTE, 15 = TEMP. Which stack pointer SP is depends on the protection level (R24). -/
inductive Reg where
  | r (n : Fin 11)
  | rl
  | sp
  | re
  | bte
  | temp
deriving DecidableEq, Repr

/-- The 76 machine instructions. Signed constants are the integers that the assembly text writes (R111, R113,
R114, R115), with their ranges checked in `WellFormed.lean`; `off` is the byte offset, not off/2. A count or bit
number is 0 to 15 (R112), an auxiliary register number 0 to 15 (R42). Ignored fields (R116) are not part of the syntax. -/
inductive Instr where
  -- arithmetic, class ARITOP (40_arithmetic.md)
  | add (d s : Reg)
  | addi (d : Reg) (k : Int)
  | addc (d s : Reg)
  | sub (d s : Reg)
  | subi (d : Reg) (k : Int)
  | subb (d s : Reg)
  | cmp (d s : Reg)
  | cmpi (d : Reg) (k : Int)
  | mul (d s : Reg)
  | div (d s : Reg)
  | mod (d s : Reg)
  | neg (d : Reg)
  | shra (d : Reg) (n : Fin 16)
  | shla (d : Reg) (n : Fin 16)
  -- logic, bits, shifts and rotates, class BITOP (41_bit_logic.md, 42_shift_rotate.md)
  | and (d s : Reg)
  | or (d s : Reg)
  | not (d : Reg)
  | xor (d s : Reg)
  | test (d s : Reg)
  | bit (d : Reg) (n : Fin 16)
  | setbit (d : Reg) (n : Fin 16)
  | clrbit (d : Reg) (n : Fin 16)
  | cplbit (d : Reg) (n : Fin 16)
  | shr (d : Reg) (n : Fin 16)
  | shl (d : Reg) (n : Fin 16)
  | ror (d : Reg) (n : Fin 16)
  | rol (d : Reg) (n : Fin 16)
  | rorc (d : Reg) (n : Fin 16)
  | rolc (d : Reg) (n : Fin 16)
  -- data transfer (43_data_transfer.md)
  | ldo (d s : Reg) (off : Int)
  | ldr (d s i : Reg)
  /-- STO: `s` is the data register (bits 11..8), `d` the base register (R203). -/
  | sto (s d : Reg) (off : Int)
  /-- STR: `s` is the data register (bits 11..8), `d` the base register (R204). -/
  | str (s d i : Reg)
  | ldb (d s : Reg)
  /-- STB: `d` holds the address, `s` the data (R206). -/
  | stb (d s : Reg)
  | ldbs (d s : Reg)
  | ldp (d s : Reg)
  /-- STP: `d` holds the address, `s` the data (R209). -/
  | stp (d s : Reg)
  | movl (d : Reg) (k : Int)
  | movh (d : Reg) (k : Byte)
  | movrr (d s : Reg)
  /-- MOVAR: `a` is an auxiliary register number (R219). -/
  | movar (a : Fin 16) (s : Reg)
  /-- MOVRA: `a` is an auxiliary register number (R220). -/
  | movra (d : Reg) (a : Fin 16)
  | movru (d : Reg)
  | movur (s : Reg)
  | swapr (d s : Reg)
  | swapm (d s : Reg)
  | push (s : Reg)
  | pop (d : Reg)
  -- conditional jumps, class COND (44_control_flow.md)
  | jz (dif : Int)
  | jnz (dif : Int)
  | jn (dif : Int)
  | jnn (dif : Int)
  | jp (dif : Int)
  | jnp (dif : Int)
  | jc (dif : Int)
  | jnc (dif : Int)
  | jv (dif : Int)
  | jnv (dif : Int)
  | jlt (dif : Int)
  | jle (dif : Int)
  | jgt (dif : Int)
  | jge (dif : Int)
  | ja (dif : Int)
  | jbe (dif : Int)
  -- other control flow (44_control_flow.md)
  | jmp (dif : Int)
  | jmpr (s : Reg)
  | call (dif : Int)
  | cr (s : Reg)
  | callf (dif : Int)
  | crf (s : Reg)
  | ret
  | retf
  | swe (k : Byte)
  | rfe
  | nop
deriving DecidableEq, Repr

end Sys2Proof
end

