-- ==== Sys2Proof/WellFormed.lean ====
section
/-! DEFINITION. Which instructions the encoding admits: the stated range of each signed constant
(spec/30_encoding.md R111, R113, R114, R115; spec/45_assembler.md R292). Registers, bit numbers, counts, auxiliary
register numbers and unsigned constants take their whole range (R118) and need no check. -/

namespace Sys2Proof

/-- "k ∈ [-8 .. +7]" (R111). -/
abbrev const4Ok (k : Int) : Bool := -8 ≤ k && k ≤ 7

/-- "off ∈ [-16 .. +14]", and even because the field holds off/2 (R113). -/
abbrev offsetOk (off : Int) : Bool := -16 ≤ off && off ≤ 14 && off % 2 == 0

/-- "k ∈ [-128 .. +127]": the constant of MOVL (R114) and the displacement of a conditional jump (R115). -/
abbrev const8Ok (k : Int) : Bool := -128 ≤ k && k ≤ 127

/-- The 12-bit displacement of JMP, CALL and CALLF (R115). -/
abbrev const12Ok (dif : Int) : Bool := -2048 ≤ dif && dif ≤ 2047

/-- The instructions an encoding stands for (R111 to R115). -/
def Instr.wellFormed : Instr → Bool
  | .addi _ k | .subi _ k | .cmpi _ k => const4Ok k
  | .ldo _ _ off | .sto _ _ off => offsetOk off
  | .movl _ k => const8Ok k
  | .jz k | .jnz k | .jn k | .jnn k | .jp k | .jnp k | .jc k | .jnc k => const8Ok k
  | .jv k | .jnv k | .jlt k | .jle k | .jgt k | .jge k | .ja k | .jbe k => const8Ok k
  | .jmp k | .call k | .callf k => const12Ok k
  | .add _ _ | .addc _ _ | .sub _ _ | .subb _ _ | .cmp _ _ | .mul _ _ | .div _ _ | .mod _ _ | .neg _ => true
  | .shra _ _ | .shla _ _ | .and _ _ | .or _ _ | .not _ | .xor _ _ | .test _ _ => true
  | .bit _ _ | .setbit _ _ | .clrbit _ _ | .cplbit _ _ => true
  | .shr _ _ | .shl _ _ | .ror _ _ | .rol _ _ | .rorc _ _ | .rolc _ _ => true
  | .ldr _ _ _ | .str _ _ _ | .ldb _ _ | .stb _ _ | .ldbs _ _ | .ldp _ _ | .stp _ _ => true
  | .movh _ _ | .movrr _ _ | .movar _ _ | .movra _ _ | .movru _ | .movur _ => true
  | .swapr _ _ | .swapm _ _ | .push _ | .pop _ => true
  | .jmpr _ | .cr _ | .crf _ | .ret | .retf | .swe _ | .rfe | .nop => true

end Sys2Proof
end

