-- ==== Sys2Proof/Decode.lean ====
section
/-! DEFINITION. Decoding and encoding (spec/30_encoding.md). Every rule of the spec is stated over the names of the
opcodes (R103), so decoding and encoding take an `OpcodeMap` from names to numbers (R104); the machine's is
`Param.opcodeMap`, at the spec's default (R104 to R109, decision D1, assumption log 1). The fields stand as R101 places
them (D2, log 2). Decoding is total and rejects by name; the encoder writes 0000 in an ignored field (R116). -/

namespace Sys2Proof

/-! ## Opcode names and the `OpcodeMap` (R103, R104) -/

/-- The fourteen first-opcode names (R103). -/
inductive Op1 where
  | aritop
  | bitop
  | ldo
  | ldr
  | sto
  | str
  | xfer
  | movl
  | movh
  | cond
  | jmp
  | call
  | callf
  | code
deriving DecidableEq, Repr

/-- The second-opcode names of class ARITOP (R105). -/
inductive Aritop where
  | add
  | addi
  | addc
  | sub
  | subi
  | subb
  | cmp
  | cmpi
  | mul
  | div
  | mod
  | neg
  | shra
  | shla
deriving DecidableEq, Repr

/-- The second-opcode names of class BITOP (R106). -/
inductive Bitop where
  | and
  | or
  | not
  | xor
  | test
  | bit
  | setbit
  | clrbit
  | cplbit
  | shr
  | shl
  | ror
  | rol
  | rorc
  | rolc
deriving DecidableEq, Repr

/-- The second-opcode names of class XFER (R107). -/
inductive Xfer where
  | ldb
  | stb
  | ldbs
  | ldp
  | stp
  | movrr
  | movar
  | movra
  | movru
  | movur
  | swapr
  | swapm
  | push
  | pop
deriving DecidableEq, Repr

/-- The second-opcode names of class COND (R108). -/
inductive CondOp where
  | jz
  | jnz
  | jn
  | jnn
  | jp
  | jnp
  | jc
  | jnc
  | jv
  | jnv
  | jlt
  | jle
  | jgt
  | jge
  | ja
  | jbe
deriving DecidableEq, Repr

/-- The second-opcode names of class CODE (R109). -/
inductive CodeOp where
  | jmpr
  | cr
  | crf
  | ret
  | retf
  | swe
  | rfe
  | nop
deriving DecidableEq, Repr

/-- `OpcodeMap` (R6, R104): the number of each first opcode and, per class, of each second opcode. -/
structure OpcodeMap where
  op1 : Op1 → Nibble
  aritop : Aritop → Nibble
  bitop : Bitop → Nibble
  xfer : Xfer → Nibble
  cond : CondOp → Nibble
  code : CodeOp → Nibble

/-- What R104 asks of an `OpcodeMap`: two names never share a number, class by class. -/
def OpcodeMap.injective (m : OpcodeMap) : Prop :=
  (∀ x y, m.op1 x = m.op1 y → x = y) ∧ (∀ x y, m.aritop x = m.aritop y → x = y) ∧
    (∀ x y, m.bitop x = m.bitop y → x = y) ∧
    (∀ x y, m.xfer x = m.xfer y → x = y) ∧
    (∀ x y, m.cond x = m.cond y → x = y) ∧
    (∀ x y, m.code x = m.code y → x = y)

/-- The names in the order of their table (R104). -/
def Op1.names : List Op1 :=
  [.aritop, .bitop, .ldo, .ldr, .sto, .str, .xfer, .movl, .movh, .cond, .jmp, .call, .callf, .code]

/-- The names in the order of their table (R105). -/
def Aritop.names : List Aritop :=
  [.add, .addi, .addc, .sub, .subi, .subb, .cmp, .cmpi, .mul, .div, .mod, .neg, .shra, .shla]

/-- The names in the order of their table (R106). -/
def Bitop.names : List Bitop :=
  [.and, .or, .not, .xor, .test, .bit, .setbit, .clrbit, .cplbit, .shr, .shl, .ror, .rol, .rorc, .rolc]

/-- The names in the order of their table (R107). -/
def Xfer.names : List Xfer :=
  [.ldb, .stb, .ldbs, .ldp, .stp, .movrr, .movar, .movra, .movru, .movur, .swapr, .swapm, .push, .pop]

/-- The names in the order of their table (R108). -/
def CondOp.names : List CondOp :=
  [.jz, .jnz, .jn, .jnn, .jp, .jnp, .jc, .jnc, .jv, .jnv, .jlt, .jle, .jgt, .jge, .ja, .jbe]

/-- The names in the order of their table (R109). -/
def CodeOp.names : List CodeOp :=
  [.jmpr, .cr, .crf, .ret, .retf, .swe, .rfe, .nop]

/-- The default numbers of R104. -/
def Op1.default : Op1 → Nibble
  | .aritop => 0x0#4
  | .bitop => 0x1#4
  | .ldo => 0x2#4
  | .ldr => 0x3#4
  | .sto => 0x4#4
  | .str => 0x5#4
  | .xfer => 0x6#4
  | .movl => 0x7#4
  | .movh => 0x8#4
  | .cond => 0x9#4
  | .jmp => 0xA#4
  | .call => 0xB#4
  | .callf => 0xC#4
  | .code => 0xD#4

/-- The default numbers of R105. -/
def Aritop.default : Aritop → Nibble
  | .add => 0x0#4
  | .addi => 0x1#4
  | .addc => 0x2#4
  | .sub => 0x3#4
  | .subi => 0x4#4
  | .subb => 0x5#4
  | .cmp => 0x6#4
  | .cmpi => 0x7#4
  | .mul => 0x8#4
  | .div => 0x9#4
  | .mod => 0xA#4
  | .neg => 0xB#4
  | .shra => 0xE#4
  | .shla => 0xF#4

/-- The default numbers of R106. -/
def Bitop.default : Bitop → Nibble
  | .and => 0x0#4
  | .or => 0x1#4
  | .not => 0x2#4
  | .xor => 0x3#4
  | .test => 0x4#4
  | .bit => 0x5#4
  | .setbit => 0x6#4
  | .clrbit => 0x7#4
  | .cplbit => 0x8#4
  | .shr => 0x9#4
  | .shl => 0xA#4
  | .ror => 0xB#4
  | .rol => 0xC#4
  | .rorc => 0xD#4
  | .rolc => 0xE#4

/-- The default numbers of R107. -/
def Xfer.default : Xfer → Nibble
  | .ldb => 0x0#4
  | .stb => 0x1#4
  | .ldbs => 0x2#4
  | .ldp => 0x3#4
  | .stp => 0x4#4
  | .movrr => 0x5#4
  | .movar => 0x6#4
  | .movra => 0x7#4
  | .movru => 0x8#4
  | .movur => 0x9#4
  | .swapr => 0xA#4
  | .swapm => 0xB#4
  | .push => 0xC#4
  | .pop => 0xD#4

/-- The default numbers of R108. -/
def CondOp.default : CondOp → Nibble
  | .jz => 0x0#4
  | .jnz => 0x1#4
  | .jn => 0x2#4
  | .jnn => 0x3#4
  | .jp => 0x4#4
  | .jnp => 0x5#4
  | .jc => 0x6#4
  | .jnc => 0x7#4
  | .jv => 0x8#4
  | .jnv => 0x9#4
  | .jlt => 0xA#4
  | .jle => 0xB#4
  | .jgt => 0xC#4
  | .jge => 0xD#4
  | .ja => 0xE#4
  | .jbe => 0xF#4

/-- The default numbers of R109. -/
def CodeOp.default : CodeOp → Nibble
  | .jmpr => 0x0#4
  | .cr => 0x1#4
  | .crf => 0x2#4
  | .ret => 0x3#4
  | .retf => 0x4#4
  | .swe => 0x5#4
  | .rfe => 0x6#4
  | .nop => 0x7#4

/-- The default `OpcodeMap`, the spec's own choice (R104 to R109, decision D1). -/
def OpcodeMap.default : OpcodeMap where
  op1 := Op1.default
  aritop := Aritop.default
  bitop := Bitop.default
  xfer := Xfer.default
  cond := CondOp.default
  code := CodeOp.default

/-- The `OpcodeMap` of the machine (R6; assumption log 1). -/
def Param.opcodeMap : OpcodeMap := OpcodeMap.default

/-- The name that has this number, if one has. -/
def nameOf {α : Type} (names : List α) (number : α → Nibble) (f : Nibble) : Option α :=
  names.find? fun n => number n == f

/-- Why a word or a list of bytes is no instruction (R117, R119). -/
inductive DecodeError where
  /-- The first opcode is one of the two values that no name has. -/
  | unassigned (op1 : Nibble)
  /-- The second opcode is a "Livre" slot of its class. -/
  | livre (op1 op2 : Nibble)
  /-- Fewer than two bytes were given. -/
  | truncated
deriving DecidableEq, Repr

/-! ## Fields (R101, R102) -/

/-- `op1 = w[15:12]`. -/
def op1Of (w : Word) : Nibble := w.extractLsb' 12 4
/-- `op2 = w[11:8]`, a register number in format F3 and FI8. -/
def op2Of (w : Word) : Nibble := w.extractLsb' 8 4
/-- `a = w[7:4]`. -/
def fieldA (w : Word) : Nibble := w.extractLsb' 4 4
/-- `b = w[3:0]`. -/
def fieldB (w : Word) : Nibble := w.extractLsb' 0 4
/-- The 8-bit constant `w[7:0]`. -/
def const8 (w : Word) : Byte := w.extractLsb' 0 8
/-- The 12-bit constant `w[11:0]`. -/
def const12 (w : Word) : BitVec 12 := w.extractLsb' 0 12

/-- The register a 4-bit register field selects (R20, R110). -/
def Reg.ofField (f : Nibble) : Reg :=
  if h : f.toNat < 11 then .r ⟨f.toNat, h⟩
  else if f = 11#4 then .rl
  else if f = 12#4 then .sp
  else if f = 13#4 then .re
  else if f = 14#4 then .bte
  else .temp

/-- The register's number as a 4-bit field (R20, R110). -/
def Reg.toField : Reg → Nibble
  | .r n => BitVec.ofNat 4 n.val
  | .rl => 11#4
  | .sp => 12#4
  | .re => 13#4
  | .bte => 14#4
  | .temp => 15#4

/-- A count, bit number or auxiliary register number: an unsigned 4-bit field (R112, R42). -/
def numOf (f : Nibble) : Fin 16 := ⟨f.toNat, f.isLt⟩

/-- The field of a count, bit number or auxiliary register number. -/
def numField (n : Fin 16) : Nibble := BitVec.ofNat 4 n.val

/-- "off/2" of LDO and STO: the byte offset is twice the signed field (R113). -/
def offsetOf (f : Nibble) : Int := 2 * f.toInt

/-- The field of a byte offset (R113). -/
def offsetField (off : Int) : Nibble := BitVec.ofInt 4 (off / 2)

/-! ## Decoding (R119) -/

/-- The instruction of a name of class ARITOP with its operand fields (R105, R110 to R115). -/
def Aritop.instr (name : Aritop) (a b : Nibble) : Instr :=
  let d := Reg.ofField a
  let s := Reg.ofField b
  match name with
  | .add => .add d s
  | .addi => .addi d b.toInt
  | .addc => .addc d s
  | .sub => .sub d s
  | .subi => .subi d b.toInt
  | .subb => .subb d s
  | .cmp => .cmp d s
  | .cmpi => .cmpi d b.toInt
  | .mul => .mul d s
  | .div => .div d s
  | .mod => .mod d s
  | .neg => .neg d
  | .shra => .shra d (numOf b)
  | .shla => .shla d (numOf b)

/-- The instruction of a name of class BITOP with its operand fields (R106, R110 to R115). -/
def Bitop.instr (name : Bitop) (a b : Nibble) : Instr :=
  let d := Reg.ofField a
  let s := Reg.ofField b
  let n := numOf b
  match name with
  | .and => .and d s
  | .or => .or d s
  | .not => .not d
  | .xor => .xor d s
  | .test => .test d s
  | .bit => .bit d n
  | .setbit => .setbit d n
  | .clrbit => .clrbit d n
  | .cplbit => .cplbit d n
  | .shr => .shr d n
  | .shl => .shl d n
  | .ror => .ror d n
  | .rol => .rol d n
  | .rorc => .rorc d n
  | .rolc => .rolc d n

/-- The instruction of a name of class XFER with its operand fields (R107, R110 to R115). -/
def Xfer.instr (name : Xfer) (a b : Nibble) : Instr :=
  let d := Reg.ofField a
  let s := Reg.ofField b
  match name with
  | .ldb => .ldb d s
  | .stb => .stb d s
  | .ldbs => .ldbs d s
  | .ldp => .ldp d s
  | .stp => .stp d s
  | .movrr => .movrr d s
  | .movar => .movar (numOf a) s
  | .movra => .movra d (numOf b)
  | .movru => .movru d
  | .movur => .movur s
  | .swapr => .swapr d s
  | .swapm => .swapm d s
  | .push => .push d
  | .pop => .pop d

/-- The instruction of a name of class COND with its operand fields (R108, R110 to R115). -/
def CondOp.instr (name : CondOp) (c : Byte) : Instr :=
  let dif := c.toInt
  match name with
  | .jz => .jz dif
  | .jnz => .jnz dif
  | .jn => .jn dif
  | .jnn => .jnn dif
  | .jp => .jp dif
  | .jnp => .jnp dif
  | .jc => .jc dif
  | .jnc => .jnc dif
  | .jv => .jv dif
  | .jnv => .jnv dif
  | .jlt => .jlt dif
  | .jle => .jle dif
  | .jgt => .jgt dif
  | .jge => .jge dif
  | .ja => .ja dif
  | .jbe => .jbe dif

/-- The instruction of a name of class CODE with its operand fields (R109, R110 to R115). -/
def CodeOp.instr (name : CodeOp) (b : Nibble) (c : Byte) : Instr :=
  let s := Reg.ofField b
  match name with
  | .jmpr => .jmpr s
  | .cr => .cr s
  | .crf => .crf s
  | .ret => .ret
  | .retf => .retf
  | .swe => .swe c
  | .rfe => .rfe
  | .nop => .nop

/-- The instruction of a second opcode: that of its name, or the error of a "Livre" slot (R119 (3)). -/
def classInstr {α : Type} (names : List α) (number : α → Nibble) (f : α → Instr) (op1 op2 : Nibble) :
    Except DecodeError Instr :=
  match nameOf names number op2 with
  | some n => .ok (f n)
  | none => .error (.livre op1 op2)

/-- The instruction of a first-opcode name (R119 (2) and (3)). -/
def decodeNamed (m : OpcodeMap) (w : Word) (name : Op1) : Except DecodeError Instr :=
  let r1 := Reg.ofField (op2Of w)
  let r2 := Reg.ofField (fieldA w)
  match name with
  | .aritop => classInstr Aritop.names m.aritop (fun n => n.instr (fieldA w) (fieldB w)) (op1Of w) (op2Of w)
  | .bitop => classInstr Bitop.names m.bitop (fun n => n.instr (fieldA w) (fieldB w)) (op1Of w) (op2Of w)
  | .ldo => .ok (.ldo r1 r2 (offsetOf (fieldB w)))
  | .ldr => .ok (.ldr r1 r2 (Reg.ofField (fieldB w)))
  | .sto => .ok (.sto r1 r2 (offsetOf (fieldB w)))
  | .str => .ok (.str r1 r2 (Reg.ofField (fieldB w)))
  | .xfer => classInstr Xfer.names m.xfer (fun n => n.instr (fieldA w) (fieldB w)) (op1Of w) (op2Of w)
  | .movl => .ok (.movl r1 (const8 w).toInt)
  | .movh => .ok (.movh r1 (const8 w))
  | .cond => classInstr CondOp.names m.cond (fun n => n.instr (const8 w)) (op1Of w) (op2Of w)
  | .jmp => .ok (.jmp (const12 w).toInt)
  | .call => .ok (.call (const12 w).toInt)
  | .callf => .ok (.callf (const12 w).toInt)
  | .code => classInstr CodeOp.names m.code (fun n => n.instr (fieldB w) (const8 w)) (op1Of w) (op2Of w)

/-- The decoding procedure of R119 over one instruction word, under an `OpcodeMap`. -/
def decodeWith (m : OpcodeMap) (w : Word) : Except DecodeError Instr :=
  match nameOf Op1.names m.op1 (op1Of w) with
  | some name => decodeNamed m w name
  | none => .error (.unassigned (op1Of w))

/-- Decoding under the machine's `OpcodeMap`. -/
def decode (w : Word) : Except DecodeError Instr := decodeWith Param.opcodeMap w

/-- A word as the hardware stores it: the byte at the lower address holds bits 15..8 (R72, D3). -/
def wordOfBytes (hi lo : Byte) : Word := hi ++ lo

/-- The byte at the lower (even) address: bits 15..8 (R72). -/
def highByte (w : Word) : Byte := w.extractLsb' 8 8

/-- The byte at the higher (odd) address: bits 7..0 (R72). -/
def lowByte (w : Word) : Byte := w.extractLsb' 0 8

/-- Decoding from a list of bytes, lowest address first: the instruction and the bytes after it (R100: every
instruction is two bytes). -/
def decodeBytes : List Byte → Except DecodeError (Instr × List Byte)
  | hi :: lo :: rest =>
    match decode (wordOfBytes hi lo) with
    | .ok i => .ok (i, rest)
    | .error e => .error e
  | _ => .error .truncated

/-- The instruction word that the `nbits` low bits of `w` are, every bit above them 0. -/
def tableWord (nbits w : Nat) : Word := BitVec.ofNat 16 (w % 2 ^ nbits)

/-- The instruction the decoder reads from a table word laid out as the hardware stores it. -/
def decodeTableWord (nbits w : Nat) : Option Instr :=
  match decodeBytes [highByte (tableWord nbits w), lowByte (tableWord nbits w)] with
  | .ok (i, _) => some i
  | .error _ => none

/-! ## Encoding (R102 to R109) -/

/-- Formats F2 and F3: four 4-bit fields (R102). -/
def packF (op1 op2 a b : Nibble) : Word := op1 ++ op2 ++ a ++ b

/-- Formats FI8 and FC8: two fields and an 8-bit constant (R102). -/
def packC8 (op1 op2 : Nibble) (c : Byte) : Word := op1 ++ op2 ++ c

/-- Format FJ12: one field and a 12-bit constant (R102). -/
def packC12 (op1 : Nibble) (c : BitVec 12) : Word := op1 ++ c

/-- Class and second opcode, two registers in `a` and `b`. -/
def packRR (op1 op2 : Nibble) (x y : Reg) : Word := packF op1 op2 x.toField y.toField

/-- Class and second opcode, a register in `a` and a count or bit number in `b`. -/
def packRN (op1 op2 : Nibble) (x : Reg) (n : Fin 16) : Word := packF op1 op2 x.toField (numField n)

/-- The word of an instruction under an `OpcodeMap`; meaningful when `Instr.wellFormed` holds. -/
def encodeWith (m : OpcodeMap) : Instr → Word
  | .add d s => packRR (m.op1 .aritop) (m.aritop .add) d s
  | .addi d k => packF (m.op1 .aritop) (m.aritop .addi) d.toField (BitVec.ofInt 4 k)
  | .addc d s => packRR (m.op1 .aritop) (m.aritop .addc) d s
  | .sub d s => packRR (m.op1 .aritop) (m.aritop .sub) d s
  | .subi d k => packF (m.op1 .aritop) (m.aritop .subi) d.toField (BitVec.ofInt 4 k)
  | .subb d s => packRR (m.op1 .aritop) (m.aritop .subb) d s
  | .cmp d s => packRR (m.op1 .aritop) (m.aritop .cmp) d s
  | .cmpi d k => packF (m.op1 .aritop) (m.aritop .cmpi) d.toField (BitVec.ofInt 4 k)
  | .mul d s => packRR (m.op1 .aritop) (m.aritop .mul) d s
  | .div d s => packRR (m.op1 .aritop) (m.aritop .div) d s
  | .mod d s => packRR (m.op1 .aritop) (m.aritop .mod) d s
  | .neg d => packF (m.op1 .aritop) (m.aritop .neg) d.toField 0#4
  | .shra d n => packRN (m.op1 .aritop) (m.aritop .shra) d n
  | .shla d n => packRN (m.op1 .aritop) (m.aritop .shla) d n
  | .and d s => packRR (m.op1 .bitop) (m.bitop .and) d s
  | .or d s => packRR (m.op1 .bitop) (m.bitop .or) d s
  | .not d => packF (m.op1 .bitop) (m.bitop .not) d.toField 0#4
  | .xor d s => packRR (m.op1 .bitop) (m.bitop .xor) d s
  | .test d s => packRR (m.op1 .bitop) (m.bitop .test) d s
  | .bit d n => packRN (m.op1 .bitop) (m.bitop .bit) d n
  | .setbit d n => packRN (m.op1 .bitop) (m.bitop .setbit) d n
  | .clrbit d n => packRN (m.op1 .bitop) (m.bitop .clrbit) d n
  | .cplbit d n => packRN (m.op1 .bitop) (m.bitop .cplbit) d n
  | .shr d n => packRN (m.op1 .bitop) (m.bitop .shr) d n
  | .shl d n => packRN (m.op1 .bitop) (m.bitop .shl) d n
  | .ror d n => packRN (m.op1 .bitop) (m.bitop .ror) d n
  | .rol d n => packRN (m.op1 .bitop) (m.bitop .rol) d n
  | .rorc d n => packRN (m.op1 .bitop) (m.bitop .rorc) d n
  | .rolc d n => packRN (m.op1 .bitop) (m.bitop .rolc) d n
  | .ldo d s off => packF (m.op1 .ldo) d.toField s.toField (offsetField off)
  | .ldr d s i => packF (m.op1 .ldr) d.toField s.toField i.toField
  | .sto s d off => packF (m.op1 .sto) s.toField d.toField (offsetField off)
  | .str s d i => packF (m.op1 .str) s.toField d.toField i.toField
  | .ldb d s => packRR (m.op1 .xfer) (m.xfer .ldb) d s
  | .stb d s => packRR (m.op1 .xfer) (m.xfer .stb) d s
  | .ldbs d s => packRR (m.op1 .xfer) (m.xfer .ldbs) d s
  | .ldp d s => packRR (m.op1 .xfer) (m.xfer .ldp) d s
  | .stp d s => packRR (m.op1 .xfer) (m.xfer .stp) d s
  | .movl d k => packC8 (m.op1 .movl) d.toField (BitVec.ofInt 8 k)
  | .movh d k => packC8 (m.op1 .movh) d.toField k
  | .movrr d s => packRR (m.op1 .xfer) (m.xfer .movrr) d s
  | .movar a s => packF (m.op1 .xfer) (m.xfer .movar) (numField a) s.toField
  | .movra d a => packRN (m.op1 .xfer) (m.xfer .movra) d a
  | .movru d => packF (m.op1 .xfer) (m.xfer .movru) d.toField 0#4
  | .movur s => packF (m.op1 .xfer) (m.xfer .movur) 0#4 s.toField
  | .swapr d s => packRR (m.op1 .xfer) (m.xfer .swapr) d s
  | .swapm d s => packRR (m.op1 .xfer) (m.xfer .swapm) d s
  | .push s => packF (m.op1 .xfer) (m.xfer .push) s.toField 0#4
  | .pop d => packF (m.op1 .xfer) (m.xfer .pop) d.toField 0#4
  | .jz dif => packC8 (m.op1 .cond) (m.cond .jz) (BitVec.ofInt 8 dif)
  | .jnz dif => packC8 (m.op1 .cond) (m.cond .jnz) (BitVec.ofInt 8 dif)
  | .jn dif => packC8 (m.op1 .cond) (m.cond .jn) (BitVec.ofInt 8 dif)
  | .jnn dif => packC8 (m.op1 .cond) (m.cond .jnn) (BitVec.ofInt 8 dif)
  | .jp dif => packC8 (m.op1 .cond) (m.cond .jp) (BitVec.ofInt 8 dif)
  | .jnp dif => packC8 (m.op1 .cond) (m.cond .jnp) (BitVec.ofInt 8 dif)
  | .jc dif => packC8 (m.op1 .cond) (m.cond .jc) (BitVec.ofInt 8 dif)
  | .jnc dif => packC8 (m.op1 .cond) (m.cond .jnc) (BitVec.ofInt 8 dif)
  | .jv dif => packC8 (m.op1 .cond) (m.cond .jv) (BitVec.ofInt 8 dif)
  | .jnv dif => packC8 (m.op1 .cond) (m.cond .jnv) (BitVec.ofInt 8 dif)
  | .jlt dif => packC8 (m.op1 .cond) (m.cond .jlt) (BitVec.ofInt 8 dif)
  | .jle dif => packC8 (m.op1 .cond) (m.cond .jle) (BitVec.ofInt 8 dif)
  | .jgt dif => packC8 (m.op1 .cond) (m.cond .jgt) (BitVec.ofInt 8 dif)
  | .jge dif => packC8 (m.op1 .cond) (m.cond .jge) (BitVec.ofInt 8 dif)
  | .ja dif => packC8 (m.op1 .cond) (m.cond .ja) (BitVec.ofInt 8 dif)
  | .jbe dif => packC8 (m.op1 .cond) (m.cond .jbe) (BitVec.ofInt 8 dif)
  | .jmp dif => packC12 (m.op1 .jmp) (BitVec.ofInt 12 dif)
  | .jmpr s => packF (m.op1 .code) (m.code .jmpr) 0#4 s.toField
  | .call dif => packC12 (m.op1 .call) (BitVec.ofInt 12 dif)
  | .cr s => packF (m.op1 .code) (m.code .cr) 0#4 s.toField
  | .callf dif => packC12 (m.op1 .callf) (BitVec.ofInt 12 dif)
  | .crf s => packF (m.op1 .code) (m.code .crf) 0#4 s.toField
  | .ret => packF (m.op1 .code) (m.code .ret) 0#4 0#4
  | .retf => packF (m.op1 .code) (m.code .retf) 0#4 0#4
  | .swe k => packC8 (m.op1 .code) (m.code .swe) k
  | .rfe => packF (m.op1 .code) (m.code .rfe) 0#4 0#4
  | .nop => packF (m.op1 .code) (m.code .nop) 0#4 0#4

/-- The word of an instruction under the machine's `OpcodeMap`. -/
def encode (i : Instr) : Word := encodeWith Param.opcodeMap i

/-- The bytes of an instruction, lowest address first (R72). -/
def encodeBytes (i : Instr) : List Byte := [highByte (encode i), lowByte (encode i)]

/-- The bits of an instruction's word that lie in a field marked "XXXX" (R116). -/
def ignoredMask : Instr → Word
  | .neg _ | .not _ | .movru _ | .push _ | .pop _ => 0x000F#16
  | .movur _ | .jmpr _ | .cr _ | .crf _ => 0x00F0#16
  | .ret | .retf | .rfe | .nop => 0x00FF#16
  | .add _ _ | .addi _ _ | .addc _ _ | .sub _ _ | .subi _ _ | .subb _ _ | .cmp _ _ | .cmpi _ _ => 0#16
  | .mul _ _ | .div _ _ | .mod _ _ | .shra _ _ | .shla _ _ | .and _ _ | .or _ _ | .xor _ _ | .test _ _ => 0#16
  | .bit _ _ | .setbit _ _ | .clrbit _ _ | .cplbit _ _ => 0#16
  | .shr _ _ | .shl _ _ | .ror _ _ | .rol _ _ | .rorc _ _ | .rolc _ _ => 0#16
  | .ldo _ _ _ | .ldr _ _ _ | .sto _ _ _ | .str _ _ _ | .ldb _ _ | .stb _ _ | .ldbs _ _ | .ldp _ _ | .stp _ _ => 0#16
  | .movl _ _ | .movh _ _ | .movrr _ _ | .movar _ _ | .movra _ _ | .swapr _ _ | .swapm _ _ => 0#16
  | .jz _ | .jnz _ | .jn _ | .jnn _ | .jp _ | .jnp _ | .jc _ | .jnc _ => 0#16
  | .jv _ | .jnv _ | .jlt _ | .jle _ | .jgt _ | .jge _ | .ja _ | .jbe _ => 0#16
  | .jmp _ | .call _ | .callf _ | .swe _ => 0#16

end Sys2Proof
end

