-- ==== Sys2Proof/Config.lean ====
section
/-! DEFINITION. The free values of the machine: what the spec writes `draw(N)` (spec/00_scope.md R9,
spec/93_implementation_defined.md section 1). Each is an opaque constant with no body, applied to the counter of
State, so that nothing can be proved of its value (assumption log 29). The parameters that have a default in the
spec (R6) are definitions of `Sys2Proof/Machine/Params.lean`. -/

namespace Sys2Proof.Config

/-- The n-th `draw(16)`: an unspecified 16-bit value. -/
opaque freeWord : Nat → Word

/-- The n-th `draw(1)`: an unspecified bit. -/
opaque freeBit : Nat → Bool

/-- The n-th byte read from a peripheral for which the host has given no answer (R83; assumption log 36). -/
opaque freeByte : Nat → Byte

end Sys2Proof.Config
end

