-- ==== Sys2Proof/Machine/Params.lean ====
section
/-! DEFINITION. The ten exceptions (spec/60_exceptions.md R302), the regions of an address map (spec/20_memory.md R82)
and the parameters the manual leaves open, at the defaults of spec/00_scope.md R6 (spec/92_eei_decisions.md). They stand
here, and not in Config.lean, so that a default can be mended by itself. `OpcodeMap` is `Param.opcodeMap` of Decode.lean;
`END_OF_RUN` is `endOfRun` of Safety.lean (assumption log 32). -/

namespace Sys2Proof.Machine

/-- The exceptions PEPE supports (R302); the four interrupts are the pins INT0 to INT3. -/
inductive Exc where
  | int (i : Fin 4)
  | excesso
  | div0
  | software
  | codInv
  | dDesalinhado
  | iDesalinhado
deriving DecidableEq, Repr

/-- The table index k = offset / 2 of an exception (R302). -/
def Exc.index : Exc → Byte
  | .int i => BitVec.ofNat 8 i.val
  | .excesso => 4#8
  | .div0 => 5#8
  | .software => 6#8
  | .codInv => 7#8
  | .dDesalinhado => 8#8
  | .iDesalinhado => 9#8

/-- Which address an exception entry saves (R311): the next instruction's (EIS), or the pc itself. -/
inductive ReturnPoint where
  | eis
  | own
deriving DecidableEq, Repr

/-- How DIV rounds a quotient that is not an integer (R150). -/
inductive Rounding where
  /-- Toward zero; the remainder has the dividend's sign. -/
  | truncate
  /-- Toward minus infinity; the remainder has the divisor's sign. -/
  | floor
  /-- The remainder is never negative. -/
  | euclid
deriving DecidableEq, Repr

/-- `RESET_PC` (R6, R351, decision D5; assumption log 4). -/
def Param.resetPc : Word := 0x0000#16

/-- What a register holds after reset where the spec gives no value (R50; DESIGN CHOICE, assumption log 5). -/
def Param.resetWord : Word := 0x0000#16

/-- `RCN_INDEX` (R6, R42, decision D8; assumption log 8). -/
def Param.rcnIndex : Fin 16 := 0

/-- `DIV_ROUND` (R6, R150, decision D13; assumption log 12). -/
def Param.divRound : Rounding := .truncate

/-- `EXC_RETURN` (R6, R311, decision D23; assumption log 16). For an interrupt the pc is that of the instruction which
would have been executed next. -/
def Param.excReturn : Exc → ReturnPoint
  | .int _ => .own
  | .excesso => .eis
  | .div0 => .eis
  | .software => .eis
  | .codInv => .eis
  | .dDesalinhado => .eis
  | .iDesalinhado => .own

/-- A kind of exception in the order of `EXC_PRIORITY`: an internal exception, or interrupt INTi (R317). -/
inductive Source where
  | internal
  | interrupt (i : Fin 4)
deriving DecidableEq, Repr

/-- `EXC_PRIORITY` (R6, R317, decision D25; assumption log 19), the first to be entered standing first. -/
def Param.excPriority : List Source := [.internal, .interrupt 0, .interrupt 1, .interrupt 2, .interrupt 3]

/-- `PRIV_CHECK` (R6, R322, decision D29; assumption log 21): the exception an instruction raises at user level instead
of executing. The default is none. -/
def Param.privCheck : Instr → Option Exc := fun _ => none

/-! ## The address map (R82, R359) -/

/-- What a range of addresses holds (R82, R359; assumption log 7). -/
inductive Kind where
  /-- Plain read-write storage. -/
  | ram
  /-- Storage that no write changes; a write stops with a fault if `faults`, else it is discarded. -/
  | rom (faults : Bool)
  /-- Registers of a device: reads are answered by the host, writes are shown to it (R83). -/
  | peripheral
  /-- Nothing is mapped: an access is outside the map and stops (R358 (c)), or the range reads as one byte and discards
  writes. -/
  | empty (reads : Option Byte)
deriving DecidableEq, Repr

/-- A range of addresses of one kind, from `base` on. -/
structure Region where
  base : Nat
  size : Nat
  kind : Kind
deriving DecidableEq, Repr

/-- `MEM_MAP` (R6, R82, decision D32; assumption log 7): the map the machine has until the host gives another, 64 KiB
of read-write storage. -/
def Param.memMap : List Region := [{ base := 0, size := 65536, kind := .ram }]

/-- What a byte of memory that nothing has written reads as: no value (R82, decision D41; assumption log 6). -/
def Param.unlisted : Option Byte := none

end Sys2Proof.Machine
end

