-- ==== Sys2Proof/Machine/State.lean ====
section
/-! DEFINITION. The machine's state as plain data (spec/10_state.md), why a step can stop, and the state after reset
(R52, R350). INVENTORY.md lists every field with its rule and reset value. -/

namespace Sys2Proof.Machine

/-- One bit for each of the pins INT0 to INT3: their levels (R46) or their request latches IP0 to IP3 (R45). -/
@[ext] structure Lines where
  int0 : Bool
  int1 : Bool
  int2 : Bool
  int3 : Bool
deriving DecidableEq, Repr

/-- One access of the DMA master to memory (R84). A read changes nothing in the machine. -/
inductive DmaAccess where
  | read (a : Word)
  | write (a : Word) (v : Byte)
deriving DecidableEq, Repr

/-- What the host does at one instruction boundary (R359): whether RESET is asserted, the levels of INT0 to INT3,
whether BRQ is asserted, and the accesses the DMA master makes if the bus is granted. -/
structure HostInput where
  reset : Bool
  pins : Lines
  brq : Bool
  dma : List DmaAccess
deriving DecidableEq, Repr

/-- Whether the machine executes instructions or stands in the stuck state of a double fault (R319). -/
inductive RunState where
  | running
  | doubleFault
deriving DecidableEq, Repr

/-- One access of the processor to an address that a device answers for (R73, R83, R359). A word access is one access
(R87). -/
inductive Access where
  | readByte (a : Word) (v : Byte)
  | readWord (a v : Word)
  | writeByte (a : Word) (v : Byte)
  | writeWord (a v : Word)
deriving DecidableEq, Repr

/-- What passes between the processor and the host's peripherals (R83, R359; assumption log 36). -/
structure Device where
  /-- The bytes that the coming peripheral reads take, the next one first. -/
  answers : List Byte
  /-- How many bytes were read from peripherals with no answer left. -/
  unanswered : Nat
  /-- The accesses of the present step, in their order. -/
  accesses : List Access
deriving DecidableEq, Repr

/-- Memory as (address, byte) pairs, the written bytes only; the canonical form is `Memory.wf` (Ops.lean). -/
abbrev Memory := List Host.Cell

/-- The whole state. The last four fields are the model's own: the address map the host gives (assumption log 7), what
passes between processor and peripherals (log 36), what the host does at the coming boundaries (log 30) and how many free
values have been used (log 29). -/
structure State where
  /-- PC (R22): the address of the instruction being executed. -/
  pc : Word
  /-- R0 to R10 (R21). -/
  gpr : Vector Word 11
  /-- R11, the link register (R23). -/
  rl : Word
  /-- The system stack pointer: R12 when NP = 0 (R24). -/
  ssp : Word
  /-- The user stack pointer USP: R12 when NP = 1 (R24, R41). -/
  usp : Word
  /-- R13, the status register RE (R28 to R39). -/
  re : Word
  /-- R14, the base of the Exception Table (R26). -/
  bte : Word
  /-- R15, TEMP (R27). -/
  temp : Word
  /-- The auxiliary register RCN (R43, R44). -/
  rcn : Word
  /-- The request latches IP0 to IP3 (R45). -/
  ip : Lines
  /-- The levels of INT0 to INT3 as last sampled (R316). -/
  intPins : Lines
  /-- The edge detectors that start afresh at the next boundary, an RCN write having changed their NSI fields
  (R316 (4)). -/
  restart : Lines
  /-- The level of the output pin INTA, active at 0 (R46, R47). -/
  inta : Bool
  /-- The level of the output pin BGT, active at 1 (R46, R84). -/
  bgt : Bool
  /-- Running, or stuck in a double fault (R319). -/
  run : RunState
  /-- The written bytes of the 64 KiB address space (R70). -/
  mem : Memory
  /-- MODEL: `MEM_MAP`, the regions of the address space as the host gives them; the first that covers an address counts
  (R82, R359). -/
  map : List Region
  /-- MODEL: the host's side of peripheral accesses (R83). -/
  dev : Device
  /-- MODEL: the host's actions at the coming boundaries, the next one first. -/
  inputs : List HostInput
  /-- MODEL: the number of free values drawn so far. -/
  draws : Nat
deriving DecidableEq, Repr

/-- Why a step stops. -/
inductive Fault where
  /-- Raised by `step` in the stuck state of a double fault while RESET is not asserted: "no further instruction
  executes" (R319). Safe: the spec says that the run stops. -/
  | doubleFault
  /-- Raised by `step` when the word at pc has a byte that nothing has written (R82). Safe: the hardware fetches
  some unknown word and goes on. -/
  | unwrittenFetch
  /-- Raised by a data read of a byte that nothing has written (R82). Safe: the hardware reads some unknown byte and
  goes on. -/
  | unwrittenData
  /-- Raised by an exception entry whose Exception Table word has a byte that nothing has written (R82, R310). Safe:
  the hardware reads some unknown word and goes on. -/
  | unwrittenVector
  /-- Raised by an access to an address at which the map has nothing: "access outside `MEM_MAP`" (R358 (c)). Safe: the
  spec says that the run stops. -/
  | unmapped
  /-- Raised by a write to a ROM for which the map says that a write stops (R82, `93_implementation_defined.md` U9).
  Safe: the host's map says so. -/
  | readOnly
deriving DecidableEq, Repr

/-- Why the model gives an instruction no meaning. -/
inductive Refusal where
  /-- Raised only by an arm of `exec` whose instruction has no meaning yet; no arm is such. Safe. -/
  | notModelled (mnemonic : String)
deriving DecidableEq, Repr

/-- What an instruction or a step answers. -/
abbrev Result := Host.Outcome State Fault Refusal

/-- All four lines at one level. -/
def Lines.all (b : Bool) : Lines := ⟨b, b, b, b⟩

/-- The machine right after reset (R52, R350): RE, RCN and the latches 0, pc at `RESET_PC`; the registers that the
spec leaves unspecified (R50) hold `Param.resetWord` (assumption log 5). -/
def State.reset : State where
  pc := Param.resetPc
  gpr := Vector.replicate 11 Param.resetWord
  rl := Param.resetWord
  ssp := Param.resetWord
  usp := Param.resetWord
  re := 0x0000#16
  bte := Param.resetWord
  temp := Param.resetWord
  rcn := 0x0000#16
  ip := Lines.all false
  intPins := Lines.all false
  restart := Lines.all false
  inta := true
  bgt := false
  run := .running
  mem := []
  map := Param.memMap
  dev := { answers := [], unanswered := 0, accesses := [] }
  inputs := []
  draws := 0

end Sys2Proof.Machine
end

