-- ==== Sys2Proof/Machine/Flags.lean ====
section
/-! DEFINITION. The bits of RE (spec/10_state.md R29, R30), flag updates as data (R31 to R33), and the result and flags
of every arithmetic, shift and rotate operation (spec/40_arithmetic.md R140 to R155, spec/42_shift_rotate.md). -/

namespace Sys2Proof.Machine

/-! ## The bits of RE (R29) -/

abbrev bitZ : Nat := 0
abbrev bitN : Nat := 1
abbrev bitC : Nat := 2
abbrev bitV : Nat := 3
/-- Reserved bits A and B: storage without function (R39). -/
abbrev bitA : Nat := 4
abbrev bitB : Nat := 5
abbrev bitTV : Nat := 6
abbrev bitTD : Nat := 7
abbrev bitIE : Nat := 8
/-- IE0 to IE3 are bits 9 to 12. -/
abbrev bitIEi (i : Fin 4) : Nat := 9 + i.val
abbrev bitDE : Nat := 13
abbrev bitNP : Nat := 14
/-- Reserved bit R: storage without function (R39). -/
abbrev bitR : Nat := 15

def State.flagZ (s : State) : Bool := s.re.getLsbD bitZ
def State.flagN (s : State) : Bool := s.re.getLsbD bitN
def State.flagC (s : State) : Bool := s.re.getLsbD bitC
def State.flagV (s : State) : Bool := s.re.getLsbD bitV
def State.tv (s : State) : Bool := s.re.getLsbD bitTV
def State.td (s : State) : Bool := s.re.getLsbD bitTD
def State.ie (s : State) : Bool := s.re.getLsbD bitIE
def State.iei (s : State) (i : Fin 4) : Bool := s.re.getLsbD (bitIEi i)
def State.de (s : State) : Bool := s.re.getLsbD bitDE
/-- The protection level: false = system, true = user (R38, R321). -/
def State.np (s : State) : Bool := s.re.getLsbD bitNP

/-- `w` with bit `n` set to `b`. -/
def putBit (w : Word) (n : Nat) (b : Bool) : Word :=
  if b then w ||| (1#16 <<< n) else w &&& ~~~(1#16 <<< n)

/-- The status flags an instruction writes: `none` is a flag it does not list (R33, R40). -/
structure FlagUpdate where
  z : Option Bool := none
  n : Option Bool := none
  c : Option Bool := none
  v : Option Bool := none
deriving DecidableEq, Repr

/-- One flag written, or left unchanged. -/
def putFlag (w : Word) (n : Nat) : Option Bool → Word
  | some b => putBit w n b
  | none => w

/-- RE after the flag assignments of an instruction (R33). -/
def FlagUpdate.apply (u : FlagUpdate) (re : Word) : Word :=
  putFlag (putFlag (putFlag (putFlag re bitZ u.z) bitN u.n) bitC u.c) bitV u.v

/-- `setZN(r)` (R9, R31). -/
def setZN (r : Word) : FlagUpdate := { z := some (r == 0#16), n := some r.msb }

/-! ## Addition and subtraction (R140) -/

/-- A result with its carry or borrow and its overflow. -/
structure AluResult where
  r : Word
  c : Bool
  v : Bool
deriving DecidableEq, Repr

/-- `addc(x, y, c)` of R140: the 17-bit sum, its carry out of bit 15 and its two's complement overflow. -/
def addc (x y : Word) (c : Bool) : AluResult :=
  let s : BitVec 17 := x.setWidth 17 + y.setWidth 17 + (BitVec.ofBool c).setWidth 17
  let r : Word := s.setWidth 16
  { r := r, c := s.getLsbD 16, v := x.msb == y.msb && r.msb != x.msb }

/-- `subb(x, y, c)` of R140: the difference, its borrow and its two's complement overflow. -/
def subb (x y : Word) (c : Bool) : AluResult :=
  let r : Word := x - y - (BitVec.ofBool c).setWidth 16
  { r := r, c := decide (x.toNat < y.toNat + c.toNat), v := x.msb != y.msb && r.msb != x.msb }

/-- The flags of an addition, subtraction, comparison or negation: Z, N, C and V (R31, R32, R140). -/
def AluResult.flags (a : AluResult) : FlagUpdate := { setZN a.r with c := some a.c, v := some a.v }

/-! ## Multiplication and division (R149, R150) -/

/-- Whether an exact value is outside -32768..32767 (R32, R149). -/
def outOfRange (p : Int) : Bool := decide (p < -32768 ∨ p > 32767)

/-- The quotient of R150 under a rounding. -/
def quotient (m : Rounding) (x y : Int) : Int :=
  match m with
  | .truncate => Int.tdiv x y
  | .floor => Int.fdiv x y
  | .euclid => Int.ediv x y

/-- The result of DIV: the quotient modulo 2^16 (R151). -/
def divWord (x y : Word) : Word := BitVec.ofInt 16 (quotient Param.divRound x.toInt y.toInt)

/-- The result of MOD: `A - B*q` modulo 2^16 (R152). -/
def modWord (x y : Word) : Word :=
  BitVec.ofInt 16 (x.toInt - y.toInt * quotient Param.divRound x.toInt y.toInt)

/-! ## Shifts and rotates (R180 to R188): `v` the operand, `n` the count, `c` the carry before -/

/-- The carry of a right shift or rotate: the last bit that left, or the old carry when n = 0 (R180). -/
def carryRight (v : Word) (n : Nat) (c : Bool) : Bool := if n = 0 then c else v.getLsbD (n - 1)

/-- The carry of a left shift or rotate (R180). -/
def carryLeft (v : Word) (n : Nat) (c : Bool) : Bool := if n = 0 then c else v.getLsbD (16 - n)

/-- A shifted value with its carry; V is not written. -/
structure ShiftResult where
  r : Word
  c : Bool
deriving DecidableEq, Repr

/-- SHR (R181). -/
def shiftRight (v : Word) (n : Nat) (c : Bool) : ShiftResult := ⟨v >>> n, carryRight v n c⟩

/-- SHL (R182). -/
def shiftLeft (v : Word) (n : Nat) (c : Bool) : ShiftResult := ⟨v <<< n, carryLeft v n c⟩

/-- SHRA (R183). -/
def shiftRightArith (v : Word) (n : Nat) (c : Bool) : ShiftResult := ⟨v.sshiftRight n, carryRight v n c⟩

/-- V of SHLA: some of the n bits that leave differs from the new bit 15 (R184). -/
def shlaOverflow (v : Word) (n : Nat) : Bool :=
  v.extractLsb' (16 - n) n != (if (v <<< n).msb then BitVec.allOnes n else 0#n)

/-- ROR (R185). -/
def rotRight (v : Word) (n : Nat) (c : Bool) : ShiftResult := ⟨v.rotateRight n, carryRight v n c⟩

/-- ROL (R186). -/
def rotLeft (v : Word) (n : Nat) (c : Bool) : ShiftResult := ⟨v.rotateLeft n, carryLeft v n c⟩

/-- RORC: n rotations to the right of the 17-bit ring Rd ‖ C (R187). -/
def rotRightCarry (v : Word) (n : Nat) (c : Bool) : ShiftResult :=
  let t : BitVec 17 := (v ++ BitVec.ofBool c : BitVec 17).rotateRight n
  ⟨t.extractLsb' 1 16, t.getLsbD 0⟩

/-- ROLC: n rotations to the left of the 17-bit ring C ‖ Rd (R188). -/
def rotLeftCarry (v : Word) (n : Nat) (c : Bool) : ShiftResult :=
  let t : BitVec 17 := (BitVec.ofBool c ++ v : BitVec 17).rotateLeft n
  ⟨t.extractLsb' 0 16, t.getLsbD 16⟩

/-- The flags of a shift or rotate that does not list V: Z, N and C, which with n = 0 is the old C (R180). -/
def ShiftResult.flags (x : ShiftResult) : FlagUpdate := { setZN x.r with c := some x.c }

end Sys2Proof.Machine
end

