-- ==== Sys2Proof/Machine/Ops.lean ====
section
/-! DEFINITION. The operations every meaning goes through: registers (spec/10_state.md R20, R24, R28, R33), memory
(spec/20_memory.md R70 to R82), free values (spec/00_scope.md R9), taking an exception (spec/60_exceptions.md R310 to
R319) and returning from one (spec/44_control_flow.md R268). -/

namespace Sys2Proof.Machine

/-! ## Registers -/

/-- The physical registers: the numbered ones with both stack pointers (R24), and RCN (R42). -/
inductive Phys where
  | r (n : Fin 11)
  | rl
  | ssp
  | usp
  | re
  | bte
  | temp
  | rcn
deriving DecidableEq, Repr

/-- The contents of a physical register. -/
def State.get (s : State) : Phys → Word
  | .r n => s.gpr[n]
  | .rl => s.rl
  | .ssp => s.ssp
  | .usp => s.usp
  | .re => s.re
  | .bte => s.bte
  | .temp => s.temp
  | .rcn => s.rcn

/-- A physical register written. -/
def State.set (s : State) (p : Phys) (v : Word) : State :=
  match p with
  | .r n => { s with gpr := s.gpr.set n v }
  | .rl => { s with rl := v }
  | .ssp => { s with ssp := v }
  | .usp => { s with usp := v }
  | .re => { s with re := v }
  | .bte => { s with bte := v }
  | .temp => { s with temp := v }
  | .rcn => { s with rcn := v }

/-- The register a register number denotes at protection level `np`: 12 is SSP at system level and USP at user level
(R24); every other number denotes one register. -/
def Reg.phys (np : Bool) : Reg → Phys
  | .r n => .r n
  | .rl => .rl
  | .sp => if np then .usp else .ssp
  | .re => .re
  | .bte => .bte
  | .temp => .temp

/-- The read `x[i]` (R9). -/
def State.x (s : State) (r : Reg) : Word := s.get (Reg.phys s.np r)

/-- The write `x[i] <- v` (R9); the stack pointer is the one RE.NP selects at this moment (R24). -/
def State.setX (s : State) (r : Reg) (v : Word) : State := s.set (Reg.phys s.np r) v

/-- `EIS`, the address of the next instruction (R9, R22). -/
def State.eis (s : State) : Word := s.pc + 2#16

/-- `pc <- EIS`: how an instruction ends that assigns no pc (R9). -/
def State.advance (s : State) : State := { s with pc := s.eis }

/-- Flag assignments of an instruction without a destination: always made (R33). -/
def State.setFlags (s : State) (u : FlagUpdate) : State := { s with re := u.apply s.re }

/-- `commit(d, r, F)` (R9, R33): with d = 13 RE takes r exactly and F is discarded. -/
def State.commit (s : State) (d : Reg) (r : Word) (u : FlagUpdate) : State :=
  if d = .re then { s with re := r } else (s.setX d r).setFlags u

/-! ## Free values (R9 `draw`; assumption log 29) -/

/-- `draw(16)` and the state after it. -/
def State.drawWord (s : State) : Word × State := (Config.freeWord s.draws, { s with draws := s.draws + 1 })

/-- `draw(1)` and the state after it. -/
def State.drawBit (s : State) : Bool × State := (Config.freeBit s.draws, { s with draws := s.draws + 1 })

/-! ## Memory -/

/-- The byte at an address; an unlisted address reads as `Param.unlisted` (R82, assumption log 6). -/
def Memory.byteAt : Memory → Nat → Option Byte
  | [], _ => Param.unlisted
  | (k, v) :: m, a => if k = a then some v else Memory.byteAt m a

/-- A listed byte put at its place. -/
def Memory.insert : Memory → Nat → Byte → Memory
  | [], a, v => [(a, v)]
  | (k, w) :: m, a, v =>
    if a < k then (a, v) :: (k, w) :: m
    else if a = k then (a, v) :: m
    else (k, w) :: Memory.insert m a v

/-- An address no longer listed. -/
def Memory.erase : Memory → Nat → Memory
  | [], _ => []
  | (k, w) :: m, a => if k = a then Memory.erase m a else (k, w) :: Memory.erase m a

/-- One byte written; writing what an unlisted address reads as takes the entry out. -/
def Memory.setByte (m : Memory) (a : Nat) (v : Byte) : Memory :=
  if Param.unlisted = some v then Memory.erase m a else Memory.insert m a v

/-- The canonical form: addresses strictly rising and below 2^16 (R70), no entry equal to what an unlisted address
reads as. -/
def Memory.wf (m : Memory) : Bool :=
  decide (m.Pairwise fun c e => c.1 < e.1) &&
    m.all fun c => decide (c.1 < 65536) && decide (Param.unlisted ≠ some c.2)

/-- The byte stored at an address, where one is. -/
def State.readByte (s : State) (a : Word) : Option Byte := s.mem.byteAt a.toNat

/-- A byte stored at an address. -/
def State.writeByte (s : State) (a : Word) (v : Byte) : State := { s with mem := s.mem.setByte a.toNat v }

/-! ## The address map and peripherals (R82, R83, R359; assumption log 7 and 36) -/

/-- Whether a region covers an address. -/
def Region.covers (r : Region) (a : Word) : Bool := decide (r.base ≤ a.toNat) && decide (a.toNat < r.base + r.size)

/-- What stands at an address: the kind of the first region that covers it, nothing if none does. -/
def kindIn : List Region → Word → Kind
  | [], _ => .empty none
  | r :: l, a => if r.covers a then r.kind else kindIn l a

/-- What stands at an address under the state's map. -/
def State.kindAt (s : State) (a : Word) : Kind := kindIn s.map a

/-- Whether the host's devices answer at an address. -/
def State.isDevice (s : State) (a : Word) : Bool := s.kindAt a == .peripheral

/-- One byte of the host's answers taken; a free value when there is none left. -/
def Device.answer (d : Device) : Byte × Device :=
  match d.answers with
  | b :: l => (b, { d with answers := l })
  | [] => (Config.freeByte d.unanswered, { d with unanswered := d.unanswered + 1 })

/-- An access shown to the host, if a device is concerned. -/
def Device.note (d : Device) (concerned : Bool) (e : Access) : Device :=
  if concerned then { d with accesses := d.accesses ++ [e] } else d

/-- The state after a read that left the peripherals so. -/
def State.withDev (s : State) (d : Device) : State := { s with dev := d }

/-! ## Reading -/

/-- What a byte read answers: the byte and the peripherals after it, a byte nothing has written (R82), or an address
outside the map (R358 (c)). -/
inductive ReadByte where
  | value (b : Byte) (d : Device)
  | unwritten
  | unmapped
deriving DecidableEq, Repr

/-- One byte taken from what stands at its address. -/
def State.takeByte (s : State) (d : Device) (a : Word) : ReadByte :=
  match s.kindAt a with
  | .peripheral => .value d.answer.1 d.answer.2
  | .empty (some b) => .value b d
  | .empty none => .unmapped
  | .ram | .rom _ =>
    match s.readByte a with
    | some b => .value b d
    | none => .unwritten

/-- `MemRead(a, 1)` (R74). -/
def State.memReadByte (s : State) (a : Word) : ReadByte :=
  match s.takeByte s.dev a with
  | .value b d => .value b (d.note (s.isDevice a) (.readByte a b))
  | .unwritten => .unwritten
  | .unmapped => .unmapped

/-- What a word read answers: the word and the peripherals after it, misaligned (R75), or as a byte read stops. -/
inductive ReadWord where
  | value (w : Word) (d : Device)
  | misaligned
  | unwritten
  | unmapped
deriving DecidableEq, Repr

/-- Whether a word access at this address is misaligned (R71, R73). -/
def isOdd (a : Word) : Bool := a.getLsbD 0

/-- Whether a word access at an even address concerns a device. -/
def State.isDeviceWord (s : State) (a : Word) : Bool := s.isDevice a || s.isDevice (a + 1#16)

/-- `MemRead(a, 2)` (R75): the byte at a in bits 15..8. It is one access (R73). -/
def State.readWord (s : State) (a : Word) : ReadWord :=
  if isOdd a then .misaligned
  else
    match s.takeByte s.dev a with
    | .unwritten => .unwritten
    | .unmapped => .unmapped
    | .value hi d1 =>
      match s.takeByte d1 (a + 1#16) with
      | .unwritten => .unwritten
      | .unmapped => .unmapped
      | .value lo d2 =>
        .value (wordOfBytes hi lo) (d2.note (s.isDeviceWord a) (.readWord a (wordOfBytes hi lo)))

/-! ## Writing -/

/-- Why a write to this address stops, if it does. -/
def State.writeStop (s : State) (a : Word) : Option Fault :=
  match s.kindAt a with
  | .rom true => some .readOnly
  | .empty none => some .unmapped
  | .rom false => none
  | .empty (some _) => none
  | .ram => none
  | .peripheral => none

/-- A byte put where it is stored, in read-write storage alone. -/
def State.putByte (s : State) (a : Word) (v : Byte) : State := if s.kindAt a = .ram then s.writeByte a v else s

/-- `MemWrite(a, 1, v)` (R76) where the write does not stop. -/
def State.memWriteByte (s : State) (a : Word) (v : Byte) : State :=
  (s.putByte a v).withDev (s.dev.note (s.isDevice a) (.writeByte a v))

/-- `MemWrite(a, 2, v)` (R77) at an even address where the write does not stop: two bytes, one access (R73). -/
def State.putWord (s : State) (a v : Word) : State :=
  ((s.putByte a (highByte v)).putByte (a + 1#16) (lowByte v)).withDev
    (s.dev.note (s.isDeviceWord a) (.writeWord a v))

/-- What a word write answers: the state after it, misaligned (R77), or why the map stops it. -/
inductive WriteWord where
  | done (t : State)
  | misaligned
  | stopped (f : Fault)
deriving DecidableEq, Repr

/-- `MemWrite(a, 2, v)` (R77): nothing is written at an odd address, nor where one of the bytes stops. -/
def State.writeWord (s : State) (a v : Word) : WriteWord :=
  if isOdd a then .misaligned
  else
    match (s.writeStop a).or (s.writeStop (a + 1#16)) with
    | some f => .stopped f
    | none => .done (s.putWord a v)

/-! ## Taking an exception, and returning from one -/

/-- The stuck state of a double fault, with what the entry has done so far (R319, assumption log 20). -/
def State.stuck (s : State) : State := { s with run := .doubleFault }

/-- The entry sequence of R310 (R267 for SWE) with table index `k` and saved address `ret`, line by line. RE is
cleared first, so SP is the system stack pointer (R313). A misaligned access inside it is the double fault of R319. -/
def enter (k : Byte) (ret : Word) (s : State) : Result :=
  let s1 : State := { s with temp := s.re, re := 0#16 }
  match s1.writeWord (s1.x .sp - 2#16) ret with
  | .misaligned => .next s1.stuck
  | .stopped f => .fault f
  | .done s2 =>
    match s2.writeWord (s2.x .sp - 4#16) s2.temp with
    | .misaligned => .next s2.stuck
    | .stopped f => .fault f
    | .done s3 =>
      match s3.readWord (s3.bte + 2#16 * k.setWidth 16) with
      | .misaligned => .next s3.stuck
      | .unwritten => .fault .unwrittenVector
      | .unmapped => .fault .unmapped
      | .value t d =>
        let s4 : State := { s3 with pc := t, dev := d }
        .next (s4.setX .sp (s4.x .sp - 4#16))

/-- `ret(e)` (R311): computed from the pc of the instruction, which no instruction that raises has assigned yet. -/
def returnAddress (e : Exc) (s : State) : Word :=
  match Param.excReturn e with
  | .eis => s.eis
  | .own => s.pc

/-- `raise E` (R9, R310, R311). What the instruction wrote before the raise stays written. -/
def takeException (e : Exc) (s : State) : Result := enter e.index (returnAddress e s) s

/-! ## Data accesses inside an instruction -/

/-- A word read, then `k` with the word and the state after the read; D_DESALINHADO when misaligned (R75, R308). -/
def loadWord (s : State) (a : Word) (k : Word → State → Result) : Result :=
  match s.readWord a with
  | .value w d => k w (s.withDev d)
  | .misaligned => takeException .dDesalinhado s
  | .unwritten => .fault .unwrittenData
  | .unmapped => .fault .unmapped

/-- A byte read, then `k` with the byte and the state after the read; never misaligned (R74). -/
def loadByte (s : State) (a : Word) (k : Byte → State → Result) : Result :=
  match s.memReadByte a with
  | .value b d => k b (s.withDev d)
  | .unwritten => .fault .unwrittenData
  | .unmapped => .fault .unmapped

/-- A word write, then `k` with the state after it; D_DESALINHADO when misaligned (R77, R308). -/
def storeWord (s : State) (a v : Word) (k : State → Result) : Result :=
  match s.writeWord a v with
  | .done t => k t
  | .misaligned => takeException .dDesalinhado s
  | .stopped f => .fault f

/-- A byte write, then `k` with the state after it; never misaligned (R76). -/
def storeByte (s : State) (a : Word) (v : Byte) (k : State → Result) : Result :=
  match s.writeStop a with
  | none => k (s.memWriteByte a v)
  | some f => .fault f

/-- The last three lines of R268, both words having been read: pc, then the stack pointer of the level RE still
selects, then RE. -/
def State.finishReturn (s : State) (t2 : Word) : State :=
  let s1 := { s with pc := t2 }.setX .sp (s.x .sp + 4#16)
  { s1 with re := s1.temp }

/-- The return of R268, line by line: RE and PC popped from the stack of the current level, RE restored last. -/
def returnFromException (s : State) : Result :=
  loadWord s (s.x .sp) fun t1 s1 =>
    let s2 : State := { s1 with temp := t1 }
    loadWord s2 (s2.x .sp + 2#16) fun t2 s3 => .next (s3.finishReturn t2)

/-- The end of an instruction that may overflow: EXCESSO if it did and TV was 1 at its start (R156). -/
def endArith (overflow tv : Bool) (s : State) : Result :=
  if overflow && tv then takeException .excesso s else .next s.advance

end Sys2Proof.Machine
end

