-- ==== Sys2Proof/Machine/Operands.lean ====
section
/-! DEFINITION. Operand forms (spec/30_encoding.md R111 to R115, R121): constants, effective addresses reduced modulo
2^16 (spec/20_memory.md R81), relative targets (spec/44_control_flow.md R240). -/

namespace Sys2Proof.Machine

/-- A signed constant as a 16-bit operand: `sext_16` of its field (R111, R114). -/
def constWord (k : Int) : Word := BitVec.ofInt 16 k

/-- Based: `x[s] + off` (R113, R201, R203); off = 0 is the indirect form. -/
def basedAddr (s : State) (base : Reg) (off : Int) : Word := s.x base + constWord off

/-- Indexed: `x[s] + x[i]`, the index not scaled (R202, R204). -/
def indexedAddr (s : State) (base index : Reg) : Word := s.x base + s.x index

/-- Relative: `EIS + 2 * dif`, dif counting words (R115, R240). -/
def relTarget (s : State) (dif : Int) : Word := s.eis + constWord (2 * dif)

/-- Where PUSH, CALL and CR store: the word below the top of the current level's stack (R25, R226). -/
def pushAddr (s : State) : Word := s.x .sp - 2#16

/-- A byte zero-extended (R205). -/
def zextByte (b : Byte) : Word := b.setWidth 16

/-- A byte sign-extended (R207). -/
def sextByte (b : Byte) : Word := b.signExtend 16

/-- The word with bit n alone set (R166 to R168). -/
def bitMask (n : Fin 16) : Word := 1#16 <<< n.val

end Sys2Proof.Machine
end

