-- ==== Sys2Proof/Machine/Arith.lean ====
section
/-! DEFINITION. The arithmetic instructions (spec/40_arithmetic.md R141 to R155). -/

namespace Sys2Proof.Machine

/-- An arithmetic instruction that writes its result: `commit`, then the overflow trap with the TV read at the start
(R156, R157). -/
def arithWrite (d : Reg) (a : AluResult) (s : State) : Result :=
  endArith a.v s.tv (s.commit d a.r a.flags)

/-- An arithmetic comparison: flags only, also when the register read is RE (R147, R148). -/
def arithCompare (a : AluResult) (s : State) : Result :=
  endArith a.v s.tv (s.setFlags a.flags)

/-- ADD (R141). -/
def execAdd (d r : Reg) (s : State) : Result := arithWrite d (addc (s.x d) (s.x r) false) s

/-- ADDI (R142). -/
def execAddi (d : Reg) (k : Int) (s : State) : Result := arithWrite d (addc (s.x d) (constWord k) false) s

/-- ADDC (R143). -/
def execAddc (d r : Reg) (s : State) : Result := arithWrite d (addc (s.x d) (s.x r) s.flagC) s

/-- SUB (R144). -/
def execSub (d r : Reg) (s : State) : Result := arithWrite d (subb (s.x d) (s.x r) false) s

/-- SUBI (R145). -/
def execSubi (d : Reg) (k : Int) (s : State) : Result := arithWrite d (subb (s.x d) (constWord k) false) s

/-- SUBB (R146). -/
def execSubb (d r : Reg) (s : State) : Result := arithWrite d (subb (s.x d) (s.x r) s.flagC) s

/-- CMP (R147). -/
def execCmp (d r : Reg) (s : State) : Result := arithCompare (subb (s.x d) (s.x r) false) s

/-- CMPI (R148). -/
def execCmpi (d : Reg) (k : Int) (s : State) : Result := arithCompare (subb (s.x d) (constWord k) false) s

/-- MUL (R149): the low 16 bits of the product; C and the new value of Rs are free values. -/
def execMul (d r : Reg) (s : State) : Result :=
  let w := s.x d * s.x r
  let v := outOfRange ((s.x d).toInt * (s.x r).toInt)
  let c := s.drawBit.1
  let s1 := s.drawBit.2.commit d w { setZN w with c := some c, v := some v }
  let s2 := s1.drawWord.2.setX r s1.drawWord.1
  endArith v s.tv s2

/-- DIV and MOD with a divisor that is not zero: V cleared, C a free value (R150). -/
def divideWrite (d : Reg) (w : Word) (s : State) : Result :=
  .next (s.drawBit.2.commit d w { setZN w with c := some s.drawBit.1, v := some false }).advance

/-- DIV and MOD with divisor zero: DIV0 with nothing written when TD = 1 (R154); otherwise Rd, Z, N and C are free
values, V is 1 and EXCESSO is raised when TV = 1 (R153). -/
def divideByZero (d : Reg) (s : State) : Result :=
  if s.td then takeException .div0 s
  else
    let (w, s1) := s.drawWord
    let (z, s2) := s1.drawBit
    let (n, s3) := s2.drawBit
    let (c, s4) := s3.drawBit
    endArith true s.tv (s4.commit d w { z := some z, n := some n, c := some c, v := some true })

/-- DIV (R151). -/
def execDiv (d r : Reg) (s : State) : Result :=
  if s.x r = 0#16 then divideByZero d s else divideWrite d (divWord (s.x d) (s.x r)) s

/-- MOD (R152). -/
def execMod (d r : Reg) (s : State) : Result :=
  if s.x r = 0#16 then divideByZero d s else divideWrite d (modWord (s.x d) (s.x r)) s

/-- NEG (R155): 0 - Rd. -/
def execNeg (d : Reg) (s : State) : Result := arithWrite d (subb 0#16 (s.x d) false) s

end Sys2Proof.Machine
end

