-- ==== Sys2Proof/Machine/Bits.lean ====
section
/-! DEFINITION. The logic and bit instructions (spec/41_bit_logic.md R160 to R168). None raises an exception. -/

namespace Sys2Proof.Machine

/-- A logic or bit instruction that writes its result: Z and N by `commit`, C and V unchanged (R160 to R168). -/
def logicWrite (d : Reg) (w : Word) (s : State) : Result := .next (s.commit d w (setZN w)).advance

/-- AND (R160). -/
def execAnd (d r : Reg) (s : State) : Result := logicWrite d (s.x d &&& s.x r) s

/-- OR (R161). -/
def execOr (d r : Reg) (s : State) : Result := logicWrite d (s.x d ||| s.x r) s

/-- NOT (R162). -/
def execNot (d : Reg) (s : State) : Result := logicWrite d (s.x d ^^^ 0xFFFF#16) s

/-- XOR (R163). -/
def execXor (d r : Reg) (s : State) : Result := logicWrite d (s.x d ^^^ s.x r) s

/-- TEST (R164): the flags of AND, no register written. -/
def execTest (d r : Reg) (s : State) : Result := .next (s.setFlags (setZN (s.x d &&& s.x r))).advance

/-- BIT (R165): Z is the complement of bit n. -/
def execBit (d : Reg) (n : Fin 16) (s : State) : Result :=
  .next (s.setFlags { z := some (!(s.x d).getLsbD n.val) }).advance

/-- SETBIT (R166). -/
def execSetbit (d : Reg) (n : Fin 16) (s : State) : Result := logicWrite d (s.x d ||| bitMask n) s

/-- CLRBIT (R167). -/
def execClrbit (d : Reg) (n : Fin 16) (s : State) : Result := logicWrite d (s.x d &&& ~~~bitMask n) s

/-- CPLBIT (R168). -/
def execCplbit (d : Reg) (n : Fin 16) (s : State) : Result := logicWrite d (s.x d ^^^ bitMask n) s

end Sys2Proof.Machine
end

