-- ==== Sys2Proof/Machine/Control.lean ====
section
/-! DEFINITION. The control flow instructions (spec/44_control_flow.md R240 to R269). No target is checked: an odd one
is loaded into PC and the next fetch raises I_DESALINHADO (R240 (3)). -/

namespace Sys2Proof.Machine

/-- `pc <- t`. -/
def jumpTo (t : Word) (s : State) : Result := .next { s with pc := t }

/-- A conditional jump: the relative target if the condition holds, else EIS (R240). -/
def condJump (cond : Bool) (dif : Int) (s : State) : Result :=
  if cond then jumpTo (relTarget s dif) s else .next s.advance

/-- JZ (R241). -/
def execJz (dif : Int) (s : State) : Result := condJump s.flagZ dif s
/-- JNZ (R242). -/
def execJnz (dif : Int) (s : State) : Result := condJump (!s.flagZ) dif s
/-- JN (R243). -/
def execJn (dif : Int) (s : State) : Result := condJump s.flagN dif s
/-- JNN (R244). -/
def execJnn (dif : Int) (s : State) : Result := condJump (!s.flagN) dif s
/-- JP (R245): (N ∨ Z) = 0. -/
def execJp (dif : Int) (s : State) : Result := condJump (!(s.flagN || s.flagZ)) dif s
/-- JNP (R246): (N ∨ Z) = 1. -/
def execJnp (dif : Int) (s : State) : Result := condJump (s.flagN || s.flagZ) dif s
/-- JC (R247). -/
def execJc (dif : Int) (s : State) : Result := condJump s.flagC dif s
/-- JNC (R248). -/
def execJnc (dif : Int) (s : State) : Result := condJump (!s.flagC) dif s
/-- JV (R249). -/
def execJv (dif : Int) (s : State) : Result := condJump s.flagV dif s
/-- JNV (R250). -/
def execJnv (dif : Int) (s : State) : Result := condJump (!s.flagV) dif s
/-- JLT (R251): (N ⊕ V) = 1. -/
def execJlt (dif : Int) (s : State) : Result := condJump (s.flagN != s.flagV) dif s
/-- JLE (R252): ((N ⊕ V) ∨ Z) = 1. -/
def execJle (dif : Int) (s : State) : Result := condJump ((s.flagN != s.flagV) || s.flagZ) dif s
/-- JGT (R253): ((N ⊕ V) ∨ Z) = 0. -/
def execJgt (dif : Int) (s : State) : Result := condJump (!((s.flagN != s.flagV) || s.flagZ)) dif s
/-- JGE (R254): (N ⊕ V) = 0. -/
def execJge (dif : Int) (s : State) : Result := condJump (!(s.flagN != s.flagV)) dif s
/-- JA (R255): (C ∨ Z) = 0. -/
def execJa (dif : Int) (s : State) : Result := condJump (!(s.flagC || s.flagZ)) dif s
/-- JBE (R256): (C ∨ Z) = 1. -/
def execJbe (dif : Int) (s : State) : Result := condJump (s.flagC || s.flagZ) dif s

/-- JMP (R258). -/
def execJmp (dif : Int) (s : State) : Result := jumpTo (relTarget s dif) s

/-- JMPR (R259): absolute, no scaling. -/
def execJmpr (r : Reg) (s : State) : Result := jumpTo (s.x r) s

/-- EIS pushed, then `pc <- target`, then SP (R260, R261). -/
def callTo (target : Word) (s : State) : Result :=
  storeWord s (pushAddr s) s.eis fun t => jumpTo target (t.setX .sp (pushAddr s))

/-- CALL (R260). -/
def execCall (dif : Int) (s : State) : Result := callTo (relTarget s dif) s

/-- CR (R261): with SP as operand the target is the SP before the instruction. -/
def execCr (r : Reg) (s : State) : Result := callTo (s.x r) s

/-- CALLF (R262). -/
def execCallf (dif : Int) (s : State) : Result := jumpTo (relTarget s dif) (s.setX .rl s.eis)

/-- CRF (R263), line by line: with RL as operand the target is EIS. -/
def execCrf (r : Reg) (s : State) : Result :=
  let s1 := s.setX .rl s.eis
  jumpTo (s1.x r) s1

/-- RET (R264). -/
def execRet (s : State) : Result :=
  loadWord s (s.x .sp) fun t u => jumpTo t (u.setX .sp (u.x .sp + 2#16))

/-- RETF (R265). -/
def execRetf (s : State) : Result := jumpTo (s.x .rl) s

/-- SWE (R267): the entry sequence with table index k, not the fixed index of SOFTWARE (R306). -/
def execSwe (k : Byte) (s : State) : Result := enter k (returnAddress .software s) s

/-- RFE (R268). -/
def execRfe (s : State) : Result := returnFromException s

/-- NOP (R269). -/
def execNop (s : State) : Result := .next s.advance

end Sys2Proof.Machine
end

