-- ==== Sys2Proof/Machine/Shift.lean ====
section
/-! DEFINITION. The shift and rotate instructions (spec/42_shift_rotate.md R181 to R188). -/

namespace Sys2Proof.Machine

/-- A shift or rotate that lists Z, N and C (R180). -/
def shiftWrite (d : Reg) (x : ShiftResult) (s : State) : Result := .next (s.commit d x.r x.flags).advance

/-- SHR (R181). -/
def execShr (d : Reg) (n : Fin 16) (s : State) : Result := shiftWrite d (shiftRight (s.x d) n.val s.flagC) s

/-- SHL (R182). -/
def execShl (d : Reg) (n : Fin 16) (s : State) : Result := shiftWrite d (shiftLeft (s.x d) n.val s.flagC) s

/-- SHRA (R183). -/
def execShra (d : Reg) (n : Fin 16) (s : State) : Result := shiftWrite d (shiftRightArith (s.x d) n.val s.flagC) s

/-- SHLA (R184): the value and carry of SHL, V written, EXCESSO as an arithmetic operation (R156). -/
def execShla (d : Reg) (n : Fin 16) (s : State) : Result :=
  let x := shiftLeft (s.x d) n.val s.flagC
  let v := shlaOverflow (s.x d) n.val
  endArith v s.tv (s.commit d x.r { x.flags with v := some v })

/-- ROR (R185). -/
def execRor (d : Reg) (n : Fin 16) (s : State) : Result := shiftWrite d (rotRight (s.x d) n.val s.flagC) s

/-- ROL (R186). -/
def execRol (d : Reg) (n : Fin 16) (s : State) : Result := shiftWrite d (rotLeft (s.x d) n.val s.flagC) s

/-- RORC (R187). -/
def execRorc (d : Reg) (n : Fin 16) (s : State) : Result := shiftWrite d (rotRightCarry (s.x d) n.val s.flagC) s

/-- ROLC (R188). -/
def execRolc (d : Reg) (n : Fin 16) (s : State) : Result := shiftWrite d (rotLeftCarry (s.x d) n.val s.flagC) s

end Sys2Proof.Machine
end

