-- ==== Sys2Proof/Machine/Interrupts.lean ====
section
/-! DEFINITION. The interrupt pins, their request latches and RCN (spec/10_state.md R43 to R45), the sampling,
acceptance and priority of interrupts (spec/60_exceptions.md R303, R315 to R317), the DMA master (spec/20_memory.md
R84) and RESET (spec/70_reset_and_hazards.md R350). -/

namespace Sys2Proof.Machine

/-! ## Pin sensitivity (R43) -/

/-- The bit of pin or latch i. -/
def Lines.get (l : Lines) (i : Fin 4) : Bool :=
  match i.val with
  | 0 => l.int0
  | 1 => l.int1
  | 2 => l.int2
  | _ => l.int3

/-- Four lines from a rule for each. -/
def Lines.ofFn (f : Fin 4 → Bool) : Lines := ⟨f 0, f 1, f 2, f 3⟩

/-- The four codes of an NSI field (R43). -/
inductive Sensitivity where
  /-- 00: edge 0 to 1, latched. -/
  | rising
  /-- 01: edge 1 to 0, latched. -/
  | falling
  /-- 10: level 1, not latched. -/
  | high
  /-- 11: level 0, not latched. -/
  | low
deriving DecidableEq, Repr

/-- The field NSIi of RCN: bits 2i+1 and 2i, the named-first bit the more significant (R43). -/
def nsi (rcn : Word) (i : Fin 4) : BitVec 2 := rcn.extractLsb' (2 * i.val) 2

/-- The sensitivity of pin INTi (R43). -/
def sensitivity (rcn : Word) (i : Fin 4) : Sensitivity :=
  match nsi rcn i with
  | 0b00#2 => .rising
  | 0b01#2 => .falling
  | 0b10#2 => .high
  | _ => .low

/-- Whether requests on the pin are latched, "com memória" (R43, R45). -/
def Sensitivity.latched : Sensitivity → Bool
  | .rising => true
  | .falling => true
  | .high => false
  | .low => false

/-! ## Sampling and requests (R315, R316) -/

/-- IPi after one sample: set by the selected edge and kept until accepted; held at 0 for a level (R316 (1), (3)). -/
def latchAfter (m : Sensitivity) (ip old new : Bool) : Bool :=
  match m with
  | .rising => ip || (!old && new)
  | .falling => ip || (old && !new)
  | .high => false
  | .low => false

/-- The pins sampled at a boundary; an edge is a difference between two successive samples (R316 (5)). A detector that
starts afresh has nothing latched and takes the level sampled now as its reference (R316 (4)). -/
def State.samplePins (s : State) (new : Lines) : State :=
  { s with
    intPins := new
    restart := Lines.all false
    ip := Lines.ofFn fun i =>
      !s.restart.get i && latchAfter (sensitivity s.rcn i) (s.ip.get i) (s.intPins.get i) (new.get i) }

/-- `req(i)` of R315. -/
def State.requests (s : State) (i : Fin 4) : Bool :=
  match sensitivity s.rcn i with
  | .rising => s.ip.get i
  | .falling => s.ip.get i
  | .high => s.intPins.get i
  | .low => !s.intPins.get i

/-- Whether interrupt i can be accepted: IE, IEi and a request (R303, R315). -/
def State.acceptable (s : State) (i : Fin 4) : Bool := s.ie && s.iei i && s.requests i

/-- The interrupt a source stands for, if it can be accepted at this boundary. No internal exception waits there: it has
been entered as part of its instruction (R315, R317). -/
def State.waiting (s : State) : Source → Option (Fin 4)
  | .internal => none
  | .interrupt i => if s.acceptable i then some i else none

/-- The interrupt accepted at this boundary: the first that waits in the order of `EXC_PRIORITY`, so the one of the
lowest number (R315, R317). -/
def State.accepted (s : State) : Option (Fin 4) := Param.excPriority.findSome? s.waiting

/-- IPi cleared when interrupt i is accepted and its pin is edge sensitive (R315, R316 (2)). -/
def State.clearLatch (s : State) (i : Fin 4) : State :=
  { s with ip := Lines.ofFn fun j => if j = i && (sensitivity s.rcn i).latched then false else s.ip.get j }

/-- Acceptance of interrupt i: its latch cleared, INTA driven to 0 for INT3 (R47), then the entry sequence, which saves
the pc of the instruction that would have been executed next (R311, R315). -/
def acceptInterrupt (i : Fin 4) (s : State) : Result :=
  takeException (.int i) { s.clearLatch i with inta := decide (i ≠ 3) }

/-- RCN written: all 16 bits stored (R219). For each i whose NSIi field changed, IPi is cleared and its edge detector
starts afresh at the next boundary (R316 (4), assumption log 18). -/
def State.writeRcn (s : State) (v : Word) : State :=
  { s with
    rcn := v
    ip := Lines.ofFn fun i => decide (nsi v i = nsi s.rcn i) && s.ip.get i
    restart := Lines.ofFn fun i => decide (nsi v i ≠ nsi s.rcn i) || s.restart.get i }

/-! ## The DMA master (R84) -/

/-- One access of the DMA master: a write reaches read-write storage alone, and is no access of the processor to a
peripheral (assumption log 22). A read changes nothing in the machine. -/
def State.dmaAccess (s : State) : DmaAccess → State
  | .read _ => s
  | .write a v => s.putByte a v

/-- The bus at a boundary: granted while BRQ is asserted and RE.DE = 1 (R37, R84); then the master's accesses happen,
one after the other. -/
def State.dmaBoundary (s : State) (brq : Bool) (accesses : List DmaAccess) : State :=
  if brq && s.de then { accesses.foldl State.dmaAccess s with bgt := true } else { s with bgt := false }

/-! ## RESET (R350) -/

/-- The reset operation: every register as `State.reset` has it, memory, map and the host's answers unchanged (R350,
R52); the pins' present levels become the edge detectors' reference (assumption log 27). -/
def State.resetOperation (s : State) (pins : Lines) : State :=
  { State.reset with
    mem := s.mem, map := s.map, dev := s.dev, intPins := pins, inputs := s.inputs, draws := s.draws }

/-! ## One instruction boundary (R315, R357) -/

/-- What a boundary leads to. -/
inductive Boundary where
  /-- RESET was asserted: this step is the reset operation. -/
  | reset (s : State)
  /-- The machine is stuck in a double fault (R319). -/
  | stuck
  /-- Interrupt i is accepted: this step is its entry sequence. -/
  | interrupt (i : Fin 4) (s : State)
  /-- The next instruction is fetched. -/
  | proceed (s : State)
deriving DecidableEq, Repr

/-- What the host does at this boundary: the first entry of `inputs`; with none left the pins keep their levels and
nothing is asserted. -/
def State.hostInput (s : State) : HostInput :=
  match s.inputs with
  | h :: _ => h
  | [] => { reset := false, pins := s.intPins, brq := false, dma := [] }

/-- The state with the boundary's input consumed, INTA released (R47, assumption log 23) and a new step's list of
peripheral accesses begun (log 36). -/
def State.openBoundary (s : State) : State :=
  { s with inputs := s.inputs.tail, inta := true, dev := { s.dev with accesses := [] } }

/-- The state once the boundary's input is consumed, the bus request served and the pins sampled. -/
def State.atBoundary (s : State) : State :=
  let h := s.hostInput
  (s.openBoundary.dmaBoundary h.brq h.dma).samplePins h.pins

/-- The boundary before the next fetch. DESIGN CHOICE (assumption log 27): where RESET is asserted, that boundary is the
reset operation alone; BRQ and the DMA accesses that the host lists for it are dropped, also with RE.DE = 1. The spec
gives no order between RESET and BRQ (R46, R84, R350). -/
def boundary (s : State) : Boundary :=
  if s.hostInput.reset then .reset (s.openBoundary.resetOperation s.hostInput.pins)
  else if s.run = .doubleFault then .stuck
  else
    match s.atBoundary.accepted with
    | some i => .interrupt i s.atBoundary
    | none => .proceed s.atBoundary

end Sys2Proof.Machine
end

