-- ==== Sys2Proof/Machine/Transfer.lean ====
section
/-! DEFINITION. The data transfer instructions (spec/43_data_transfer.md R200 to R227). No flag is written unless RE is
the destination (R200 (1)). -/

namespace Sys2Proof.Machine

/-- `x[d] <- v`, then `pc <- EIS`. -/
def moveTo (d : Reg) (v : Word) (s : State) : Result := .next (s.setX d v).advance

/-- `v = MemRead(ea, 2); x[d] <- v` (R201, R202, R208). -/
def loadTo (d : Reg) (ea : Word) (s : State) : Result := loadWord s ea fun v t => moveTo d v t

/-- `MemWrite(ea, 2, v)` (R203, R204, R209). -/
def storeAt (ea v : Word) (s : State) : Result := storeWord s ea v fun t => .next t.advance

/-- LDO (R201). -/
def execLdo (d r : Reg) (off : Int) (s : State) : Result := loadTo d (basedAddr s r off) s

/-- LDR (R202). -/
def execLdr (d r i : Reg) (s : State) : Result := loadTo d (indexedAddr s r i) s

/-- STO (R203): `r` is the data register, `d` the base. -/
def execSto (r d : Reg) (off : Int) (s : State) : Result := storeAt (basedAddr s d off) (s.x r) s

/-- STR (R204): `r` is the data register, `d` the base. -/
def execStr (r d i : Reg) (s : State) : Result := storeAt (indexedAddr s d i) (s.x r) s

/-- LDB (R205). -/
def execLdb (d r : Reg) (s : State) : Result := loadByte s (s.x r) fun b t => moveTo d (zextByte b) t

/-- STB (R206). -/
def execStb (d r : Reg) (s : State) : Result := storeByte s (s.x d) (lowByte (s.x r)) fun t => .next t.advance

/-- LDBS (R207). -/
def execLdbs (d r : Reg) (s : State) : Result := loadByte s (s.x r) fun b t => moveTo d (sextByte b) t

/-- LDP (R208, R83). -/
def execLdp (d r : Reg) (s : State) : Result := loadTo d (s.x r) s

/-- STP (R209, R83). -/
def execStp (d r : Reg) (s : State) : Result := storeAt (s.x d) (s.x r) s

/-- MOVL (R210). -/
def execMovl (d : Reg) (k : Int) (s : State) : Result := moveTo d (constWord k) s

/-- MOVH (R211). -/
def execMovh (d : Reg) (k : Byte) (s : State) : Result := moveTo d (wordOfBytes k (lowByte (s.x d))) s

/-- MOVRR (R218). -/
def execMovrr (d r : Reg) (s : State) : Result := moveTo d (s.x r) s

/-- MOVAR (R219): a write to an unimplemented auxiliary register is discarded (R42). -/
def execMovar (a : Fin 16) (r : Reg) (s : State) : Result :=
  if a = Param.rcnIndex then .next (s.writeRcn (s.x r)).advance else .next s.advance

/-- MOVRA (R220): a read of an unimplemented auxiliary register gives a free value (R42). -/
def execMovra (d : Reg) (a : Fin 16) (s : State) : Result :=
  if a = Param.rcnIndex then moveTo d s.rcn s else moveTo d s.drawWord.1 s.drawWord.2

/-- MOVRU (R221). -/
def execMovru (d : Reg) (s : State) : Result := moveTo d s.usp s

/-- MOVUR (R222). -/
def execMovur (r : Reg) (s : State) : Result := .next (s.set .usp (s.x r)).advance

/-- SWAPR (R224), line by line through TEMP. -/
def execSwapr (d r : Reg) (s : State) : Result :=
  let s1 : State := { s with temp := s.x d }
  let s2 := s1.setX d (s1.x r)
  .next (s2.setX r s2.temp).advance

/-- SWAPM (R225), line by line through TEMP; the read comes first and raises with nothing changed. -/
def execSwapm (d r : Reg) (s : State) : Result :=
  let ea := s.x r
  loadWord s ea fun t s1 =>
    let s2 : State := { s1 with temp := t }
    storeWord s2 ea (s2.x d) fun s3 => .next (s3.setX d s3.temp).advance

/-- PUSH (R226): SP is written last. -/
def execPush (r : Reg) (s : State) : Result :=
  storeWord s (pushAddr s) (s.x r) fun t => .next (t.setX .sp (pushAddr s)).advance

/-- POP (R227), line by line: Rd is written first, then the stack pointer that RE.NP selects by then. -/
def execPop (d : Reg) (s : State) : Result :=
  loadWord s (s.x .sp) fun v t =>
    let s1 := t.setX d v
    .next (s1.setX .sp (s1.x .sp + 2#16)).advance

end Sys2Proof.Machine
end

