-- ==== Sys2Proof/Machine/Dispatch.lean ====
section
/-! DEFINITION. Every instruction and its meaning: one arm for each row of spec/opcode_table.json. -/

namespace Sys2Proof.Machine

/-- The effect of one instruction, fetched at `s.pc`. -/
def exec (i : Instr) (s : State) : Host.Outcome State Fault Refusal :=
  match i with
  | .add d r => Sys2Proof.Machine.execAdd d r s
  | .addi d k => Sys2Proof.Machine.execAddi d k s
  | .addc d r => Sys2Proof.Machine.execAddc d r s
  | .sub d r => Sys2Proof.Machine.execSub d r s
  | .subi d k => Sys2Proof.Machine.execSubi d k s
  | .subb d r => Sys2Proof.Machine.execSubb d r s
  | .cmp d r => Sys2Proof.Machine.execCmp d r s
  | .cmpi d k => Sys2Proof.Machine.execCmpi d k s
  | .mul d r => Sys2Proof.Machine.execMul d r s
  | .div d r => Sys2Proof.Machine.execDiv d r s
  | .mod d r => Sys2Proof.Machine.execMod d r s
  | .neg d => Sys2Proof.Machine.execNeg d s
  | .shra d n => Sys2Proof.Machine.execShra d n s
  | .shla d n => Sys2Proof.Machine.execShla d n s
  | .and d r => Sys2Proof.Machine.execAnd d r s
  | .or d r => Sys2Proof.Machine.execOr d r s
  | .not d => Sys2Proof.Machine.execNot d s
  | .xor d r => Sys2Proof.Machine.execXor d r s
  | .test d r => Sys2Proof.Machine.execTest d r s
  | .bit d n => Sys2Proof.Machine.execBit d n s
  | .setbit d n => Sys2Proof.Machine.execSetbit d n s
  | .clrbit d n => Sys2Proof.Machine.execClrbit d n s
  | .cplbit d n => Sys2Proof.Machine.execCplbit d n s
  | .shr d n => Sys2Proof.Machine.execShr d n s
  | .shl d n => Sys2Proof.Machine.execShl d n s
  | .ror d n => Sys2Proof.Machine.execRor d n s
  | .rol d n => Sys2Proof.Machine.execRol d n s
  | .rorc d n => Sys2Proof.Machine.execRorc d n s
  | .rolc d n => Sys2Proof.Machine.execRolc d n s
  | .ldo d r off => Sys2Proof.Machine.execLdo d r off s
  | .ldr d r x => Sys2Proof.Machine.execLdr d r x s
  | .sto r d off => Sys2Proof.Machine.execSto r d off s
  | .str r d x => Sys2Proof.Machine.execStr r d x s
  | .ldb d r => Sys2Proof.Machine.execLdb d r s
  | .stb d r => Sys2Proof.Machine.execStb d r s
  | .ldbs d r => Sys2Proof.Machine.execLdbs d r s
  | .ldp d r => Sys2Proof.Machine.execLdp d r s
  | .stp d r => Sys2Proof.Machine.execStp d r s
  | .movl d k => Sys2Proof.Machine.execMovl d k s
  | .movh d k => Sys2Proof.Machine.execMovh d k s
  | .movrr d r => Sys2Proof.Machine.execMovrr d r s
  | .movar a r => Sys2Proof.Machine.execMovar a r s
  | .movra d a => Sys2Proof.Machine.execMovra d a s
  | .movru d => Sys2Proof.Machine.execMovru d s
  | .movur r => Sys2Proof.Machine.execMovur r s
  | .swapr d r => Sys2Proof.Machine.execSwapr d r s
  | .swapm d r => Sys2Proof.Machine.execSwapm d r s
  | .push r => Sys2Proof.Machine.execPush r s
  | .pop d => Sys2Proof.Machine.execPop d s
  | .jz dif => Sys2Proof.Machine.execJz dif s
  | .jnz dif => Sys2Proof.Machine.execJnz dif s
  | .jn dif => Sys2Proof.Machine.execJn dif s
  | .jnn dif => Sys2Proof.Machine.execJnn dif s
  | .jp dif => Sys2Proof.Machine.execJp dif s
  | .jnp dif => Sys2Proof.Machine.execJnp dif s
  | .jc dif => Sys2Proof.Machine.execJc dif s
  | .jnc dif => Sys2Proof.Machine.execJnc dif s
  | .jv dif => Sys2Proof.Machine.execJv dif s
  | .jnv dif => Sys2Proof.Machine.execJnv dif s
  | .jlt dif => Sys2Proof.Machine.execJlt dif s
  | .jle dif => Sys2Proof.Machine.execJle dif s
  | .jgt dif => Sys2Proof.Machine.execJgt dif s
  | .jge dif => Sys2Proof.Machine.execJge dif s
  | .ja dif => Sys2Proof.Machine.execJa dif s
  | .jbe dif => Sys2Proof.Machine.execJbe dif s
  | .jmp dif => Sys2Proof.Machine.execJmp dif s
  | .jmpr r => Sys2Proof.Machine.execJmpr r s
  | .call dif => Sys2Proof.Machine.execCall dif s
  | .cr r => Sys2Proof.Machine.execCr r s
  | .callf dif => Sys2Proof.Machine.execCallf dif s
  | .crf r => Sys2Proof.Machine.execCrf r s
  | .ret => Sys2Proof.Machine.execRet s
  | .retf => Sys2Proof.Machine.execRetf s
  | .swe k => Sys2Proof.Machine.execSwe k s
  | .rfe => Sys2Proof.Machine.execRfe s
  | .nop => Sys2Proof.Machine.execNop s

end Sys2Proof.Machine
end

