-- ==== Sys2Proof/Machine/Fetch.lean ====
section
/-! DEFINITION. Instruction fetch and decode (spec/20_memory.md R78, R79, spec/30_encoding.md R117, R119) and where a
fetched instruction lies in memory. -/

namespace Sys2Proof.Machine

/-- What the fetch at pc gives, with the state after it: a fetch reads memory as any word access does (R78), so it
differs from the state before in `dev` alone. -/
inductive Fetched where
  /-- An instruction. -/
  | instr (i : Instr) (t : State)
  /-- An exception of the fetch (I_DESALINHADO), of the decode (COD_INV) or of `PRIV_CHECK`. -/
  | raised (e : Exc) (t : State)
  /-- A byte of the word has no value (R82). -/
  | unwritten
  /-- The map has nothing at a byte of the word (R358 (c)). -/
  | unmapped
deriving DecidableEq, Repr

/-- What `PRIV_CHECK` raises for an instruction at the present level (R322): by default nothing. -/
def privilegeViolation (s : State) (i : Instr) : Option Exc := if s.np then Param.privCheck i else none

/-- The word `Mw[pc]` fetched and decoded: an odd pc raises I_DESALINHADO with nothing fetched (R79), a word that
stands for no instruction raises COD_INV (R117). -/
def fetch (s : State) : Fetched :=
  match s.readWord s.pc with
  | .misaligned => .raised .iDesalinhado s
  | .unwritten => .unwritten
  | .unmapped => .unmapped
  | .value w d =>
    match decode w with
    | .error _ => .raised .codInv (s.withDev d)
    | .ok i =>
      match privilegeViolation s i with
      | some e => .raised e (s.withDev d)
      | none => .instr i (s.withDev d)

/-- A state with an instruction word stored where the next fetch reads it; where the map has no storage there, the two
bytes become read-write storage (assumption log 28). -/
def State.placeWord (s : State) (w : Word) : State :=
  let m : State := { s with map := { base := s.pc.toNat, size := 2, kind := .ram } :: s.map }
  (if s.kindAt s.pc = .ram ∧ s.kindAt (s.pc + 1#16) = .ram then s else m).putWord s.pc w

end Sys2Proof.Machine
end

