-- ==== Sys2Proof/Machine/Step.lean ====
section
/-! DEFINITION. One step (spec/70_reset_and_hazards.md R357): the boundary before the next fetch (reset, DMA, pin
sampling, interrupt acceptance), then one reset, one exception entry or one instruction. -/

namespace Sys2Proof.Machine

/-- One step of the machine. -/
def step (s : State) : Host.Outcome State Fault Refusal :=
  match boundary s with
  | .reset t => .next t
  | .stuck => .fault .doubleFault
  | .interrupt i t => acceptInterrupt i t
  | .proceed t =>
    match fetch t with
    | .instr i u => exec i u
    | .raised e u => takeException e u
    | .unwritten => .fault .unwrittenFetch
    | .unmapped => .fault .unmapped

/-- `s` with the instruction whose bits are `w` stored at pc, where `step` fetches (assumption log 28). -/
def State.withFetchWord (s : State) (nbits w : Nat) : State := s.placeWord (tableWord nbits w)

end Sys2Proof.Machine
end

