-- ==== Sys2Proof/Machine/Assembler.lean ====
section
/-! DEFINITION. The assembler (spec/45_assembler.md R280 to R292): source lines, literals, labels, directives, the choice
of a machine instruction for an assembly form (spec/30_encoding.md R122, R123, spec/41_bit_logic.md R170,
spec/44_control_flow.md R257) and the pseudo-instruction `MOV Rd, k`. It is no part of the processor: `step` does not use
it (assumption log 33, 35 and 37). -/

namespace Sys2Proof.Machine.Asm

/-- Why a text is not assembled. -/
inductive AsmError where
  | badLine
  | badLabel
  | badOperand
  | unknownForm (mnemonic : String)
  | outOfRange (mnemonic : String)
  | oddAddress (mnemonic : String)
  | undefined (symbol : String)
  | duplicate (symbol : String)
  | unsettled
deriving DecidableEq, Repr

/-- A constant operand: a literal, or a symbol that a label or EQU defines (R283, R287). -/
inductive Value where
  | num (k : Int)
  | sym (name : String)
deriving DecidableEq, Repr

/-- The operand shapes of R121 and R122. `RCN` is the spelling this spec's examples use for the auxiliary register. -/
inductive Operand where
  | reg (r : Reg)
  | rcn
  | usp
  | val (v : Value)
  | based (base : Reg) (off : Value)
  | indexed (base index : Reg)
  | str (cs : List Char)
deriving DecidableEq, Repr

/-- What a line holds after its label (R280, R285 to R289). -/
inductive Item where
  | instr (mnemonic : String) (ops : List Operand)
  | place (v : Value)
  | equ (symbol : String) (v : Value)
  | word (v : Value)
  | string (ops : List Operand)
  | table (v : Value)
deriving DecidableEq, Repr

/-- A source line: an optional label and an optional item (R280). -/
structure Line where
  label : Option String
  item : Option Item
deriving DecidableEq, Repr

/-! ## Characters and literals (R281 to R283) -/

/-- The text before the first `;` (R281). -/
def stripComment : List Char → List Char
  | [] => []
  | c :: cs => if c = ';' then [] else c :: stripComment cs

/-- Leading blanks left out. -/
def skipBlanks : List Char → List Char
  | [] => []
  | c :: cs => if c.isWhitespace then skipBlanks cs else c :: cs

/-- Blanks at both ends left out. -/
def trimBlanks (cs : List Char) : List Char := (skipBlanks (skipBlanks cs).reverse).reverse

/-- A letter, digit or `_` (R283). DESIGN CHOICE (assumption log 37): the letters are the ASCII letters, so that a name
with an accented letter is refused; the spec does not say whether such a letter counts. -/
def isNameChar (c : Char) : Bool := c.isAlphanum || c == '_'

/-- A label or symbol: name characters, the first no digit (R283). -/
def isName : List Char → Bool
  | [] => false
  | c :: cs => isNameChar c && !c.isDigit && cs.all isNameChar

/-- The value of a digit in a base. -/
def digitOf (base : Nat) (c : Char) : Option Nat :=
  let v :=
    if c.isDigit then c.toNat - '0'.toNat
    else if c.isLower then c.toNat - 'a'.toNat + 10
    else if c.isUpper then c.toNat - 'A'.toNat + 10
    else base
  if v < base then some v else none

/-- A non-empty digit string in a base, most significant digit first. -/
def digitsOf (base : Nat) : List Char → Option Nat
  | [] => none
  | c :: cs => cs.foldl (fun acc e => do some ((← acc) * base + (← digitOf base e))) (digitOf base c)

/-- A value of at most 16 bits (R282). -/
def upTo16Bits (n : Option Nat) : Option Int :=
  n.bind fun k => if k < 65536 then some (Int.ofNat k) else none

/-- An unsigned decimal, optionally ended by `d` (R282). -/
def decimalOf (cs : List Char) : Option Nat :=
  match cs.reverse with
  | 'd' :: rest => digitsOf 10 rest.reverse
  | 'D' :: rest => digitsOf 10 rest.reverse
  | _ => digitsOf 10 cs

/-- A numeric or character literal (R282): binary ended by `b`, hexadecimal ended by `h` with a digit first, decimal
from -32768 to 65535, one character between `'`. DESIGN CHOICE (assumption log 37): there are no escapes (N30 leaves them
open), so that a quote or a backslash between the quotes is that character. -/
def literalOf (cs : List Char) : Option Int :=
  match cs with
  | ['\'', c, '\''] => if c.toNat < 128 then some (Int.ofNat c.toNat) else none
  | '-' :: rest => (decimalOf rest).bind fun k => if k ≤ 32768 then some (-(Int.ofNat k)) else none
  | '+' :: rest => upTo16Bits (decimalOf rest)
  | _ =>
    match cs.reverse with
    | 'b' :: rest => upTo16Bits (digitsOf 2 rest.reverse)
    | 'B' :: rest => upTo16Bits (digitsOf 2 rest.reverse)
    | 'h' :: rest => if (cs.headD ' ').isDigit then upTo16Bits (digitsOf 16 rest.reverse) else none
    | 'H' :: rest => if (cs.headD ' ').isDigit then upTo16Bits (digitsOf 16 rest.reverse) else none
    | _ => upTo16Bits (decimalOf cs)

/-- A register's assembly names (R20, R122). -/
def registerOf (name : String) : Option Reg :=
  match name with
  | "R0" => some (.r 0)
  | "R1" => some (.r 1)
  | "R2" => some (.r 2)
  | "R3" => some (.r 3)
  | "R4" => some (.r 4)
  | "R5" => some (.r 5)
  | "R6" => some (.r 6)
  | "R7" => some (.r 7)
  | "R8" => some (.r 8)
  | "R9" => some (.r 9)
  | "R10" => some (.r 10)
  | "R11" => some .rl
  | "RL" => some .rl
  | "R12" => some .sp
  | "SP" => some .sp
  | "R13" => some .re
  | "RE" => some .re
  | "R14" => some .bte
  | "BTE" => some .bte
  | "R15" => some .temp
  | "TEMP" => some .temp
  | _ => none

/-- A literal or a symbol (R282, R283). -/
def valueOf (cs : List Char) : Option Value :=
  match literalOf cs with
  | some k => some (.num k)
  | none => if isName cs then some (.sym (String.ofList cs)) else none

/-! ## Operands and lines (R280, R121) -/

/-- The text up to a character that satisfies `p`, and the text from it on. -/
def splitWhen (p : Char → Bool) : List Char → List Char × List Char
  | [] => ([], [])
  | c :: cs => if p c then ([], c :: cs) else (c :: (splitWhen p cs).1, (splitWhen p cs).2)

/-- What stands between `[` and `]`: a base, with an index register or an offset (R121). DESIGN CHOICE (assumption log 37):
a constant may follow `+` with its own sign, and `-` takes a decimal literal alone; after `+`, RCN and USP are symbols like
any other, and a register's name is the index register. -/
def addressOf (cs : List Char) : Option Operand :=
  let parts := splitWhen (fun c => c == '+' || c == '-') cs
  (registerOf (String.ofList (trimBlanks parts.1))).bind fun base =>
    match parts.2 with
    | [] => some (.based base (.num 0))
    | '-' :: rest => (literalOf ('-' :: trimBlanks rest)).map fun k => .based base (.num k)
    | _ :: rest =>
      match registerOf (String.ofList (trimBlanks rest)) with
      | some index => some (.indexed base index)
      | none => (valueOf (trimBlanks rest)).map (Operand.based base)

/-- One operand (R121, R122, R282). DESIGN CHOICE (assumption log 37): the spec names no reserved words. A label or EQU
symbol spelt as a register, RCN or USP can be defined, but the name as an operand is the register, never the symbol. There
are no escapes in a literal (N30 leaves them open): a quote inside a string, or `'''`, is that character; `""` is the empty
string. -/
def operandOf (text : List Char) : Option Operand :=
  let cs := trimBlanks text
  match cs with
  | '[' :: rest =>
    match rest.reverse with
    | ']' :: inner => addressOf inner.reverse
    | _ => none
  | '"' :: rest =>
    match rest.reverse with
    | '"' :: inner => some (.str inner.reverse)
    | _ => none
  | _ =>
    let name := String.ofList cs
    match registerOf name with
    | some r => some (.reg r)
    | none =>
      if name = "RCN" then some .rcn
      else if name = "USP" then some .usp
      else (valueOf cs).map Operand.val

/-- The texts between commas; `q` is the literal's quote while inside one. DESIGN CHOICE (assumption log 37): a comma
inside a character or string literal separates nothing. -/
def splitCommas (q : Option Char) : List Char → List (List Char)
  | [] => [[]]
  | c :: cs =>
    let q' := match q with
      | some e => if c = e then none else some e
      | none => if c = '"' || c = '\'' then some c else none
    match splitCommas q' cs with
    | [] => []
    | first :: rest => if q = none && c = ',' then [] :: first :: rest else (c :: first) :: rest

/-- The operands of a line, none for a blank text (R280). -/
def operandsOf (cs : List Char) : Option (List Operand) :=
  if trimBlanks cs = [] then some [] else (splitCommas none cs).mapM operandOf

/-- The one operand of PLACE, EQU, WORD or TABLE. DESIGN CHOICE (assumption log 37): a label may stand for the constant, and
a string may not. R289 counts a string among the constants of STRING; R286 to R289 do not say whether the constant of one
of these four may be a string, and the model refuses it. -/
def oneValue (cs : List Char) : Option Value :=
  match operandsOf cs with
  | some [.val v] => some v
  | _ => none

/-- The item of a line without its label: a mnemonic or directive with its operands; EQU has its symbol before it
(R280, R286 to R289). DESIGN CHOICE (assumption log 37): STRING with no constant at all, outside the format of R289, is
accepted and places no byte; EQU is recognised by the second word of the line, so that a symbol may be spelt like a mnemonic
or directive; the five directives are written in capitals alone, and a line that spells one otherwise is refused (R280 and
N30 do not say); a blank must stand after a mnemonic or directive that has operands, and on both sides of EQU, so that
`MOV[R1], R2` and `WORD'g'` are refused (R280 does not say). -/
def itemOf (text : List Char) : Except AsmError (Option Item) :=
  let cs := trimBlanks text
  let first := splitWhen Char.isWhitespace cs
  let second := splitWhen Char.isWhitespace (skipBlanks first.2)
  let word := String.ofList first.1
  let need (o : Option Item) : Except AsmError (Option Item) :=
    match o with
    | some i => .ok (some i)
    | none => .error .badOperand
  if cs = [] then .ok none
  else if String.ofList second.1 = "EQU" then
    if isName first.1 then need ((oneValue second.2).map (Item.equ word)) else .error .badLabel
  else
    match word with
    | "PLACE" => need ((oneValue first.2).map Item.place)
    | "WORD" => need ((oneValue first.2).map Item.word)
    | "TABLE" => need ((oneValue first.2).map Item.table)
    | "STRING" => need ((operandsOf first.2).map Item.string)
    | _ => need ((operandsOf first.2).map (Item.instr word))

/-- One source line (R280, R281, R283). DESIGN CHOICE (assumption log 37): a label may stand before any item, before none,
and apart from its `:` by blanks. -/
def lineOf (text : List Char) : Except AsmError Line :=
  let cs := skipBlanks (stripComment text)
  let parts := splitWhen (fun c => !isNameChar c) cs
  match skipBlanks parts.2 with
  | ':' :: rest =>
    if isName parts.1 then
      match itemOf rest with
      | .ok i => .ok { label := some (String.ofList parts.1), item := i }
      | .error e => .error e
    else .error .badLabel
  | _ =>
    match itemOf cs with
    | .ok i => .ok { label := none, item := i }
    | .error e => .error e

/-! ## Machine instructions of an assembly form (R122, R123, R170, R257, R284, R290 to R292) -/

/-- A constant above 32767 read as its 16-bit pattern (R291). -/
def signedConst (k : Int) : Int := if 32767 < k then k - 65536 else k

/-- `MOV Rd, k` (R290, R291): MOVL alone where k fits 8 signed bits, else MOVL of the low byte, then MOVH of the high
byte. -/
def expandMov (d : Reg) (k : Int) : List Instr :=
  let w : Word := BitVec.ofInt 16 k
  if const8Ok (signedConst k) then [.movl d (signedConst k)]
  else [.movl d (lowByte w).toInt, .movh d (highByte w)]

/-- A value as an unsigned 16-bit pattern: -n stands for 2^16 - n (R282). -/
def addressOfValue (k : Int) : Nat := (BitVec.ofInt 16 k : Word).toNat

/-- `dif = (L - EIS) / 2` for an instruction placed at `here` (R115, R284), EIS being `here + 2` modulo 2^16 (R9, decision
D4): at FFFEH it is 0000H. DESIGN CHOICE (assumption log 35): the difference itself is a number and is not reduced, so
that a label that lies on the other side of 0000H from EIS is out of range. -/
def difTo (here target : Nat) : Int := (Int.ofNat target - Int.ofNat ((here + 2) % 65536)) / 2

/-- A label or numeric operand of a relative transfer: L and EIS are both even, and an odd one is an error (R284). -/
def relInstr (mnemonic : String) (here : Nat) (target : Int) (f : Int → Instr) : Except AsmError (List Instr) :=
  if here % 2 = 0 && addressOfValue target % 2 = 0 then .ok [f (difTo here (addressOfValue target))]
  else .error (.oddAddress mnemonic)

/-- An unsigned 4-bit operand, "n ∈ [0 .. 15]" (R112, R292). -/
def countInstr (mnemonic : String) (k : Int) (f : Fin 16 → Instr) : Except AsmError (List Instr) :=
  if h : k.toNat < 16 then
    if 0 ≤ k then .ok [f ⟨k.toNat, h⟩] else .error (.outOfRange mnemonic)
  else .error (.outOfRange mnemonic)

/-- An unsigned 8-bit operand, "k ∈ [0 .. 255]" (R114, R292). -/
def byteInstr (mnemonic : String) (k : Int) (f : Byte → Instr) : Except AsmError (List Instr) :=
  if 0 ≤ k && k ≤ 255 then .ok [f (BitVec.ofInt 8 k)] else .error (.outOfRange mnemonic)

/-- The operand of MOVL: signed, or the bit pattern of its 8-bit field (R114, conflict C17). -/
def movlConst (k : Int) : Int := if 127 < k && k ≤ 255 then k - 256 else k

/-- The two-register forms. -/
def formRR (mnemonic : String) (d s : Reg) : Option Instr :=
  match mnemonic with
  | "ADD" => some (.add d s)
  | "ADDC" => some (.addc d s)
  | "SUB" => some (.sub d s)
  | "SUBB" => some (.subb d s)
  | "CMP" => some (.cmp d s)
  | "MUL" => some (.mul d s)
  | "DIV" => some (.div d s)
  | "MOD" => some (.mod d s)
  | "AND" => some (.and d s)
  | "OR" => some (.or d s)
  | "XOR" => some (.xor d s)
  | "TEST" => some (.test d s)
  | "MOV" => some (.movrr d s)
  | "SWAP" => some (.swapr d s)
  | _ => none

/-- The one-register forms. -/
def formR (mnemonic : String) (r : Reg) : Option Instr :=
  match mnemonic with
  | "NEG" => some (.neg r)
  | "NOT" => some (.not r)
  | "PUSH" => some (.push r)
  | "POP" => some (.pop r)
  | "JMP" => some (.jmpr r)
  | "CALL" => some (.cr r)
  | "CALLF" => some (.crf r)
  | _ => none

/-- The forms without operands, the aliases of R170 among them. -/
def formNone (mnemonic : String) : Option Instr :=
  match mnemonic with
  | "RET" => some .ret
  | "RETF" => some .retf
  | "RFE" => some .rfe
  | "NOP" => some .nop
  | "EI" => some (.setbit .re 8)
  | "EI0" => some (.setbit .re 9)
  | "EI1" => some (.setbit .re 10)
  | "EI2" => some (.setbit .re 11)
  | "EI3" => some (.setbit .re 12)
  | "SETC" => some (.setbit .re 2)
  | "EDMA" => some (.setbit .re 13)
  | "DI" => some (.clrbit .re 8)
  | "DI0" => some (.clrbit .re 9)
  | "DI1" => some (.clrbit .re 10)
  | "DI2" => some (.clrbit .re 11)
  | "DI3" => some (.clrbit .re 12)
  | "CLRC" => some (.clrbit .re 2)
  | "DDMA" => some (.clrbit .re 13)
  | "CPLC" => some (.cplbit .re 2)
  | _ => none

/-- The forms with a register and a count or bit number. -/
def formRN (mnemonic : String) (d : Reg) : Option (Fin 16 → Instr) :=
  match mnemonic with
  | "BIT" => some (.bit d)
  | "SET" => some (.setbit d)
  | "CLR" => some (.clrbit d)
  | "CPL" => some (.cplbit d)
  | "SHR" => some (.shr d)
  | "SHL" => some (.shl d)
  | "SHRA" => some (.shra d)
  | "SHLA" => some (.shla d)
  | "ROR" => some (.ror d)
  | "ROL" => some (.rol d)
  | "RORC" => some (.rorc d)
  | "ROLC" => some (.rolc d)
  | _ => none

/-- The forms with a register and a constant that is neither a count nor a bit number. -/
def formRK (mnemonic : String) (d : Reg) (k : Int) : Except AsmError (List Instr) :=
  match mnemonic with
  | "ADD" => .ok [.addi d k]
  | "SUB" => .ok [.subi d k]
  | "CMP" => .ok [.cmpi d k]
  | "MOVL" => .ok [.movl d (movlConst k)]
  | "MOVH" => byteInstr mnemonic k (.movh d)
  | "MOV" => .ok (expandMov d k)
  | _ =>
    match formRN mnemonic d with
    | some f => countInstr mnemonic k f
    | none => .error (.unknownForm mnemonic)

/-- The relative transfers, the aliases of R257 among them. -/
def formRel (mnemonic : String) : Option (Int → Instr) :=
  match mnemonic with
  | "JZ" => some .jz
  | "JEQ" => some .jz
  | "JNZ" => some .jnz
  | "JNE" => some .jnz
  | "JN" => some .jn
  | "JNN" => some .jnn
  | "JP" => some .jp
  | "JNP" => some .jnp
  | "JC" => some .jc
  | "JB" => some .jc
  | "JNC" => some .jnc
  | "JAE" => some .jnc
  | "JV" => some .jv
  | "JNV" => some .jnv
  | "JLT" => some .jlt
  | "JLE" => some .jle
  | "JGT" => some .jgt
  | "JGE" => some .jge
  | "JA" => some .ja
  | "JBE" => some .jbe
  | "JMP" => some .jmp
  | "CALL" => some .call
  | "CALLF" => some .callf
  | _ => none

/-- A symbol's value (R283, R287). DESIGN CHOICE (assumption log 35): names are compared exactly, so that upper and lower
case differ in labels and EQU symbols. -/
def lookup (symbols : List (String × Int)) (v : Value) : Except AsmError Int :=
  match v with
  | .num k => .ok k
  | .sym name =>
    match symbols.find? fun p => p.1 == name with
    | some p => .ok p.2
    | none => .error (.undefined name)

/-- A form as an answer: unknown where there is none. -/
def orUnknown (mnemonic : String) : Option Instr → Except AsmError (List Instr)
  | some i => .ok [i]
  | none => .error (.unknownForm mnemonic)

/-- The machine instructions of an assembly form placed at `here` (R122), before the range check. DESIGN CHOICE (assumption
log 37): the table of R122 lists only `[Rs]` for MOVB, MOVBS, MOVP and SWAP, and the spec is silent on an explicit zero
offset (N30); `[Rs+0]`, the literal zero in any base, is accepted there as `[Rs]`, and any other offset is refused, a symbol
whose value is 0 among them. A string, as in `MOV R1, "g"`, is no operand of an instruction and is refused as an unknown form;
R282 does not say whether one may stand as an immediate. -/
def chooseForm (symbols : List (String × Int)) (here : Nat) (mnemonic : String) (ops : List Operand) :
    Except AsmError (List Instr) :=
  match ops with
  | [] => orUnknown mnemonic (formNone mnemonic)
  | [.reg r] => orUnknown mnemonic (formR mnemonic r)
  | [.reg d, .reg s] => orUnknown mnemonic (formRR mnemonic d s)
  | [.val v] => do
    let k ← lookup symbols v
    if mnemonic = "SWE" then byteInstr mnemonic k .swe
    else
      match formRel mnemonic with
      | some f => relInstr mnemonic here k f
      | none => .error (.unknownForm mnemonic)
  | [.reg d, .val v] => do formRK mnemonic d (← lookup symbols v)
  | [.reg d, .based b off] =>
    match mnemonic with
    | "MOV" => do .ok [.ldo d b (← lookup symbols off)]
    | _ =>
      if off = .num 0 then
        match mnemonic with
        | "MOVB" => .ok [.ldb d b]
        | "MOVBS" => .ok [.ldbs d b]
        | "MOVP" => .ok [.ldp d b]
        | "SWAP" => .ok [.swapm d b]
        | _ => .error (.unknownForm mnemonic)
      else .error (.unknownForm mnemonic)
  | [.based b off, .reg s] =>
    match mnemonic with
    | "MOV" => do .ok [.sto s b (← lookup symbols off)]
    | _ =>
      if off = .num 0 then
        match mnemonic with
        | "MOVB" => .ok [.stb b s]
        | "MOVP" => .ok [.stp b s]
        | "SWAP" => .ok [.swapm s b]
        | _ => .error (.unknownForm mnemonic)
      else .error (.unknownForm mnemonic)
  | [.reg d, .indexed b i] => if mnemonic = "MOV" then .ok [.ldr d b i] else .error (.unknownForm mnemonic)
  | [.indexed b i, .reg s] => if mnemonic = "MOV" then .ok [.str s b i] else .error (.unknownForm mnemonic)
  | [.rcn, .reg s] => if mnemonic = "MOV" then .ok [.movar Param.rcnIndex s] else .error (.unknownForm mnemonic)
  | [.reg d, .rcn] => if mnemonic = "MOV" then .ok [.movra d Param.rcnIndex] else .error (.unknownForm mnemonic)
  | [.reg d, .usp] => if mnemonic = "MOV" then .ok [.movru d] else .error (.unknownForm mnemonic)
  | [.usp, .reg s] => if mnemonic = "MOV" then .ok [.movur s] else .error (.unknownForm mnemonic)
  | _ => .error (.unknownForm mnemonic)

/-- The machine instructions of an assembly form, each constant in its range (R122, R292). DESIGN CHOICE (assumption log
37): only MOV reads a constant above 32767 as the pattern of a negative number (R291); `ADD R1, 0FFFFH` is out of range. -/
def assembleForm (symbols : List (String × Int)) (here : Nat) (mnemonic : String) (ops : List Operand) :
    Except AsmError (List Instr) :=
  match chooseForm symbols here mnemonic ops with
  | .ok is => if is.all Instr.wellFormed then .ok is else .error (.outOfRange mnemonic)
  | .error e => .error e

/-! ## The two passes (R284 to R289) -/

/-- A symbol's value as far as it is known: from the lines above, else from the pass before, else 0 (assumption
log 33; the spec leaves a `MOV Rd, k` with a later label open, N30). -/
def guessed (symbols guess : List (String × Int)) (v : Value) : Int :=
  match lookup symbols v with
  | .ok k => k
  | .error _ =>
    match lookup guess v with
    | .ok k => k
    | .error _ => 0

/-- The bytes an instruction form takes: 2, or 4 for a `MOV Rd, k` of two instructions (R285, R290). -/
def formSize (symbols guess : List (String × Int)) (mnemonic : String) (ops : List Operand) : Nat :=
  match mnemonic, ops with
  | "MOV", [.reg d, .val v] => 2 * (expandMov d (guessed symbols guess v)).length
  | _, _ => 2

/-- The bytes of one constant of STRING: a string's characters, or the low 8 bits of a number (R289). DESIGN CHOICE
(assumption log 35): a character that has no ASCII code is refused, as in a character literal. -/
def stringBytes (symbols : List (String × Int)) : Operand → Except AsmError (List Byte)
  | .str cs =>
    if cs.all fun c => decide (c.toNat < 128) then .ok (cs.map fun c => BitVec.ofNat 8 c.toNat)
    else .error .badOperand
  | .val v => do .ok [BitVec.ofInt 8 (← lookup symbols v)]
  | _ => .error .badOperand

/-- The bytes of STRING's constants, one after the other. -/
def stringsBytes (symbols : List (String × Int)) : List Operand → Except AsmError (List Byte)
  | [] => .ok []
  | o :: os => do .ok ((← stringBytes symbols o) ++ (← stringsBytes symbols os))

/-- The counter after TABLE (R289). DESIGN CHOICE (assumption log 35): a negative constant stands for its 16-bit pattern
(R282), and a table that would pass the end of the address space is refused. -/
def tableEnd (here : Nat) (k : Int) : Except AsmError Nat :=
  let next := here + 2 * addressOfValue k
  if next ≤ 65536 then .ok next else .error (.outOfRange "TABLE")

/-- The address counter after an item (R285 to R289). DESIGN CHOICE (assumption log 35): neither PLACE nor the placing of
an instruction checks that the address is even (R286 and N30 leave it open), and the constant of PLACE, TABLE or STRING
is looked up among the symbols of the lines above alone. -/
def nextCounter (symbols guess : List (String × Int)) (here : Nat) : Item → Except AsmError Nat
  | .instr m ops => .ok (here + formSize symbols guess m ops)
  | .place v => do .ok (addressOfValue (← lookup symbols v))
  | .equ _ _ => .ok here
  | .word _ => .ok (here + 2)
  | .string ops => do .ok (here + (← stringsBytes symbols ops).length)
  | .table v => do tableEnd here (← lookup symbols v)

/-- A symbol's definition (R283, R287). DESIGN CHOICE (assumption log 35): a second definition of a name is refused; the
spec does not say what it does. -/
def define (symbols : List (String × Int)) (name : String) (k : Int) : Except AsmError (List (String × Int)) :=
  if symbols.any fun p => p.1 == name then .error (.duplicate name) else .ok (symbols ++ [(name, k)])

/-- The symbols after a line: its label takes the address counter, EQU its constant (R283, R287). DESIGN CHOICE
(assumption log 35): the constant of EQU is looked up among the symbols of the lines above alone. DESIGN CHOICE (assumption
log 37): R283 speaks of a label before an instruction or a data directive; a label before PLACE or EQU, or alone on its
line, takes the counter as it stands there, which is the value before that PLACE. -/
def lineSymbols (symbols : List (String × Int)) (here : Nat) (l : Line) : Except AsmError (List (String × Int)) := do
  let s1 ← match l.label with
    | some name => define symbols name here
    | none => .ok symbols
  match l.item with
  | some (.equ name v) => define s1 name (← lookup s1 v)
  | _ => .ok s1

/-- First pass: the symbols, and each item with its address. -/
def firstPass (guess symbols : List (String × Int)) (here : Nat) :
    List Line → Except AsmError (List (String × Int) × List (Nat × Item))
  | [] => .ok (symbols, [])
  | l :: ls => do
    let s1 ← lineSymbols symbols here l
    match l.item with
    | none => firstPass guess s1 here ls
    | some item =>
      let next ← nextCounter s1 guess here item
      let (s2, placed) ← firstPass guess s1 next ls
      .ok (s2, (here, item) :: placed)

/-- The first pass repeated, at most `fuel` times, until its symbols are those it started from. -/
def settle (lines : List Line) : Nat → List (String × Int) → Except AsmError (List (String × Int) × List (Nat × Item))
  | 0, _ => .error .unsettled
  | fuel + 1, guess => do
    let (symbols, placed) ← firstPass guess [] 0 lines
    if symbols = guess then .ok (symbols, placed) else settle lines fuel symbols

/-- The bytes an item places at its address; TABLE reserves without placing any (R288, R289). -/
def itemBytes (symbols : List (String × Int)) (here : Nat) : Item → Except AsmError (List Byte)
  | .instr m ops => do .ok ((← assembleForm symbols here m ops).flatMap encodeBytes)
  | .word v => do
    let w : Word := BitVec.ofInt 16 (← lookup symbols v)
    .ok [highByte w, lowByte w]
  | .string ops => stringsBytes symbols ops
  | .place _ => .ok []
  | .equ _ _ => .ok []
  | .table _ => .ok []

/-- Bytes put at rising addresses. DESIGN CHOICE (assumption log 37): where blocks that PLACE positions overlap, the bytes of
the later line silently replace those of the earlier one; R286 does not say what the assembler does. -/
def putBytes (m : Memory) (here : Nat) : List Byte → Memory
  | [] => m
  | b :: bs => putBytes (m.setByte here b) (here + 1) bs

/-- Second pass: every item's bytes in memory. DESIGN CHOICE (assumption log 35): an item must end inside the address
space, and an instruction is placed at an odd address as at an even one (R286 and N30 leave it open). DESIGN CHOICE
(assumption log 37): an instruction or WORD may use an EQU symbol that is defined further down. -/
def secondPass (symbols : List (String × Int)) (m : Memory) : List (Nat × Item) → Except AsmError Memory
  | [] => .ok m
  | (here, item) :: rest => do
    let bs ← itemBytes symbols here item
    if here + bs.length ≤ 65536 then secondPass symbols (putBytes m here bs) rest
    else .error .badLine

/-- The memory image of a source text, the counter starting at 0000H (R285). -/
def assemble (text : List (List Char)) : Except AsmError Memory := do
  let lines ← text.mapM lineOf
  let (symbols, placed) ← settle lines 16 []
  secondPass symbols [] placed

end Sys2Proof.Machine.Asm
end

