-- ==== Sys2Proof/Safety.lean ====
section
/-! DEFINITION. The terms in which claims are stated: frames (what an effect leaves unchanged), the invariant that every
step keeps, when an exception can be entered, and the end of a run (spec/70_reset_and_hazards.md R358). -/

namespace Sys2Proof.Machine

/-! ## Frames -/

/-- Every byte stored in memory is as before. -/
def SameMem (s t : State) : Prop := ∀ a : Word, t.readByte a = s.readByte a

/-- Every byte stored outside the word at `ea` is as before. -/
def SameMemOutsideWord (ea : Word) (s t : State) : Prop :=
  ∀ a : Word, a ≠ ea → a ≠ ea + 1#16 → t.readByte a = s.readByte a

/-- Latches, pins, the stuck state, the host's inputs and the address map are unchanged. -/
def SameControl (s t : State) : Prop :=
  t.ip = s.ip ∧ t.intPins = s.intPins ∧ t.restart = s.restart ∧ t.inta = s.inta ∧ t.bgt = s.bgt ∧ t.run = s.run ∧
    t.inputs = s.inputs ∧ t.map = s.map

/-- What is neither a register, pc nor memory is unchanged: `SameControl`, and no peripheral was accessed. -/
def SameHost (s t : State) : Prop := SameControl s t ∧ t.dev = s.dev

/-- Every physical register but the listed ones is unchanged; RCN and both stack pointers are among them. -/
def SameRegsBut (ps : List Phys) (s t : State) : Prop := ∀ p : Phys, p ∉ ps → t.get p = s.get p

/-- Bit n of RE after the flag assignments of R33: a listed flag has its new value, every other bit its old one. -/
def flagBit (u : FlagUpdate) (old : Word) (n : Nat) : Bool :=
  match n with
  | 0 => u.z.getD (old.getLsbD 0)
  | 1 => u.n.getD (old.getLsbD 1)
  | 2 => u.c.getD (old.getLsbD 2)
  | 3 => u.v.getD (old.getLsbD 3)
  | n => old.getLsbD n

/-- RE after the flag assignments of an instruction, bit by bit (R33). -/
def FlagsWritten (u : FlagUpdate) (old new : Word) : Prop := ∀ n : Nat, new.getLsbD n = flagBit u old n

/-- What `commit(d, r, F)` leaves (R33): RE takes exactly r when d is RE; else the register d denotes takes r and the
listed flags their values. No other register, no memory byte and no pin changes. -/
def Committed (d : Reg) (r : Word) (u : FlagUpdate) (s t : State) : Prop :=
  (if d = .re then t.re = r else t.get (Reg.phys s.np d) = r ∧ FlagsWritten u s.re t.re) ∧
    SameRegsBut [Reg.phys s.np d, .re] s t ∧ SameMem s t ∧ SameHost s t

/-- What a transfer to register d leaves (R200): that register takes v and nothing else changes. -/
def Moved (d : Reg) (v : Word) (s t : State) : Prop :=
  t.get (Reg.phys s.np d) = v ∧ SameRegsBut [Reg.phys s.np d] s t ∧ SameMem s t ∧ SameHost s t

/-- What flag assignments without a destination leave (R33). -/
def OnlyFlags (u : FlagUpdate) (s t : State) : Prop :=
  FlagsWritten u s.re t.re ∧ SameRegsBut [.re] s t ∧ SameMem s t ∧ SameHost s t

/-- What a write of byte v leaves stored at a: v in read-write storage, what was there before elsewhere (R82). -/
def byteAfterWrite (s : State) (a : Word) (v : Byte) : Option Byte := if s.kindAt a = .ram then some v else s.readByte a

/-- What a word write of v at `ea` leaves (R72, R77): the high byte at `ea` and the low byte after it, in read-write
storage; no other byte changed; the access shown to the host where a device stands (R83). -/
def StoredWord (ea v : Word) (s t : State) : Prop :=
  t.readByte ea = byteAfterWrite s ea (highByte v) ∧ t.readByte (ea + 1#16) = byteAfterWrite s (ea + 1#16) (lowByte v) ∧
    SameMemOutsideWord ea s t ∧
    t.dev = if s.kindAt ea = .peripheral ∨ s.kindAt (ea + 1#16) = .peripheral
      then { s.dev with accesses := s.dev.accesses ++ [.writeWord ea v] } else s.dev

/-- A word read at `ea` is aligned, answers v and concerns no peripheral. -/
def WordReadable (s : State) (ea v : Word) : Prop := s.readWord ea = .value v s.dev

/-- A byte is stored at the address, or could be: plain storage or ROM. -/
def Stored (s : State) (a : Word) : Prop := s.kindAt a = .ram ∨ ∃ b : Bool, s.kindAt a = .rom b

/-- The map does not stop a write to the address. -/
def Writable (s : State) (a : Word) : Prop := s.kindAt a ≠ .rom true ∧ s.kindAt a ≠ .empty none

/-- A word write at `ea` is aligned and the map stops it at neither byte. -/
def WordWritable (s : State) (ea : Word) : Prop := isOdd ea = false ∧ Writable s ea ∧ Writable s (ea + 1#16)

/-- Both bytes of the word at `ea` are read-write storage. -/
def RamWord (s : State) (ea : Word) : Prop := s.kindAt ea = .ram ∧ s.kindAt (ea + 1#16) = .ram

/-! ## Flags by their definitions (R31, R32) -/

/-- An exact value fits 16 bits in two's complement. -/
abbrev fitsWord (p : Int) : Prop := -32768 ≤ p ∧ p ≤ 32767

/-- A carry as a word. -/
def carryWord (c : Bool) : Word := if c then 1#16 else 0#16

/-- Z and N of a result, C and V as given (`none`: not listed). -/
def resultFlags (r : Word) (c v : Option Bool) : FlagUpdate where
  z := some (decide (r = 0#16))
  n := some (r.getLsbD 15)
  c := c
  v := v

/-- The flags of x + y + c: C is the carry out of bit 15, V says that the exact signed sum does not fit. -/
def sumFlags (x y : Word) (c : Bool) : FlagUpdate :=
  resultFlags (x + y + carryWord c) (some (decide (65536 ≤ x.toNat + y.toNat + c.toNat)))
    (some (decide (¬fitsWord (x.toInt + y.toInt + c.toNat))))

/-- The flags of x - y - c: C is the borrow, V says that the exact signed difference does not fit. -/
def diffFlags (x y : Word) (c : Bool) : FlagUpdate :=
  resultFlags (x - y - carryWord c) (some (decide (x.toNat < y.toNat + c.toNat)))
    (some (decide (¬fitsWord (x.toInt - y.toInt - c.toNat))))

/-- The carry of a shift by n: the last bit that left, bit `k` of the operand, or the old carry when n = 0 (R180). -/
def lastBitOut (v : Word) (n : Fin 16) (k : Nat) (c : Bool) : Option Bool :=
  some (if n = 0 then c else v.getLsbD k)

/-- What MUL leaves (R149, R157): the low half of the product in `d` unless `d` is also the second register, whose value
is free; Z, N and V of the product, C free; no other register, no memory byte and no pin changes. -/
def MulEffect (d r : Reg) (s t : State) : Prop :=
  (d ≠ r → if d = .re then t.re = s.x d * s.x r else t.get (Reg.phys s.np d) = s.x d * s.x r) ∧
    (d ≠ .re → r ≠ .re → ∃ c : Bool, FlagsWritten (resultFlags (s.x d * s.x r) (some c)
      (some (decide (¬fitsWord ((s.x d).toInt * (s.x r).toInt))))) s.re t.re) ∧
    SameRegsBut [Reg.phys s.np d, Reg.phys (if d = .re then (s.x d * s.x r).getLsbD 14 else s.np) r, .re] s t ∧
    SameMem s t ∧ SameHost s t

/-! ## Which registers and memory an instruction may change -/

/-- The register an instruction names as its destination, when it has one. -/
def destination : Instr → Option Reg
  | .add d _ | .addi d _ | .addc d _ | .sub d _ | .subi d _ | .subb d _ => some d
  | .mul d _ | .div d _ | .mod d _ | .neg d | .shra d _ | .shla d _ => some d
  | .and d _ | .or d _ | .not d | .xor d _ | .setbit d _ | .clrbit d _ | .cplbit d _ => some d
  | .shr d _ | .shl d _ | .ror d _ | .rol d _ | .rorc d _ | .rolc d _ => some d
  | .ldo d _ _ | .ldr d _ _ | .ldb d _ | .ldbs d _ | .ldp d _ => some d
  | .movl d _ | .movh d _ | .movrr d _ | .movra d _ | .movru d => some d
  | .swapr d _ | .swapm d _ | .pop d => some d
  | .cmp _ _ | .cmpi _ _ | .test _ _ | .bit _ _ => none
  | .sto _ _ _ | .str _ _ _ | .stb _ _ | .stp _ _ | .movar _ _ | .movur _ | .push _ => none
  | .jz _ | .jnz _ | .jn _ | .jnn _ | .jp _ | .jnp _ | .jc _ | .jnc _ => none
  | .jv _ | .jnv _ | .jlt _ | .jle _ | .jgt _ | .jge _ | .ja _ | .jbe _ => none
  | .jmp _ | .jmpr _ | .call _ | .cr _ | .callf _ | .crf _ | .ret | .retf | .swe _ | .rfe | .nop => none

/-- The flags an instruction lists (R40): the bits of RE it may write when RE is not its destination. -/
def listedFlags : Instr → List Nat
  | .add _ _ | .addi _ _ | .addc _ _ | .sub _ _ | .subi _ _ | .subb _ _ | .cmp _ _ | .cmpi _ _ => [bitZ, bitN, bitC, bitV]
  | .mul _ _ | .div _ _ | .mod _ _ | .neg _ | .shla _ _ => [bitZ, bitN, bitC, bitV]
  | .shra _ _ | .shr _ _ | .shl _ _ | .ror _ _ | .rol _ _ | .rorc _ _ | .rolc _ _ => [bitZ, bitN, bitC]
  | .and _ _ | .or _ _ | .not _ | .xor _ _ | .test _ _ | .setbit _ _ | .clrbit _ _ | .cplbit _ _ => [bitZ, bitN]
  | .bit _ _ => [bitZ]
  | .ldo _ _ _ | .ldr _ _ _ | .sto _ _ _ | .str _ _ _ | .ldb _ _ | .stb _ _ | .ldbs _ _ | .ldp _ _ | .stp _ _ => []
  | .movl _ _ | .movh _ _ | .movrr _ _ | .movar _ _ | .movra _ _ | .movru _ | .movur _ => []
  | .swapr _ _ | .swapm _ _ | .push _ | .pop _ => []
  | .jz _ | .jnz _ | .jn _ | .jnn _ | .jp _ | .jnp _ | .jc _ | .jnc _ => []
  | .jv _ | .jnv _ | .jlt _ | .jle _ | .jgt _ | .jge _ | .ja _ | .jbe _ => []
  | .jmp _ | .jmpr _ | .call _ | .cr _ | .callf _ | .crf _ | .ret | .retf | .swe _ | .rfe | .nop => []

/-- The instructions that store to memory by themselves (R80); any other form stores nothing unless it enters an
exception. -/
def stores : Instr → Bool
  | .sto _ _ _ | .str _ _ _ | .stb _ _ | .stp _ _ | .swapm _ _ | .push _ | .call _ | .cr _ | .swe _ => true
  | .add _ _ | .addi _ _ | .addc _ _ | .sub _ _ | .subi _ _ | .subb _ _ | .cmp _ _ | .cmpi _ _ => false
  | .mul _ _ | .div _ _ | .mod _ _ | .neg _ | .shra _ _ | .shla _ _ => false
  | .and _ _ | .or _ _ | .not _ | .xor _ _ | .test _ _ | .bit _ _ | .setbit _ _ | .clrbit _ _ | .cplbit _ _ => false
  | .shr _ _ | .shl _ _ | .ror _ _ | .rol _ _ | .rorc _ _ | .rolc _ _ => false
  | .ldo _ _ _ | .ldr _ _ _ | .ldb _ _ | .ldbs _ _ | .ldp _ _ | .movl _ _ | .movh _ _ | .movrr _ _ => false
  | .movar _ _ | .movra _ _ | .movru _ | .movur _ | .swapr _ _ | .pop _ => false
  | .jz _ | .jnz _ | .jn _ | .jnn _ | .jp _ | .jnp _ | .jc _ | .jnc _ => false
  | .jv _ | .jnv _ | .jlt _ | .jle _ | .jgt _ | .jge _ | .ja _ | .jbe _ => false
  | .jmp _ | .jmpr _ | .callf _ | .crf _ | .ret | .retf | .rfe | .nop => false

/-- The instruction reaches a state with P and then enters an exception with index `k`, saving the address of the next
instruction (R156, R308, R310). -/
def EntersAfter (k : Byte) (P : State → Prop) (i : Instr) (s : State) : Prop :=
  ∃ m : State, P m ∧ m.pc = s.pc ∧ exec i s = enter k s.eis m

/-- The registers besides its destination that an instruction writes by number: the second register of MUL and SWAPR. -/
def secondRegister : Instr → Option Reg
  | .mul _ r => some r
  | .swapr _ r => some r
  | .add _ _ | .addi _ _ | .addc _ _ | .sub _ _ | .subi _ _ | .subb _ _ | .cmp _ _ | .cmpi _ _ => none
  | .div _ _ | .mod _ _ | .neg _ | .shra _ _ | .shla _ _ => none
  | .and _ _ | .or _ _ | .not _ | .xor _ _ | .test _ _ | .bit _ _ | .setbit _ _ | .clrbit _ _ | .cplbit _ _ => none
  | .shr _ _ | .shl _ _ | .ror _ _ | .rol _ _ | .rorc _ _ | .rolc _ _ => none
  | .ldo _ _ _ | .ldr _ _ _ | .sto _ _ _ | .str _ _ _ | .ldb _ _ | .stb _ _ | .ldbs _ _ | .ldp _ _ | .stp _ _ => none
  | .movl _ _ | .movh _ _ | .movrr _ _ | .movar _ _ | .movra _ _ | .movru _ | .movur _ => none
  | .swapm _ _ | .push _ | .pop _ => none
  | .jz _ | .jnz _ | .jn _ | .jnn _ | .jp _ | .jnp _ | .jc _ | .jnc _ => none
  | .jv _ | .jnv _ | .jlt _ | .jle _ | .jgt _ | .jge _ | .ja _ | .jbe _ => none
  | .jmp _ | .jmpr _ | .call _ | .cr _ | .callf _ | .crf _ | .ret | .retf | .swe _ | .rfe | .nop => none

/-- A physical register that is neither RE nor the instruction's destination or second register, at either level. -/
def untouched (i : Instr) (p : Phys) : Prop :=
  p ≠ .re ∧ ∀ (np : Bool) (d : Reg), destination i = some d ∨ secondRegister i = some d → p ≠ Reg.phys np d

/-- The effect P of an instruction itself, or the entry of EXCESSO, DIV0 or D_DESALINHADO from a state m with P, in which
pc, the registers the instruction does not touch, and all but registers, memory and free values are those of s. -/
def EffectOrEntry (P : State → Prop) (i : Instr) (s t : State) : Prop :=
  P t ∨ ∃ (e : Exc) (m : State), e ∈ [Exc.excesso, Exc.div0, Exc.dDesalinhado] ∧ P m ∧ m.pc = s.pc ∧
    (∀ p : Phys, untouched i p → m.get p = s.get p) ∧ SameMem s m ∧ SameHost s m ∧ takeException e m = .next t

/-- An instruction that writes a stack pointer: it names SP, or it pushes or pops (R25, R226, R227, R260 to R268). -/
def writesSp (i : Instr) : Prop :=
  destination i = some .sp ∨ secondRegister i = some .sp ∨ (∃ r : Reg, i = .push r ∨ i = .pop r ∨ i = .cr r) ∨
    (∃ dif : Int, i = .call dif) ∨ i = .ret ∨ i = .rfe

/-- The last value the DMA master writes to an address, in the order of its accesses. -/
def lastDmaWrite : List DmaAccess → Word → Option Byte
  | [], _ => none
  | .read _ :: l, a => lastDmaWrite l a
  | .write b v :: l, a => (lastDmaWrite l a).or (if a = b then some v else none)

/-! ## The invariant -/

/-- A latch can be set only while its pin is edge sensitive (R45, R316 (3)). -/
def latchesFit (s : State) : Bool :=
  [0, 1, 2, 3].all fun i : Fin 4 => !s.ip.get i || (sensitivity s.rcn i).latched

/-- What every step keeps: memory in its canonical form inside the address space (R70), latches only for edge
sensitive pins (R45). -/
def State.inv (s : State) : Bool := s.mem.wf && latchesFit s

/-! ## Entering an exception -/

/-- The address of the Exception Table word with index k (R301, R310). -/
def vectorAddr (s : State) (k : Byte) : Word := s.bte + 2#16 * k.setWidth 16

/-- An entry with index k goes through: SSP and BTE are even (R319), the frame lies in writable memory (R313) and the
table word has a value. -/
def EntryReady (s : State) (k : Byte) : Prop :=
  isOdd s.ssp = false ∧ isOdd s.bte = false ∧ RamWord s (s.ssp - 2#16) ∧ RamWord s (s.ssp - 4#16) ∧
    ∃ v, WordReadable s (vectorAddr s k) v

/-- What the entry sequence leaves (R310, R312): the old RE and the saved address on the system stack, TEMP the old RE,
RE clear, pc the table word, SSP four lower; no other register, memory byte or pin changes. -/
def Entered (k : Byte) (ret : Word) (s t : State) : Prop :=
  t.temp = s.re ∧ t.re = 0#16 ∧ t.ssp = s.ssp - 4#16 ∧
    WordReadable t (s.ssp - 2#16) ret ∧ WordReadable t (s.ssp - 4#16) s.re ∧ WordReadable t (vectorAddr s k) t.pc ∧
    SameRegsBut [.temp, .re, .ssp] s t ∧
    (∀ a : Word, a ≠ s.ssp - 4#16 → a ≠ s.ssp - 3#16 → a ≠ s.ssp - 2#16 → a ≠ s.ssp - 1#16 →
      t.readByte a = s.readByte a) ∧
    SameHost s t

/-! ## Where an entry stops (R82, R358 (c); assumption log 6 and 7) -/

/-- The map stops a write of the byte at `a`, with this fault. -/
def ByteWriteStops (s : State) (a : Word) (f : Fault) : Prop :=
  (s.kindAt a = .rom true ∧ f = .readOnly) ∨ (s.kindAt a = .empty none ∧ f = .unmapped)

/-- The map stops a word write at `ea`, at its first byte or at its second. -/
def WordWriteStops (s : State) (ea : Word) (f : Fault) : Prop :=
  ByteWriteStops s ea f ∨ (Writable s ea ∧ ByteWriteStops s (ea + 1#16) f)

/-- The byte at `a` is one that the frame of an entry is stored in. -/
def InFrame (s : State) (a : Word) : Prop :=
  s.kindAt a = .ram ∧ a ∈ [s.ssp - 4#16, s.ssp - 3#16, s.ssp - 2#16, s.ssp - 1#16]

/-- The byte at `a` has a value once the frame of an entry is stored. -/
def VectorByteReads (s : State) (a : Word) : Prop := (∃ v p, s.memReadByte a = .value v p) ∨ InFrame s a

/-- The byte at `a` has no value once the frame of an entry is stored, and stops the table read with this fault. -/
def VectorByteStops (s : State) (a : Word) (f : Fault) : Prop :=
  (Stored s a ∧ s.readByte a = none ∧ ¬InFrame s a ∧ f = .unwrittenVector) ∨ (s.kindAt a = .empty none ∧ f = .unmapped)

/-- The table word at `ea` stops the entry, at its first byte or at its second. -/
def VectorStops (s : State) (ea : Word) (f : Fault) : Prop :=
  VectorByteStops s ea f ∨ (VectorByteReads s ea ∧ VectorByteStops s (ea + 1#16) f)

/-! ## The end of a run (R358; assumption log 32) -/

/-- Whether an interrupt could still be accepted: IE and some IEi are set (R358 (a)). -/
def interruptible (s : State) : Bool := s.ie && [0, 1, 2, 3].any s.iei

/-- `END_OF_RUN` (a): the next instruction is a jump to itself. -/
def selfJump (s : State) : Bool :=
  match fetch s with
  | .instr (.jmp dif) _ => relTarget s dif == s.pc
  | .instr (.jmpr r) _ => s.x r == s.pc
  | _ => false

/-- `END_OF_RUN` (R358): (a) the jump to itself is the next instruction and no interrupt can be accepted, the host's action
at the boundary before it being done first; or (c) the stuck state `DoubleFault` is reached, whatever the host does next, or
this step stops. The step budget (b) is the host's.
DESIGN CHOICE (assumption log 32): a RESET at that boundary prevents the end by (a), and after a DMA write there the
instruction then fetched counts; what the host does at later boundaries is not looked at, though it could still change the
state. R358 (c) does not say which state is final when a fault other than DoubleFault ends the run. A fault carries no
state, so the final state is the one before the faulting step: the DMA writes of that boundary and the stores and
peripheral accesses the step had done before it stopped are dropped. -/
def endOfRun (s : State) : Bool :=
  s.run == .doubleFault ||
    match step s with
    | .fault _ => true
    | .refused _ => true
    | .next _ =>
      match boundary s with
      | .proceed t => selfJump t && !interruptible t
      | .reset _ => false
      | .stuck => true
      | .interrupt _ _ => false

end Sys2Proof.Machine
end

