-- ==== Sys2Proof/Certificates/Slice0/Obligations.lean ====
section
/-! DEFINITION. The statements about the model. Each docstring names the rules of spec/ that the statement formalises and,
where it rests on a decision that the spec marks as its own or on a choice of the model, the decision or the entry of the
assumption log. -/

open Sys2Proof Sys2Proof.Machine

/-! ## Encoding -/

/-- R101 to R115, R119: the bytes of every well-formed instruction, whatever follows them, decode to that instruction;
and so does its word under every injective `OpcodeMap` (R104), of which the machine's is one. The machine's numbers are
the spec's default map (D1, log 1). -/
def Obligations.DecodeInvertsEncode : Prop :=
  Param.opcodeMap.injective ∧ ∀ i : Instr, i.wellFormed = true →
    (∀ m : OpcodeMap, m.injective → decodeWith m (encodeWith m i) = .ok i) ∧
    decode (encode i) = .ok i ∧ ∀ rest : List Byte, decodeBytes (encodeBytes i ++ rest) = .ok (i, rest)

/-- R118, R119: under every `OpcodeMap`, what a word decodes to is well-formed, and encodes to that word but for the
ignored bits, which the encoder writes as 0. The machine's map is one of them. -/
def Obligations.EncodeInvertsDecodeUpToIgnoredBits : Prop :=
  ∀ (m : OpcodeMap) (w : Word) (i : Instr), decodeWith m w = .ok i →
    i.wellFormed = true ∧ encodeWith m i = w &&& ~~~ignoredMask i ∧ (m = Param.opcodeMap → encode i = encodeWith m i)

/-- R116: the ignored fields are those the rule lists, a word that differs in them alone is the same instruction, and the
encoder writes 0 in them, as the rule recommends. -/
def Obligations.IgnoredFieldsMayHoldAnyValue : Prop :=
  (∀ (w w' : Word) (i : Instr), decode w = .ok i → w' &&& ~~~ignoredMask i = w &&& ~~~ignoredMask i →
    decode w' = .ok i) ∧
  (∀ d : Reg, ignoredMask (.neg d) = 0x000F#16 ∧ ignoredMask (.not d) = 0x000F#16 ∧
    ignoredMask (.movru d) = 0x000F#16 ∧ ignoredMask (.push d) = 0x000F#16 ∧ ignoredMask (.pop d) = 0x000F#16 ∧
    ignoredMask (.movur d) = 0x00F0#16 ∧ ignoredMask (.jmpr d) = 0x00F0#16 ∧ ignoredMask (.cr d) = 0x00F0#16 ∧
    ignoredMask (.crf d) = 0x00F0#16) ∧
  ignoredMask .ret = 0x00FF#16 ∧ ignoredMask .retf = 0x00FF#16 ∧ ignoredMask .rfe = 0x00FF#16 ∧
  ignoredMask .nop = 0x00FF#16 ∧ ∀ i : Instr, encode i &&& ignoredMask i = 0x0000#16

/-- R117 (decision D21, log 15): a word is no instruction exactly when its high byte is 0C, 0D, 1F, 6E, 6F or at
least D8. -/
def Obligations.InvalidWordsAreTheFreeEncodings : Prop :=
  ∀ w : Word, (∀ i : Instr, decode w ≠ .ok i) ↔
    (highByte w ∈ [0x0C#8, 0x0D#8, 0x1F#8, 0x6E#8, 0x6F#8] ∨ 0xD8 ≤ (highByte w).toNat)

/-- Sanity: words that the examples of spec/ give for each family decode to the instructions they stand for. -/
def Obligations.SampleWordsDecodeAsTheSpecWritesThem : Prop :=
  decode 0x0012#16 = .ok (.add (.r 1) (.r 2)) ∧
  decode 0x0113#16 = .ok (.addi (.r 1) 3) ∧
  decode 0x0411#16 = .ok (.subi (.r 1) 1) ∧
  decode 0x0E11#16 = .ok (.shra (.r 1) 1) ∧
  decode 0x1412#16 = .ok (.test (.r 1) (.r 2)) ∧
  decode 0x16D8#16 = .ok (.setbit .re 8) ∧
  decode 0x1E14#16 = .ok (.rolc (.r 1) 4) ∧
  decode 0x2128#16 = .ok (.ldo (.r 1) (.r 2) (-16)) ∧
  decode 0x4211#16 = .ok (.sto (.r 2) (.r 1) 2) ∧
  decode 0x5213#16 = .ok (.str (.r 2) (.r 1) (.r 3)) ∧
  decode 0x6A12#16 = .ok (.swapr (.r 1) (.r 2)) ∧
  decode 0x7180#16 = .ok (.movl (.r 1) (-128)) ∧
  decode 0x82F3#16 = .ok (.movh (.r 2) 0xF3#8) ∧
  decode 0x91F7#16 = .ok (.jnz (-9)) ∧
  decode 0xAFFF#16 = .ok (.jmp (-1)) ∧
  decode 0xB07F#16 = .ok (.call 0x7F) ∧
  decode 0xD103#16 = .ok (.cr (.r 3)) ∧
  decode 0xD506#16 = .ok (.swe 6#8)

/-! ## Memory -/

/-- R74, R75: a byte that storage holds is read at any address; a word is read high byte first at an even address, where
a + 1 does not wrap, and raises D_DESALINHADO at an odd one. What another range answers, and a byte that nothing has
written, is `AccessesFollowTheAddressMap`. -/
def Obligations.ReadsAreBigEndianAndWordsAligned : Prop :=
  ∀ (s : State) (a : Word),
    (∀ (v : Byte) (k : Byte → State → Result), Stored s a → s.readByte a = some v → loadByte s a k = k v s) ∧
    (isOdd a = true → ∀ k : Word → State → Result, loadWord s a k = takeException .dDesalinhado s) ∧
    (isOdd a = false → (a + 1#16).toNat = a.toNat + 1 ∧
      ∀ (hi lo : Byte) (k : Word → State → Result), Stored s a → Stored s (a + 1#16) → s.readByte a = some hi →
        s.readByte (a + 1#16) = some lo → loadWord s a k = k (hi ++ lo) s)

/-- R76, R77: a byte write to read-write storage stores its byte at any address; a word write at an even address of it
stores the high byte there and the low byte after it, and is read back; at an odd address nothing is written and
D_DESALINHADO is raised. No other byte, no register, not pc, no latch, pin or peripheral changes. What a write to another
range does is `AccessesFollowTheAddressMap`. -/
def Obligations.WritesAreBigEndianAndWordsAligned : Prop :=
  ∀ (s : State) (a : Word),
    (∀ v : Byte, s.kindAt a = .ram → ∃ t : State, (∀ k : State → Result, storeByte s a v k = k t) ∧
      t.readByte a = some v ∧ (∀ c : Word, c ≠ a → t.readByte c = s.readByte c) ∧ SameRegsBut [] s t ∧ t.pc = s.pc ∧
      SameHost s t) ∧
    (isOdd a = true → ∀ (v : Word) (k : State → Result), storeWord s a v k = takeException .dDesalinhado s) ∧
    (isOdd a = false → ∀ v : Word, RamWord s a → ∃ t : State, (∀ k : State → Result, storeWord s a v k = k t) ∧
      t.readByte a = some (v.extractLsb' 8 8) ∧ t.readByte (a + 1#16) = some (v.extractLsb' 0 8) ∧
      SameMemOutsideWord a s t ∧ WordReadable t a v ∧ SameRegsBut [] s t ∧ t.pc = s.pc ∧ SameHost s t)

/-- R82, R83, R358 (c): data accesses outside read-write storage, and at a byte that nothing has written. The spec leaves
them to the platform (D32) or to the model, and what each clause says of them is the model's choice: of a peripheral the
host gives the bytes read, a free one where it gave none, and is shown each access (log 36); the map says whether a write
to a ROM is discarded or stops, and whether an empty range answers a fixed byte and discards writes, or stops (log 7); a
byte of storage that nothing has written stops a read (log 6). A word access stops at either byte, and then nothing is
written (log 7). -/
def Obligations.AccessesFollowTheAddressMap : Prop :=
  ∀ (s : State) (a : Word),
    (∀ (v : Byte) (l : List Byte) (k : Byte → State → Result), s.kindAt a = .peripheral → s.dev.answers = v :: l →
      loadByte s a k =
        k v (s.withDev { s.dev with answers := l, accesses := s.dev.accesses ++ [.readByte a v] })) ∧
    (s.kindAt a = .peripheral → s.dev.answers = [] → ∃ v : Byte, ∀ k : Byte → State → Result,
      loadByte s a k = k v (s.withDev
        { s.dev with unanswered := s.dev.unanswered + 1, accesses := s.dev.accesses ++ [.readByte a v] })) ∧
    (isOdd a = false → ∀ (hi lo : Byte) (l : List Byte) (k : Word → State → Result),
      (s.kindAt a = .peripheral ∧ s.kindAt (a + 1#16) = .peripheral ∧ s.dev.answers = hi :: lo :: l ∨
        s.kindAt a = .peripheral ∧ Stored s (a + 1#16) ∧ s.readByte (a + 1#16) = some lo ∧ s.dev.answers = hi :: l ∨
        Stored s a ∧ s.readByte a = some hi ∧ s.kindAt (a + 1#16) = .peripheral ∧ s.dev.answers = lo :: l) →
      loadWord s a k =
        k (hi ++ lo) (s.withDev { s.dev with answers := l, accesses := s.dev.accesses ++ [.readWord a (hi ++ lo)] })) ∧
    (∀ (v : Byte) (k : Byte → State → Result), s.kindAt a = .empty (some v) → loadByte s a k = k v s) ∧
    (isOdd a = false → ∀ (hi lo : Byte) (k : Word → State → Result), s.kindAt a = .empty (some hi) →
      s.kindAt (a + 1#16) = .empty (some lo) → loadWord s a k = k (hi ++ lo) s) ∧
    (Stored s a → s.readByte a = none → (∀ k : Byte → State → Result, loadByte s a k = .fault .unwrittenData) ∧
      (isOdd a = false → ∀ k : Word → State → Result, loadWord s a k = .fault .unwrittenData)) ∧
    (s.kindAt a = .empty none → (∀ k : Byte → State → Result, loadByte s a k = .fault .unmapped) ∧
      (isOdd a = false → ∀ k : Word → State → Result, loadWord s a k = .fault .unmapped)) ∧
    (isOdd a = false → ∀ (v : Byte) (p : Device), s.memReadByte a = .value v p → ∀ k : Word → State → Result,
      (Stored s (a + 1#16) → s.readByte (a + 1#16) = none → loadWord s a k = .fault .unwrittenData) ∧
      (s.kindAt (a + 1#16) = .empty none → loadWord s a k = .fault .unmapped)) ∧
    (∀ v : Byte, s.kindAt a ≠ .ram → Writable s a → ∃ t : State, (∀ k : State → Result, storeByte s a v k = k t) ∧
      SameMem s t ∧ SameRegsBut [] s t ∧ t.pc = s.pc ∧ SameControl s t ∧
      t.dev = if s.kindAt a = .peripheral
        then { s.dev with accesses := s.dev.accesses ++ [.writeByte a v] } else s.dev) ∧
    (∀ v : Word, WordWritable s a → ∃ t : State, (∀ k : State → Result, storeWord s a v k = k t) ∧ StoredWord a v s t ∧
      SameRegsBut [] s t ∧ t.pc = s.pc ∧ SameControl s t) ∧
    (s.kindAt a = .rom true → (∀ (v : Byte) (k : State → Result), storeByte s a v k = .fault .readOnly) ∧
      (isOdd a = false → ∀ (v : Word) (k : State → Result), storeWord s a v k = .fault .readOnly)) ∧
    (s.kindAt a = .empty none → (∀ (v : Byte) (k : State → Result), storeByte s a v k = .fault .unmapped) ∧
      (isOdd a = false → ∀ (v : Word) (k : State → Result), storeWord s a v k = .fault .unmapped)) ∧
    (isOdd a = false → Writable s a → ∀ (v : Word) (k : State → Result),
      (s.kindAt (a + 1#16) = .rom true → storeWord s a v k = .fault .readOnly) ∧
      (s.kindAt (a + 1#16) = .empty none → storeWord s a v k = .fault .unmapped))

/-! ## The step -/

/-- R78, R119, R357: when the boundary before a fetch lets it proceed and the word read at pc decodes to an instruction,
the step is that instruction's meaning, in the state the fetch leaves: a word of storage is read without a trace, one of a
peripheral as R83 says. No instruction is refused at user level (R322, the default of `PRIV_CHECK`; decision D29, log
21). -/
def Obligations.StepRunsTheDecodedInstruction : Prop :=
  ∀ (s t : State) (i : Instr), boundary s = .proceed t →
    (∀ (w : Word) (p : Device), t.readWord t.pc = .value w p → decode w = .ok i → step s = exec i (t.withDev p)) ∧
    (∀ hi lo : Byte, isOdd t.pc = false → Stored t t.pc → Stored t (t.pc + 1#16) → t.readByte t.pc = some hi →
      t.readByte (t.pc + 1#16) = some lo → decode (hi ++ lo) = .ok i → step s = exec i t)

/-- R315, R316, R84, R46: the boundary before a fetch of a running machine, RESET not asserted. With no host action left, no
interrupt enabled and no RCN change pending, it changes nothing that a program can see. In every case it samples the pins,
sets the latches as `LatchesFollowTheSelectedEdge` says, lets the DMA master write while BRQ is asserted and DE = 1, and
changes no register; then interrupt i is taken exactly when it is the one accepted in that state, and the fetch proceeds
exactly when none is, as always while IE = 0 (`LowestEnabledRequestIsAccepted` says which is accepted; decision D26, log
17). That INTA is back at 1 and BGT at 0 by the next boundary, that the host's actions are a list of which each boundary
takes the first, and that with none left the pins keep their levels and the bus is not requested, are the model's choices
(log 22, 23, 30); so is that a new list of peripheral accesses begins (log 36). -/
def Obligations.BoundaryServesTheHostAndSamplesThePins : Prop :=
  (∀ s : State, s.inputs = [] → s.run = .running → s.ie = false → s.restart = Lines.all false →
    latchesFit s = true →
      boundary s = .proceed { s with inta := true, bgt := false, dev := { s.dev with accesses := [] } }) ∧
  (∀ (s : State) (h : HostInput) (l : List HostInput),
    s.inputs = h :: l ∨ (s.inputs = [] ∧ l = [] ∧ h = { reset := false, pins := s.intPins, brq := false, dma := [] }) →
    h.reset = false → s.run = .running →
    (boundary s = .proceed s.atBoundary ↔ s.atBoundary.accepted = none) ∧
    (∀ i : Fin 4, boundary s = .interrupt i s.atBoundary ↔ s.atBoundary.accepted = some i) ∧
    (s.re.getLsbD 8 = false → boundary s = .proceed s.atBoundary) ∧
    s.atBoundary.inputs = l ∧ s.atBoundary.intPins = h.pins ∧ s.atBoundary.ip = (s.samplePins h.pins).ip ∧
    s.atBoundary.restart = Lines.all false ∧ s.atBoundary.inta = true ∧
    s.atBoundary.bgt = (h.brq && s.re.getLsbD 13) ∧ s.atBoundary.run = .running ∧ s.atBoundary.map = s.map ∧
    s.atBoundary.dev = { s.dev with accesses := [] } ∧ s.atBoundary.pc = s.pc ∧ SameRegsBut [] s s.atBoundary ∧
    ∀ a : Word, s.atBoundary.readByte a =
      if h.brq = true ∧ s.re.getLsbD 13 = true ∧ s.kindAt a = .ram then (lastDmaWrite h.dma a).or (s.readByte a)
      else s.readByte a)

/-- R79, R309, R117, R307: a fetch at an odd pc enters I_DESALINHADO with the odd pc saved, and a free encoding enters
COD_INV with the next address saved; nothing else is changed before the entry. The saved addresses are decision D23,
the entry is decision D22, the free encodings decision D21 (log 15, 16). -/
def Obligations.FetchExceptionsEnterTheirHandlers : Prop :=
  ∀ s t : State, boundary s = .proceed t →
    (isOdd t.pc = true → EntryReady t 9#8 → ∃ u : State, step s = .next u ∧ Entered 9#8 t.pc t u) ∧
    (∀ (w : Word) (p : Device), t.readWord t.pc = .value w p → (∀ i : Instr, decode w ≠ .ok i) →
      EntryReady (t.withDev p) 7#8 → ∃ u : State, step s = .next u ∧ Entered 7#8 t.eis (t.withDev p) u)

/-- R70, R45, R316 (3): the invariant (memory in its canonical form inside the address space, a request latched only on
an edge sensitive pin) holds after reset. The canonical form is the model's own (log 6). -/
def Obligations.ResetMeetsTheInvariant : Prop := State.reset.inv = true

/-- R70, R45, R316 (3): every step, from every state with the invariant, keeps it. -/
def Obligations.EveryStepKeepsTheInvariant : Prop :=
  ∀ s t : State, s.inv = true → step s = .next t → t.inv = true

/-- R52: what reset leaves in RE, RCN and the request latches (their zero bits where doc00 names none: decisions D9, D26)
and in pc, the default of RESET_PC (decision D5, log 4). That the machine is running after reset is DEDUCED (log 20), and
that no byte of memory is listed is the model's choice (log 6, 28): R52 says only that reset leaves memory alone. -/
def Obligations.ResetClearsStatusAndConfiguration : Prop :=
  State.reset.re = 0x0000#16 ∧ State.reset.rcn = 0x0000#16 ∧ State.reset.ip = Lines.all false ∧
    State.reset.pc = 0x0000#16 ∧ State.reset.run = .running ∧ ∀ a : Word, State.reset.readByte a = none

/-- R350, R52: while RESET is asserted a step is the reset operation: RE, RCN and the latches 0, pc at RESET_PC, memory and
map unchanged, nothing pushed (decisions D5, D9, D26). That the machine runs after it, also out of the stuck state, is
DEDUCED (log 20). That the reset alone is done at that boundary, BRQ not served and the DMA accesses listed for it dropped,
so that BGT is 0 and memory unchanged, is the model's choice (log 27), and so is that the pins of that boundary become the
reference of the edge detectors, none of which is left to restart (log 18, 27). -/
def Obligations.ResetPinAppliesTheResetOperation : Prop :=
  ∀ (s : State) (h : HostInput) (l : List HostInput), s.inputs = h :: l → h.reset = true →
    ∃ t : State, step s = .next t ∧ t.re = 0x0000#16 ∧ t.rcn = 0x0000#16 ∧ t.ip = Lines.all false ∧
      t.pc = 0x0000#16 ∧ t.run = .running ∧ SameMem s t ∧ t.map = s.map ∧ t.inputs = l ∧ t.bgt = false ∧
      t.restart = Lines.all false ∧ t.intPins = h.pins

/-! ## Exceptions -/

/-- R310, R312, R313 (decision D22, log 16): an entry that can go through stores the saved address and the old RE on the
system stack, leaves the old RE in TEMP and 0 in RE, loads pc from the table and lowers SSP by 4; nothing else changes.
It also goes through wherever the map lets both frame words be written and both bytes of the table word then have a value:
a word of the frame that is the table word is the one loaded. An entry with an even SSP stops the run at either byte of
either frame word that the map does not let it write, and, the frame written and BTE even, at either byte of a table word
that nothing is mapped at, or that neither this frame nor anything before has written. What is stored outside read-write
storage, and these stops, are the model's choices (R82, R313, R358 (c); log 6, 7, 36). -/
def Obligations.EntrySavesTheFrameAndLoadsTheHandler : Prop :=
  ∀ (k : Byte) (ret : Word) (s : State),
    (EntryReady s k → ∃ t : State, enter k ret s = .next t ∧ Entered k ret s t) ∧
    (WordWritable s (s.ssp - 2#16) → WordWritable s (s.ssp - 4#16) → isOdd s.bte = false →
      VectorByteReads s (vectorAddr s k) → VectorByteReads s (vectorAddr s k + 1#16) →
        ∃ t : State, enter k ret s = .next t ∧ t.temp = s.re ∧ t.re = 0#16 ∧ t.ssp = s.ssp - 4#16 ∧
          SameRegsBut [.temp, .re, .ssp] s t ∧ SameControl s t ∧
          (∀ a : Word, ¬InFrame s a → t.readByte a = s.readByte a) ∧
          (vectorAddr s k = s.ssp - 2#16 → RamWord s (s.ssp - 2#16) → t.pc = ret) ∧
          (vectorAddr s k = s.ssp - 4#16 → RamWord s (s.ssp - 4#16) → t.pc = s.re)) ∧
    (∀ f : Fault,
      (isOdd s.ssp = false → WordWriteStops s (s.ssp - 2#16) f → enter k ret s = .fault f) ∧
      (WordWritable s (s.ssp - 2#16) → WordWriteStops s (s.ssp - 4#16) f → enter k ret s = .fault f) ∧
      (WordWritable s (s.ssp - 2#16) → WordWritable s (s.ssp - 4#16) → isOdd s.bte = false →
        VectorStops s (vectorAddr s k) f → enter k ret s = .fault f))

/-- R302, R311 (decision D23, log 16): the table index and the saved address of each exception. -/
def Obligations.EachExceptionHasItsIndexAndSavedAddress : Prop :=
  ∀ s : State,
    (∀ i : Fin 4, takeException (.int i) s = enter (BitVec.ofNat 8 i.val) s.pc s) ∧
    takeException .excesso s = enter 4#8 (s.pc + 2#16) s ∧
    takeException .div0 s = enter 5#8 (s.pc + 2#16) s ∧
    takeException .software s = enter 6#8 (s.pc + 2#16) s ∧
    takeException .codInv s = enter 7#8 (s.pc + 2#16) s ∧
    takeException .dDesalinhado s = enter 8#8 (s.pc + 2#16) s ∧
    takeException .iDesalinhado s = enter 9#8 s.pc s

/-- R319 (decisions D28, D34, log 20): with an odd SSP no store happens, with an odd BTE both stores have; TEMP is the
old RE and RE is 0; and in the stuck state no step runs an instruction while RESET is not asserted. -/
def Obligations.OddStackOrTableIsADoubleFault : Prop :=
  ∀ (k : Byte) (ret : Word) (s : State),
    (isOdd s.ssp = true → ∃ t : State, enter k ret s = .next t ∧ t.run = .doubleFault ∧ t.temp = s.re ∧
      t.re = 0x0000#16 ∧ t.pc = s.pc ∧ SameRegsBut [.temp, .re] s t ∧ SameMem s t) ∧
    (isOdd s.ssp = false → isOdd s.bte = true → RamWord s (s.ssp - 2#16) → RamWord s (s.ssp - 4#16) →
      ∃ t : State, enter k ret s = .next t ∧ t.run = .doubleFault ∧
        t.temp = s.re ∧ t.re = 0x0000#16 ∧ t.pc = s.pc ∧ SameRegsBut [.temp, .re] s t ∧
        WordReadable t (s.ssp - 2#16) ret ∧ WordReadable t (s.ssp - 4#16) s.re ∧
        ∀ a : Word, a ≠ s.ssp - 4#16 → a ≠ s.ssp - 3#16 → a ≠ s.ssp - 2#16 → a ≠ s.ssp - 1#16 →
          t.readByte a = s.readByte a) ∧
    (s.run = .doubleFault → s.hostInput.reset = false → step s = .fault .doubleFault)

/-- R267: SWE k enters entry k of the table with the next address saved; with an odd SSP or BTE it is the double fault. -/
def Obligations.SweEntersTheHandlerOfItsOperand : Prop :=
  ∀ (k : Byte) (s : State),
    (EntryReady s k → ∃ t : State, exec (.swe k) s = .next t ∧ Entered k (s.pc + 2#16) s t) ∧
    (isOdd s.ssp = true ∨ (isOdd s.bte = true ∧ RamWord s (s.ssp - 2#16) ∧ RamWord s (s.ssp - 4#16)) →
      ∃ t : State, exec (.swe k) s = .next t ∧ t.run = .doubleFault ∧ t.temp = s.re ∧ t.re = 0x0000#16)

/-- R268: RFE takes RE and pc from the stack of the level it runs at, raises that stack pointer by 4 and leaves the
restored RE in TEMP; nothing else changes. With an odd SP it enters D_DESALINHADO with nothing changed (decision D23, log
16). What it reads outside storage is the model's choice (log 7, 36). -/
def Obligations.RfeRestoresStatusAndPc : Prop :=
  ∀ s : State,
    (∀ (w1 w2 : Word) (p q : Device), s.readWord (s.x .sp) = .value w1 p →
      (s.withDev p).readWord (s.x .sp + 2#16) = .value w2 q →
        ∃ t : State, exec .rfe s = .next t ∧ t.re = w1 ∧ t.pc = w2 ∧ t.temp = w1 ∧
          t.get (Reg.phys s.np .sp) = s.x .sp + 4#16 ∧ SameRegsBut [.temp, .re, Reg.phys s.np .sp] s t ∧
          SameMem s t ∧ SameHost (s.withDev q) t) ∧
    (isOdd (s.x .sp) = true → exec .rfe s = enter 8#8 (s.pc + 2#16) s)

/-- R268, R318: "RFE is the exact inverse of SWE and of the hardware exception entry": after an entry, RFE gives back
RE, the saved address in pc and every register but TEMP. -/
def Obligations.RfeUndoesAnEntry : Prop :=
  ∀ (k : Byte) (ret : Word) (s : State), EntryReady s k →
    ∃ t u : State, enter k ret s = .next t ∧ exec .rfe t = .next u ∧ u.re = s.re ∧ u.pc = ret ∧
      SameRegsBut [.temp] s u ∧ SameHost s u

/-- R303, R315, R317: at a boundary the interrupt accepted is the one of the lowest number whose enable bit is set and
whose pin requests, and none is accepted while IE = 0 (decision D26, log 17). -/
def Obligations.LowestEnabledRequestIsAccepted : Prop :=
  ∀ (s : State) (i : Fin 4), s.accepted = some i ↔
    (s.re.getLsbD 8 = true ∧ s.re.getLsbD (9 + i.val) = true ∧ s.requests i = true ∧
      ∀ j : Fin 4, j < i → ¬(s.re.getLsbD (9 + j.val) = true ∧ s.requests j = true))

/-- R315, R310, R47, R43: an accepted interrupt clears its latch if its pin is edge sensitive (bit 2i+1 of RCN is 0),
drives INTA to 0 exactly for INT3, and enters its handler with the pc of the next instruction saved; all else is as the
boundary left it (decisions D22, D23, D26; log 16, 17, 23). -/
def Obligations.AcceptedInterruptEntersItsHandler : Prop :=
  ∀ (s b : State) (i : Fin 4), s.hostInput.reset = false → s.run = .running → b = s.atBoundary →
    b.accepted = some i → EntryReady b (BitVec.ofNat 8 i.val) →
      ∃ m t : State, step s = .next t ∧ Entered (BitVec.ofNat 8 i.val) b.pc m t ∧
        m.inta = decide (i ≠ 3) ∧ SameRegsBut [] b m ∧ SameMem b m ∧ m.pc = b.pc ∧ m.intPins = b.intPins ∧
        m.restart = b.restart ∧ m.bgt = b.bgt ∧ m.run = .running ∧ m.inputs = b.inputs ∧ m.map = b.map ∧
        m.dev = b.dev ∧
        ∀ j : Fin 4, m.ip.get j = (if j = i ∧ b.rcn.getLsbD (2 * i.val + 1) = false then false else b.ip.get j)

/-- R43, R45, R315, R316: after a sample, a latch is set by the edge its NSI code selects and kept until then; it is 0 for
a level code and for a detector that starts afresh; and what requests for each code. The code of pin i is bits 2i+1 (h)
and 2i (l) of RCN, h the more significant (R43; decision D26, log 17, 18). -/
def Obligations.LatchesFollowTheSelectedEdge : Prop :=
  ∀ (s : State) (new : Lines) (i : Fin 4) (h l : Bool), h = s.rcn.getLsbD (2 * i.val + 1) →
    l = s.rcn.getLsbD (2 * i.val) →
    (s.samplePins new).intPins = new ∧ (s.samplePins new).restart = Lines.all false ∧
    (s.samplePins new).ip.get i =
      (if s.restart.get i = true then false
       else if h = false ∧ l = false then s.ip.get i || (!s.intPins.get i && new.get i)
       else if h = false ∧ l = true then s.ip.get i || (s.intPins.get i && !new.get i)
       else false) ∧
    s.requests i =
      (if h = true ∧ l = false then s.intPins.get i
       else if h = true ∧ l = true then !s.intPins.get i
       else s.ip.get i)

/-- R219, R316 (4), R43: MOVAR to RCN (number 0: decision D8, log 8) stores all 16 bits and, for each pin whose NSI field
(bits 2i+1 and 2i) changed and for no other, clears the latch and starts the edge detector afresh (log 18); to another
auxiliary register it changes nothing but pc. -/
def Obligations.MovarWritesRcnAndRestartsDetectors : Prop :=
  ∀ (a : Fin 16) (r : Reg) (s : State),
    ∃ t : State, exec (.movar a r) s = .next t ∧ t.pc = s.pc + 2#16 ∧ SameMem s t ∧ t.intPins = s.intPins ∧
      t.inta = s.inta ∧ t.bgt = s.bgt ∧ t.run = s.run ∧ t.inputs = s.inputs ∧ t.map = s.map ∧ t.dev = s.dev ∧
      (a = 0 → t.rcn = s.x r ∧ SameRegsBut [.rcn] s t ∧ ∀ (i : Fin 4) (same : Bool),
        same = decide ((s.x r).getLsbD (2 * i.val + 1) = s.rcn.getLsbD (2 * i.val + 1) ∧
          (s.x r).getLsbD (2 * i.val) = s.rcn.getLsbD (2 * i.val)) →
        t.ip.get i = (same && s.ip.get i) ∧ t.restart.get i = (!same || s.restart.get i)) ∧
      (a ≠ 0 → SameRegsBut [] s t ∧ t.ip = s.ip ∧ t.restart = s.restart)

/-- R84, R37, R324: the bus is granted at a boundary exactly while BRQ is asserted and DE = 1; only then do the master's
writes reach memory, in their order; no register changes (decision D30, log 22). That they reach read-write storage alone
is the model's choice (log 22). -/
def Obligations.DmaNeedsItsEnableBit : Prop :=
  ∀ (s : State) (brq : Bool) (l : List DmaAccess),
    (s.dmaBoundary brq l).bgt = (brq && s.re.getLsbD 13) ∧ SameRegsBut [] s (s.dmaBoundary brq l) ∧
    (s.dmaBoundary brq l).dev = s.dev ∧
    ∀ a : Word, (s.dmaBoundary brq l).readByte a =
      (if brq = true ∧ s.re.getLsbD 13 = true ∧ s.kindAt a = .ram then (lastDmaWrite l a).or (s.readByte a)
       else s.readByte a)

/-! ## Arithmetic -/

/-- R141 to R143, R33, R157: without the overflow trap ADD, ADDI and ADDC write the 16-bit sum and its flags, or with
destination RE the sum alone. C and V are the carry out and the signed overflow (decisions D4, D11; log 3, 10). -/
def Obligations.AdditionsWriteTheSumAndItsFlags : Prop :=
  ∀ (d : Reg) (s : State),
    (∀ r : Reg, fitsWord ((s.x d).toInt + (s.x r).toInt) ∨ s.tv = false →
      ∃ t : State, exec (.add d r) s = .next t ∧ t.pc = s.pc + 2#16 ∧
        Committed d (s.x d + s.x r) (sumFlags (s.x d) (s.x r) false) s t) ∧
    (∀ k : Int, fitsWord ((s.x d).toInt + (constWord k).toInt) ∨ s.tv = false →
      ∃ t : State, exec (.addi d k) s = .next t ∧ t.pc = s.pc + 2#16 ∧
        Committed d (s.x d + constWord k) (sumFlags (s.x d) (constWord k) false) s t) ∧
    (∀ r : Reg, fitsWord ((s.x d).toInt + (s.x r).toInt + s.flagC.toNat) ∨ s.tv = false →
      ∃ t : State, exec (.addc d r) s = .next t ∧ t.pc = s.pc + 2#16 ∧
        Committed d (s.x d + s.x r + carryWord s.flagC) (sumFlags (s.x d) (s.x r) s.flagC) s t)

/-- R144 to R146, R155, R33, R157: without the overflow trap SUB, SUBI, SUBB and NEG (0 - Rd) write the 16-bit difference
and its flags. C is the borrow, V the signed overflow (decisions D4, D10, D11, D18; log 3, 10). -/
def Obligations.SubtractionsWriteTheDifferenceAndItsFlags : Prop :=
  ∀ (d : Reg) (s : State),
    (∀ r : Reg, fitsWord ((s.x d).toInt - (s.x r).toInt) ∨ s.tv = false →
      ∃ t : State, exec (.sub d r) s = .next t ∧ t.pc = s.pc + 2#16 ∧
        Committed d (s.x d - s.x r) (diffFlags (s.x d) (s.x r) false) s t) ∧
    (∀ k : Int, fitsWord ((s.x d).toInt - (constWord k).toInt) ∨ s.tv = false →
      ∃ t : State, exec (.subi d k) s = .next t ∧ t.pc = s.pc + 2#16 ∧
        Committed d (s.x d - constWord k) (diffFlags (s.x d) (constWord k) false) s t) ∧
    (∀ r : Reg, fitsWord ((s.x d).toInt - (s.x r).toInt - s.flagC.toNat) ∨ s.tv = false →
      ∃ t : State, exec (.subb d r) s = .next t ∧ t.pc = s.pc + 2#16 ∧
        Committed d (s.x d - s.x r - carryWord s.flagC) (diffFlags (s.x d) (s.x r) s.flagC) s t) ∧
    (s.x d ≠ 0x8000#16 ∨ s.tv = false →
      ∃ t : State, exec (.neg d) s = .next t ∧ t.pc = s.pc + 2#16 ∧
        Committed d (0#16 - s.x d) (diffFlags 0#16 (s.x d) false) s t)

/-- R147, R148: CMP and CMPI write the flags of the difference and nothing else, also when the register read is RE
(decisions D10, D11; log 10). -/
def Obligations.ComparisonsWriteFlagsAlone : Prop :=
  ∀ (d : Reg) (s : State),
    (∀ r : Reg, fitsWord ((s.x d).toInt - (s.x r).toInt) ∨ s.tv = false →
      ∃ t : State, exec (.cmp d r) s = .next t ∧ t.pc = s.pc + 2#16 ∧
        OnlyFlags (diffFlags (s.x d) (s.x r) false) s t) ∧
    (∀ k : Int, fitsWord ((s.x d).toInt - (constWord k).toInt) ∨ s.tv = false →
      ∃ t : State, exec (.cmpi d k) s = .next t ∧ t.pc = s.pc + 2#16 ∧
        OnlyFlags (diffFlags (s.x d) (constWord k) false) s t)

/-- R156, R304, R184: with TV = 1 at its start, an instruction that overflows completes its own effect and then enters
EXCESSO, saving the next address (decisions D23, D24, D39; log 16, 25). -/
def Obligations.OverflowTrapsAfterTheResultIsWritten : Prop :=
  ∀ (d : Reg) (s : State), s.tv = true →
    (∀ r : Reg, ¬fitsWord ((s.x d).toInt + (s.x r).toInt) →
      EntersAfter 4#8 (Committed d (s.x d + s.x r) (sumFlags (s.x d) (s.x r) false) s) (.add d r) s) ∧
    (∀ k : Int, ¬fitsWord ((s.x d).toInt + (constWord k).toInt) →
      EntersAfter 4#8 (Committed d (s.x d + constWord k) (sumFlags (s.x d) (constWord k) false) s) (.addi d k) s) ∧
    (∀ r : Reg, ¬fitsWord ((s.x d).toInt + (s.x r).toInt + s.flagC.toNat) →
      EntersAfter 4#8 (Committed d (s.x d + s.x r + carryWord s.flagC) (sumFlags (s.x d) (s.x r) s.flagC) s)
        (.addc d r) s) ∧
    (∀ r : Reg, ¬fitsWord ((s.x d).toInt - (s.x r).toInt) →
      EntersAfter 4#8 (Committed d (s.x d - s.x r) (diffFlags (s.x d) (s.x r) false) s) (.sub d r) s ∧
      EntersAfter 4#8 (OnlyFlags (diffFlags (s.x d) (s.x r) false) s) (.cmp d r) s) ∧
    (∀ k : Int, ¬fitsWord ((s.x d).toInt - (constWord k).toInt) →
      EntersAfter 4#8 (Committed d (s.x d - constWord k) (diffFlags (s.x d) (constWord k) false) s) (.subi d k) s ∧
      EntersAfter 4#8 (OnlyFlags (diffFlags (s.x d) (constWord k) false) s) (.cmpi d k) s) ∧
    (∀ r : Reg, ¬fitsWord ((s.x d).toInt - (s.x r).toInt - s.flagC.toNat) →
      EntersAfter 4#8 (Committed d (s.x d - s.x r - carryWord s.flagC) (diffFlags (s.x d) (s.x r) s.flagC) s)
        (.subb d r) s) ∧
    (s.x d = 0x8000#16 →
      EntersAfter 4#8 (Committed d 0x8000#16 (diffFlags 0#16 0x8000#16 false) s) (.neg d) s) ∧
    (∀ r : Reg, ¬fitsWord ((s.x d).toInt * (s.x r).toInt) → EntersAfter 4#8 (MulEffect d r s) (.mul d r) s) ∧
    (∀ n : Fin 16, ¬fitsWord ((s.x d).toInt * 2 ^ n.val) →
      EntersAfter 4#8 (Committed d (s.x d <<< n.val)
        (resultFlags (s.x d <<< n.val) (lastBitOut (s.x d) n (16 - n.val) s.flagC) (some true)) s) (.shla d n) s)

/-- R149, R157: without the overflow trap MUL leaves the low half of the product, its Z, N and V, a free C and a free
value in the second register (decision D12, log 11, 29). -/
def Obligations.MultiplicationWritesTheLowHalf : Prop :=
  ∀ (d r : Reg) (s : State), fitsWord ((s.x d).toInt * (s.x r).toInt) ∨ s.tv = false →
    ∃ t : State, exec (.mul d r) s = .next t ∧ t.pc = s.pc + 2#16 ∧ MulEffect d r s t

/-- R150 to R152: with a divisor that is not 0, DIV writes the quotient rounded toward zero and MOD the remainder with
the dividend's sign; Z and N of the result, V cleared, C free (decisions D13, D14, D17; log 12). -/
def Obligations.DivisionTruncatesTowardZero : Prop :=
  ∀ (d r : Reg) (s : State), s.x r ≠ 0x0000#16 →
    (∃ (t : State) (c : Bool), exec (.div d r) s = .next t ∧ t.pc = s.pc + 2#16 ∧
      Committed d (BitVec.ofInt 16 ((s.x d).toInt.tdiv (s.x r).toInt))
        (resultFlags (BitVec.ofInt 16 ((s.x d).toInt.tdiv (s.x r).toInt)) (some c) (some false)) s t) ∧
    (∃ (t : State) (c : Bool), exec (.mod d r) s = .next t ∧ t.pc = s.pc + 2#16 ∧
      Committed d (BitVec.ofInt 16 ((s.x d).toInt.tmod (s.x r).toInt))
        (resultFlags (BitVec.ofInt 16 ((s.x d).toInt.tmod (s.x r).toInt)) (some c) (some false)) s t)

/-- R153, R154, R305: with divisor 0, TD = 1 enters DIV0 with nothing written; TD = 0 writes free values to the
destination, Z, N and C, sets V, and enters EXCESSO after that when TV = 1 (decisions D15, D16, D23, D24; log 13). -/
def Obligations.DivisionByZeroTrapsOrOverflows : Prop :=
  ∀ (d r : Reg) (s : State) (i : Instr), i = .div d r ∨ i = .mod d r → s.x r = 0x0000#16 →
    (s.td = true → EntryReady s 5#8 → ∃ t : State, exec i s = .next t ∧ Entered 5#8 (s.pc + 2#16) s t) ∧
    (s.td = false → s.tv = false → ∃ (t : State) (w : Word) (z n c : Bool), exec i s = .next t ∧
      t.pc = s.pc + 2#16 ∧ Committed d w ⟨some z, some n, some c, some true⟩ s t) ∧
    (s.td = false → s.tv = true → ∃ (w : Word) (z n c : Bool),
      EntersAfter 4#8 (Committed d w ⟨some z, some n, some c, some true⟩ s) i s)

/-! ## Logic and bits -/

/-- R160 to R163, R33: AND, OR, NOT and XOR write the result, Z and N; C and V and the other bits of RE are unchanged;
with destination RE, RE is the result exactly. -/
def Obligations.LogicWritesTheResultWithZeroAndSign : Prop :=
  ∀ (d r : Reg) (s : State),
    (∃ t : State, exec (.and d r) s = .next t ∧ t.pc = s.pc + 2#16 ∧
      Committed d (s.x d &&& s.x r) (resultFlags (s.x d &&& s.x r) none none) s t) ∧
    (∃ t : State, exec (.or d r) s = .next t ∧ t.pc = s.pc + 2#16 ∧
      Committed d (s.x d ||| s.x r) (resultFlags (s.x d ||| s.x r) none none) s t) ∧
    (∃ t : State, exec (.not d) s = .next t ∧ t.pc = s.pc + 2#16 ∧
      Committed d (~~~s.x d) (resultFlags (~~~s.x d) none none) s t) ∧
    (∃ t : State, exec (.xor d r) s = .next t ∧ t.pc = s.pc + 2#16 ∧
      Committed d (s.x d ^^^ s.x r) (resultFlags (s.x d ^^^ s.x r) none none) s t)

/-- R164, R165: TEST writes Z and N of the conjunction (decision D20, log 14), BIT writes Z as the complement of the bit;
neither changes anything else, also when the register read is RE. -/
def Obligations.TestAndBitWriteFlagsAlone : Prop :=
  ∀ (d : Reg) (s : State),
    (∀ r : Reg, ∃ t : State, exec (.test d r) s = .next t ∧ t.pc = s.pc + 2#16 ∧
      OnlyFlags (resultFlags (s.x d &&& s.x r) none none) s t) ∧
    (∀ n : Fin 16, ∃ t : State, exec (.bit d n) s = .next t ∧ t.pc = s.pc + 2#16 ∧
      OnlyFlags { z := some (!(s.x d).getLsbD n.val) } s t)

/-- R166 to R168, R33, R169: SETBIT, CLRBIT and CPLBIT change bit n of the register, with Z and N of the new value; with
register RE they change that bit of RE alone. -/
def Obligations.BitOperationsChangeOneBit : Prop :=
  ∀ (d : Reg) (n : Fin 16) (s : State) (i : Instr) (b : Bool),
    (i = .setbit d n ∧ b = true) ∨ (i = .clrbit d n ∧ b = false) ∨
      (i = .cplbit d n ∧ b = !(s.x d).getLsbD n.val) →
    ∃ (t : State) (w : Word), exec i s = .next t ∧ t.pc = s.pc + 2#16 ∧
      (∀ j : Nat, w.getLsbD j = if j = n.val then b else (s.x d).getLsbD j) ∧
      Committed d w (resultFlags w none none) s t

/-! ## Shifts and rotates -/

/-- R180 to R183, R33: SHR, SHL and SHRA: the operand divided by, multiplied by (modulo 2^16) and, as a signed number,
divided rounding down by 2^n; Z and N of the result; C the last bit that left, or unchanged when n = 0; V unchanged. -/
def Obligations.ShiftsScaleByAPowerOfTwo : Prop :=
  ∀ (d : Reg) (n : Fin 16) (s : State),
    (∃ (t : State) (w : Word), exec (.shr d n) s = .next t ∧ t.pc = s.pc + 2#16 ∧
      w = BitVec.ofNat 16 ((s.x d).toNat / 2 ^ n.val) ∧
      Committed d w (resultFlags w (lastBitOut (s.x d) n (n.val - 1) s.flagC) none) s t) ∧
    (∃ (t : State) (w : Word), exec (.shl d n) s = .next t ∧ t.pc = s.pc + 2#16 ∧
      w = BitVec.ofNat 16 ((s.x d).toNat * 2 ^ n.val) ∧
      Committed d w (resultFlags w (lastBitOut (s.x d) n (16 - n.val) s.flagC) none) s t) ∧
    (∃ (t : State) (w : Word), exec (.shra d n) s = .next t ∧ t.pc = s.pc + 2#16 ∧
      w = BitVec.ofInt 16 ((s.x d).toInt.fdiv (2 ^ n.val)) ∧
      Committed d w (resultFlags w (lastBitOut (s.x d) n (n.val - 1) s.flagC) none) s t)

/-- R184: without the overflow trap SHLA writes value and C as SHL, and V exactly when the operand times 2^n does not fit
(decision D19, log 14). -/
def Obligations.ShlaOverflowsWhenTheProductDoesNotFit : Prop :=
  ∀ (d : Reg) (n : Fin 16) (s : State), fitsWord ((s.x d).toInt * 2 ^ n.val) ∨ s.tv = false →
    ∃ t : State, exec (.shla d n) s = .next t ∧ t.pc = s.pc + 2#16 ∧
      Committed d (s.x d <<< n.val)
        (resultFlags (s.x d <<< n.val) (lastBitOut (s.x d) n (16 - n.val) s.flagC)
          (some (decide (¬fitsWord ((s.x d).toInt * 2 ^ n.val))))) s t

/-- R185, R186, R180: ROR and ROL move every bit n places round the register; C is the last bit that left, or unchanged
when n = 0; V unchanged. -/
def Obligations.RotatesMoveBitsRoundTheRegister : Prop :=
  ∀ (d : Reg) (n : Fin 16) (s : State),
    (∃ (t : State) (w : Word), exec (.ror d n) s = .next t ∧ t.pc = s.pc + 2#16 ∧
      (∀ j : Nat, j < 16 → w.getLsbD j = (s.x d).getLsbD ((j + n.val) % 16)) ∧
      Committed d w (resultFlags w (lastBitOut (s.x d) n (n.val - 1) s.flagC) none) s t) ∧
    (∃ (t : State) (w : Word), exec (.rol d n) s = .next t ∧ t.pc = s.pc + 2#16 ∧
      (∀ j : Nat, j < 16 → w.getLsbD ((j + n.val) % 16) = (s.x d).getLsbD j) ∧
      Committed d w (resultFlags w (lastBitOut (s.x d) n (16 - n.val) s.flagC) none) s t)

/-- R187, R188, R180: RORC and ROLC move every bit n places round the 17-bit ring of the register and C: with bit 16 of
the ring standing for C, ring bit j comes from ring bit j + n (right) or goes there (left); V unchanged. -/
def Obligations.RotatesThroughCarryMoveBitsRoundTheRing : Prop :=
  ∀ (d : Reg) (n : Fin 16) (s : State),
    (∃ (t : State) (w : Word) (c : Bool), exec (.rorc d n) s = .next t ∧ t.pc = s.pc + 2#16 ∧
      (∀ j : Nat, j < 17 → (if j = 16 then c else w.getLsbD j) =
        (if (j + n.val) % 17 = 16 then s.flagC else (s.x d).getLsbD ((j + n.val) % 17))) ∧
      Committed d w (resultFlags w (some c) none) s t) ∧
    (∃ (t : State) (w : Word) (c : Bool), exec (.rolc d n) s = .next t ∧ t.pc = s.pc + 2#16 ∧
      (∀ j : Nat, j < 17 → (if (j + n.val) % 17 = 16 then c else w.getLsbD ((j + n.val) % 17)) =
        (if j = 16 then s.flagC else (s.x d).getLsbD j)) ∧
      Committed d w (resultFlags w (some c) none) s t)

/-! ## Transfers -/

/-- R201, R202, R208, R200, R81: LDO, LDR and LDP load the aligned word at their effective address into the destination
and change nothing else; what a read leaves of the peripherals is said in `AccessesFollowTheAddressMap`. From a
peripheral register LDP takes the host's answer (R83; log 36), and an empty range may answer a fixed byte (log 7). -/
def Obligations.WordLoadsWriteTheirDestinationAlone : Prop :=
  ∀ (d r : Reg) (s : State),
    (∀ (off : Int) (w : Word) (p : Device), s.readWord (s.x r + BitVec.ofInt 16 off) = .value w p →
      ∃ t : State, exec (.ldo d r off) s = .next t ∧ t.pc = s.pc + 2#16 ∧ Moved d w (s.withDev p) t) ∧
    (∀ (i : Reg) (w : Word) (p : Device), s.readWord (s.x r + s.x i) = .value w p →
      ∃ t : State, exec (.ldr d r i) s = .next t ∧ t.pc = s.pc + 2#16 ∧ Moved d w (s.withDev p) t) ∧
    (∀ (w : Word) (p : Device), s.readWord (s.x r) = .value w p →
      ∃ t : State, exec (.ldp d r) s = .next t ∧ t.pc = s.pc + 2#16 ∧ Moved d w (s.withDev p) t) ∧
    (∀ (hi lo : Byte) (l : List Byte), isOdd (s.x r) = false → s.kindAt (s.x r) = .peripheral →
      s.kindAt (s.x r + 1#16) = .peripheral → s.dev.answers = hi :: lo :: l →
        ∃ t : State, exec (.ldp d r) s = .next t ∧ t.get (Reg.phys s.np d) = hi ++ lo ∧ SameMem s t ∧
          t.dev.answers = l ∧ t.dev.accesses = s.dev.accesses ++ [.readWord (s.x r) (hi ++ lo)])

/-- R203, R204, R209, R200, R81: STO, STR and STP store the data register at their even effective address, high byte
first, and change no other byte and no register. Where the map has no read-write storage nothing is stored, and a device
is shown the word (R82, R83; log 7, 36). -/
def Obligations.WordStoresWriteTheirWordAlone : Prop :=
  ∀ (r d : Reg) (s : State),
    (∀ off : Int, WordWritable s (s.x d + BitVec.ofInt 16 off) →
      ∃ t : State, exec (.sto r d off) s = .next t ∧ t.pc = s.pc + 2#16 ∧
        StoredWord (s.x d + BitVec.ofInt 16 off) (s.x r) s t ∧ SameRegsBut [] s t ∧ SameControl s t) ∧
    (∀ i : Reg, WordWritable s (s.x d + s.x i) →
      ∃ t : State, exec (.str r d i) s = .next t ∧ t.pc = s.pc + 2#16 ∧
        StoredWord (s.x d + s.x i) (s.x r) s t ∧ SameRegsBut [] s t ∧ SameControl s t) ∧
    (WordWritable s (s.x d) →
      ∃ t : State, exec (.stp d r) s = .next t ∧ t.pc = s.pc + 2#16 ∧
        StoredWord (s.x d) (s.x r) s t ∧ SameRegsBut [] s t ∧ SameControl s t)

/-- R308, R311, R200 (2): a word access at an odd address makes the instruction enter D_DESALINHADO from the state it
found, the next address saved (decision D23, log 16). -/
def Obligations.MisalignedAccessTrapsWithNothingChanged : Prop :=
  ∀ (d r i : Reg) (s : State),
    (∀ off : Int, isOdd (s.x r + BitVec.ofInt 16 off) = true →
      exec (.ldo d r off) s = enter 8#8 (s.pc + 2#16) s ∧ exec (.sto d r off) s = enter 8#8 (s.pc + 2#16) s) ∧
    (isOdd (s.x r + s.x i) = true →
      exec (.ldr d r i) s = enter 8#8 (s.pc + 2#16) s ∧ exec (.str d r i) s = enter 8#8 (s.pc + 2#16) s) ∧
    (isOdd (s.x r) = true →
      exec (.ldp d r) s = enter 8#8 (s.pc + 2#16) s ∧ exec (.stp r d) s = enter 8#8 (s.pc + 2#16) s ∧
      exec (.swapm d r) s = enter 8#8 (s.pc + 2#16) s) ∧
    (isOdd (s.x .sp) = true →
      exec (.push d) s = enter 8#8 (s.pc + 2#16) s ∧ exec (.pop d) s = enter 8#8 (s.pc + 2#16) s ∧
      (∀ dif : Int, exec (.call dif) s = enter 8#8 (s.pc + 2#16) s) ∧
      exec (.cr d) s = enter 8#8 (s.pc + 2#16) s ∧ exec .ret s = enter 8#8 (s.pc + 2#16) s)

/-- R205, R206, R207: LDB extends the byte with zeros, LDBS with its sign, at any address; STB stores the low byte of its
data register at any address; none changes anything else. Where the map has no read-write storage STB stores nothing, and
a device is shown the byte (R82, R83; log 7, 36). -/
def Obligations.ByteTransfersReachAnyAddress : Prop :=
  ∀ (d r : Reg) (s : State),
    (∀ (b : Byte) (p : Device), s.memReadByte (s.x r) = .value b p →
      (∃ t : State, exec (.ldb d r) s = .next t ∧ t.pc = s.pc + 2#16 ∧ Moved d (0x00#8 ++ b) (s.withDev p) t) ∧
      (∃ t : State, exec (.ldbs d r) s = .next t ∧ t.pc = s.pc + 2#16 ∧
        Moved d (BitVec.ofInt 16 b.toInt) (s.withDev p) t)) ∧
    (Writable s (s.x d) → ∃ t : State, exec (.stb d r) s = .next t ∧ t.pc = s.pc + 2#16 ∧
      t.readByte (s.x d) = byteAfterWrite s (s.x d) ((s.x r).extractLsb' 0 8) ∧
      (∀ a : Word, a ≠ s.x d → t.readByte a = s.readByte a) ∧ SameRegsBut [] s t ∧ SameControl s t ∧
      t.dev = if s.kindAt (s.x d) = .peripheral
        then { s.dev with accesses := s.dev.accesses ++ [.writeByte (s.x d) ((s.x r).extractLsb' 0 8)] } else s.dev)

/-- R210, R211, R218, R221, R222: MOVL, MOVH, MOVRR, MOVRU and MOVUR write their value to their destination and change
nothing else; USP is reached at either protection level. -/
def Obligations.MovesWriteTheirDestinationAlone : Prop :=
  ∀ (d r : Reg) (s : State),
    (∀ k : Int, -128 ≤ k → k ≤ 127 → ∃ (t : State) (w : Word), exec (.movl d k) s = .next t ∧ t.pc = s.pc + 2#16 ∧
      w.toInt = k ∧ Moved d w s t) ∧
    (∀ k : Byte, ∃ t : State, exec (.movh d k) s = .next t ∧ t.pc = s.pc + 2#16 ∧
      Moved d (k ++ (s.x d).extractLsb' 0 8) s t) ∧
    (∃ t : State, exec (.movrr d r) s = .next t ∧ t.pc = s.pc + 2#16 ∧ Moved d (s.x r) s t) ∧
    (∃ t : State, exec (.movru d) s = .next t ∧ t.pc = s.pc + 2#16 ∧ Moved d s.usp s t) ∧
    (∃ t : State, exec (.movur r) s = .next t ∧ t.pc = s.pc + 2#16 ∧ t.usp = s.x r ∧
      SameRegsBut [.usp] s t ∧ SameMem s t ∧ SameHost s t)

/-- R220, R42: MOVRA of RCN (number 0: decision D8, log 8) reads RCN; of another auxiliary register it writes a free
value (log 29); nothing else changes. -/
def Obligations.MovraReadsRcnOrAFreeValue : Prop :=
  ∀ (d : Reg) (a : Fin 16) (s : State), ∃ (t : State) (w : Word), exec (.movra d a) s = .next t ∧
    t.pc = s.pc + 2#16 ∧ Moved d w s t ∧ (a = 0 → w = s.rcn)

/-- R224: SWAPR exchanges its registers through TEMP, which keeps the old first one. The cases where TEMP is an operand,
and where RE is written before the stack pointer, follow the order of the three lines (decision D38, log 24). -/
def Obligations.SwaprExchangesThroughTemp : Prop :=
  ∀ (d r : Reg) (s : State), ∃ t : State, exec (.swapr d r) s = .next t ∧ t.pc = s.pc + 2#16 ∧
    SameMem s t ∧ SameHost s t ∧
    (d ≠ .temp → r ≠ .temp → ¬(d = .re ∧ r = .sp) →
      t.temp = s.x d ∧ t.get (Reg.phys s.np d) = s.x r ∧ t.get (Reg.phys s.np r) = s.x d ∧
        SameRegsBut [.temp, Reg.phys s.np d, Reg.phys s.np r] s t) ∧
    (d = .re → r = .sp → t.temp = s.re ∧ t.re = s.x .sp ∧ t.get (Reg.phys t.np .sp) = s.re ∧
      SameRegsBut [.temp, .re, Reg.phys t.np .sp] s t) ∧
    (d = .temp → r ≠ .temp → t.temp = s.x r ∧ SameRegsBut [.temp] s t) ∧
    (r = .temp → t.temp = s.x d ∧ SameRegsBut [.temp] s t)

/-- R225, R87: SWAPM exchanges its register with the aligned word its address register names, in one step; TEMP keeps the
old word. With TEMP as the register the word read is stored back (decision D38, log 24). What it does with a word that is
not in read-write storage, or is a device's, is the model's choice (R82, R83; log 7, 36). -/
def Obligations.SwapmExchangesWithMemory : Prop :=
  ∀ (d r : Reg) (s : State) (w : Word) (p : Device), s.readWord (s.x r) = .value w p → WordWritable s (s.x r) →
    ∃ t : State, exec (.swapm d r) s = .next t ∧ t.pc = s.pc + 2#16 ∧ t.temp = w ∧
      t.get (Reg.phys s.np d) = w ∧ StoredWord (s.x r) (if d = .temp then w else s.x d) (s.withDev p) t ∧
      SameRegsBut [.temp, Reg.phys s.np d] s t ∧ SameControl s t

/-- R226, R25: PUSH stores the register (SP as it was before) two below SP and lowers SP by 2; SP is the stack pointer of
the current level. Where the map has no read-write storage nothing is stored, and a device is shown the word: the model's
choice (R82, R83; log 7, 36). -/
def Obligations.PushStoresBelowTheStackPointer : Prop :=
  ∀ (r : Reg) (s : State), WordWritable s (s.x .sp - 2#16) →
    ∃ t : State, exec (.push r) s = .next t ∧ t.pc = s.pc + 2#16 ∧ StoredWord (s.x .sp - 2#16) (s.x r) s t ∧
      t.get (Reg.phys s.np .sp) = s.x .sp - 2#16 ∧ SameRegsBut [Reg.phys s.np .sp] s t ∧ SameControl s t

/-- R227: POP writes the word at SP to the register, then raises the stack pointer that RE selects by then by 2; POP SP
ends with the word plus 2 (decision D38, log 24). What it reads outside storage is the model's choice (log 7, 36). -/
def Obligations.PopLoadsAndRaisesTheStackPointer : Prop :=
  ∀ (d : Reg) (s : State) (v : Word) (p : Device), s.readWord (s.x .sp) = .value v p →
    ∃ t : State, exec (.pop d) s = .next t ∧ t.pc = s.pc + 2#16 ∧ SameMem s t ∧ SameHost (s.withDev p) t ∧
      (d ≠ .sp → d ≠ .re → t.get (Reg.phys s.np d) = v ∧ t.get (Reg.phys s.np .sp) = s.x .sp + 2#16 ∧
        SameRegsBut [Reg.phys s.np d, Reg.phys s.np .sp] s t) ∧
      (d = .sp → t.get (Reg.phys s.np .sp) = v + 2#16 ∧ SameRegsBut [Reg.phys s.np .sp] s t) ∧
      (d = .re → t.re = v ∧ t.get (Reg.phys t.np .sp) = s.get (Reg.phys t.np .sp) + 2#16 ∧
        SameRegsBut [.re, Reg.phys t.np .sp] s t)

/-! ## Control flow -/

/-- R240 to R256: each conditional jump changes pc alone, to the relative target when its condition on Z (bit 0), N
(bit 1), C (bit 2) and V (bit 3) of RE holds and to the next instruction when not. -/
def Obligations.ConditionalJumpsTestTheirFlags : Prop :=
  ∀ (dif : Int) (s : State) (z n c v : Bool), z = s.re.getLsbD 0 → n = s.re.getLsbD 1 → c = s.re.getLsbD 2 →
    v = s.re.getLsbD 3 → ∀ (taken : Bool) (i : Instr),
      (i, taken) ∈ [(Instr.jz dif, z), (.jnz dif, !z), (.jn dif, n), (.jnn dif, !n), (.jp dif, !n && !z),
        (.jnp dif, n || z), (.jc dif, c), (.jnc dif, !c), (.jv dif, v), (.jnv dif, !v), (.jlt dif, n != v),
        (.jle dif, n != v || z), (.jgt dif, n == v && !z), (.jge dif, n == v), (.ja dif, !c && !z),
        (.jbe dif, c || z)] →
      exec i s = .next { s with pc := if taken then s.pc + 2#16 + BitVec.ofInt 16 (2 * dif) else s.pc + 2#16 }

/-- R147, R241, R242, R247, R248, R251 to R256: after CMP the conditional jumps are the comparisons of the two registers,
signed (JLT, JLE, JGT, JGE) and unsigned (JC, JNC, JA, JBE). -/
def Obligations.JumpsAfterCmpCompareTheRegisters : Prop :=
  ∀ (d r : Reg) (dif : Int) (s : State), fitsWord ((s.x d).toInt - (s.x r).toInt) ∨ s.tv = false →
    ∃ t : State, exec (.cmp d r) s = .next t ∧ ∀ (taken : Bool) (i : Instr),
      (i, taken) ∈ [(Instr.jz dif, decide (s.x d = s.x r)), (.jnz dif, decide (s.x d ≠ s.x r)),
        (.jlt dif, decide ((s.x d).toInt < (s.x r).toInt)), (.jle dif, decide ((s.x d).toInt ≤ (s.x r).toInt)),
        (.jgt dif, decide ((s.x r).toInt < (s.x d).toInt)), (.jge dif, decide ((s.x r).toInt ≤ (s.x d).toInt)),
        (.jc dif, decide ((s.x d).toNat < (s.x r).toNat)), (.jnc dif, decide ((s.x r).toNat ≤ (s.x d).toNat)),
        (.ja dif, decide ((s.x r).toNat < (s.x d).toNat)), (.jbe dif, decide ((s.x d).toNat ≤ (s.x r).toNat))] →
      exec i t = .next { t with pc := if taken then t.pc + 2#16 + BitVec.ofInt 16 (2 * dif) else t.pc + 2#16 }

/-- R258, R259, R262, R263, R265, R269: JMP, JMPR, CALLF, CRF, RETF and NOP: the next pc, the link register, and nothing
else. CALLF of RL goes to the next instruction (decision D38, log 24). -/
def Obligations.JumpsAndLinksChangePcAndLinkAlone : Prop :=
  ∀ s : State,
    (∀ dif : Int, exec (.jmp dif) s = .next { s with pc := s.pc + 2#16 + BitVec.ofInt 16 (2 * dif) } ∧
      exec (.callf dif) s = .next { s with rl := s.pc + 2#16, pc := s.pc + 2#16 + BitVec.ofInt 16 (2 * dif) }) ∧
    (∀ r : Reg, exec (.jmpr r) s = .next { s with pc := s.x r } ∧
      exec (.crf r) s = .next { s with rl := s.pc + 2#16, pc := if r = .rl then s.pc + 2#16 else s.x r }) ∧
    exec .retf s = .next { s with pc := s.rl } ∧ exec .nop s = .next { s with pc := s.pc + 2#16 }

/-- R260, R261, R264: CALL and CR store the next address two below SP, lower SP by 2 and go to their target (CALL SP: the
SP before); RET loads pc from the top of the stack and raises SP by 2. Where the map has no read-write storage nothing is
stored, and a device is shown the word; what RET reads there is as the map says: the model's choice (R82, R83; log 7,
36). -/
def Obligations.CallsAndReturnsUseTheStack : Prop :=
  ∀ s : State,
    (WordWritable s (s.x .sp - 2#16) →
      (∀ dif : Int, ∃ t : State, exec (.call dif) s = .next t ∧ t.pc = s.pc + 2#16 + BitVec.ofInt 16 (2 * dif) ∧
        StoredWord (s.x .sp - 2#16) (s.pc + 2#16) s t ∧ t.get (Reg.phys s.np .sp) = s.x .sp - 2#16 ∧
        SameRegsBut [Reg.phys s.np .sp] s t ∧ SameControl s t) ∧
      (∀ r : Reg, ∃ t : State, exec (.cr r) s = .next t ∧ t.pc = s.x r ∧
        StoredWord (s.x .sp - 2#16) (s.pc + 2#16) s t ∧ t.get (Reg.phys s.np .sp) = s.x .sp - 2#16 ∧
        SameRegsBut [Reg.phys s.np .sp] s t ∧ SameControl s t)) ∧
    (∀ (w : Word) (p : Device), s.readWord (s.x .sp) = .value w p →
      ∃ t : State, exec .ret s = .next t ∧ t.pc = w ∧ t.get (Reg.phys s.np .sp) = s.x .sp + 2#16 ∧
        SameRegsBut [Reg.phys s.np .sp] s t ∧ SameMem s t ∧ SameHost (s.withDev p) t)

/-- R240 (1), R260, R79: a relative transfer from an even pc ends at an even pc, whether it is taken or not; CALL does
where its stack pointer is even, so that it raises no D_DESALINHADO. -/
def Obligations.RelativeTransfersKeepPcEven : Prop :=
  ∀ (dif : Int) (i : Instr) (s t : State),
    i ∈ [Instr.jz dif, .jnz dif, .jn dif, .jnn dif, .jp dif, .jnp dif, .jc dif, .jnc dif, .jv dif, .jnv dif, .jlt dif,
      .jle dif, .jgt dif, .jge dif, .ja dif, .jbe dif, .jmp dif, .callf dif] ∨
      (i = .call dif ∧ isOdd (s.x .sp) = false) →
    isOdd s.pc = false → exec i s = .next t → isOdd t.pc = false

/-! ## Whole-machine rules -/

/-- R42, R45, R219, R316: no instruction but MOVAR changes RCN or a request latch, and none changes a sampled pin level,
an output pin, the host's actions or the address map, whatever exception it enters. -/
def Obligations.OnlyMovarChangesRcnAndLatches : Prop :=
  ∀ (i : Instr) (s t : State), exec i s = .next t → (∀ (a : Fin 16) (r : Reg), i ≠ .movar a r) →
    t.rcn = s.rcn ∧ t.ip = s.ip ∧ t.restart = s.restart ∧ t.intPins = s.intPins ∧ t.inta = s.inta ∧ t.bgt = s.bgt ∧
      t.inputs = s.inputs ∧ t.map = s.map

/-- R21, R23, R24, R26, R27, R41, R313: R0 to R10 and BTE change only in an instruction that names them as destination (or
as the second register of MUL or SWAPR), RL also in CALLF and CRF, and TEMP also in SWAPR, SWAPM, SWE, RFE and an exception
entry. USP changes only in MOVUR, or by naming SP or using the stack (PUSH, POP, CALL, CR, RET, RFE), which at system level
does not reach it unless RE is written first; SSP only by naming SP or using the stack, which at user level does not reach
it unless RE is written first, in SWE and in an exception entry. (RE and RCN: the statements before and after.) -/
def Obligations.RegistersChangeOnlyWhenNamed : Prop :=
  ∀ (i : Instr) (s t : State), exec i s = .next t →
    (∀ n : Fin 11, destination i ≠ some (.r n) → secondRegister i ≠ some (.r n) → t.get (.r n) = s.get (.r n)) ∧
    (destination i ≠ some .bte → secondRegister i ≠ some .bte → t.bte = s.bte) ∧
    (destination i ≠ some .rl → secondRegister i ≠ some .rl → (∀ dif : Int, i ≠ .callf dif) →
      (∀ r : Reg, i ≠ .crf r) → t.rl = s.rl) ∧
    (destination i ≠ some .temp → secondRegister i ≠ some .temp → (∀ d r : Reg, i ≠ .swapr d r) →
      (∀ d r : Reg, i ≠ .swapm d r) → (∀ k : Byte, i ≠ .swe k) → i ≠ .rfe →
      EffectOrEntry (fun m => m.temp = s.temp) i s t) ∧
    ((∀ r : Reg, i ≠ .movur r) → (¬writesSp i ∨ (s.np = false ∧ destination i ≠ some .re)) → t.usp = s.usp) ∧
    ((∀ k : Byte, i ≠ .swe k) → (¬writesSp i ∨ (s.np = true ∧ destination i ≠ some .re)) →
      EffectOrEntry (fun m => m.ssp = s.ssp) i s t)

/-- R40, R33, R28: an instruction that has RE neither as destination nor as second register, and is not SWE or RFE,
changes only the bits of RE whose flags it lists, unless it then enters an exception. The protection level, the enables
and the reserved bits are among the bits kept. -/
def Obligations.OnlyListedFlagsChange : Prop :=
  ∀ (i : Instr) (s t : State), exec i s = .next t → destination i ≠ some .re → secondRegister i ≠ some .re →
    (∀ k : Byte, i ≠ .swe k) → i ≠ .rfe →
    EffectOrEntry (fun m => ∀ n : Nat, n ∉ listedFlags i → m.re.getLsbD n = s.re.getLsbD n) i s t

/-- R80: an instruction that is no store leaves every byte of memory as it was, unless it enters an exception, whose
entry is then the only change to memory. -/
def Obligations.OnlyStoresChangeMemory : Prop :=
  ∀ (i : Instr) (s t : State), exec i s = .next t → stores i = false → EffectOrEntry (fun m => SameMem s m) i s t

/-- R290, R291 (decision D36, log 33): the instructions the assembler makes of `MOV Rd, k` are one or two, run without a
flag, and leave the 16-bit pattern of k in the register. -/
def Obligations.AssembledConstantReachesItsRegister : Prop :=
  ∀ (d : Reg) (k : Int) (s : State), -32768 ≤ k → k ≤ 65535 →
    (const8Ok (Asm.signedConst k) = true → Asm.expandMov d k = [.movl d (Asm.signedConst k)] ∧
      ∃ t : State, exec (.movl d (Asm.signedConst k)) s = .next t ∧ Moved d (BitVec.ofInt 16 k) s t) ∧
    (const8Ok (Asm.signedConst k) = false → ∃ (a : Int) (b : Byte), Asm.expandMov d k = [.movl d a, .movh d b] ∧
      (Instr.movl d a).wellFormed = true ∧
      ∃ t u : State, exec (.movl d a) s = .next t ∧ exec (.movh d b) t = .next u ∧ Moved d (BitVec.ofInt 16 k) s u)
end

