-- ==== Sys2Proof/Laws/Alu.lean ====
section
/-! SUPPORT. What the arithmetic, shift and rotate operations compute, in exact numbers and bit by bit
(spec/40_arithmetic.md R140, R150 to R155, spec/42_shift_rotate.md R180 to R188). -/

namespace Sys2Proof.Machine

/-! ## Words as numbers -/

theorem carryWord_eq (c : Bool) : (BitVec.ofBool c).setWidth 16 = carryWord c := by cases c <;> rfl

theorem carryWord_toNat (c : Bool) : (carryWord c).toNat = c.toNat := by cases c <;> rfl

theorem msb_eq (x : Word) : x.msb = decide (32768 ≤ x.toNat) := by
  rw [BitVec.msb_eq_decide]

theorem toInt_eq (x : Word) : x.toInt = if x.toNat < 32768 then (x.toNat : Int) else (x.toNat : Int) - 65536 := by
  rw [BitVec.toInt_eq_toNat_cond]
  have := x.isLt
  split <;> split <;> omega

/-- `setZN` as the flags of a result (R31). -/
theorem setZN_eq (r : Word) : setZN r = resultFlags r none none := by
  simp only [setZN, resultFlags, FlagUpdate.mk.injEq, and_true]
  exact ⟨by rw [beq_eq_decide], by rw [BitVec.msb_eq_getLsbD_last]⟩

/-! ## Addition and subtraction -/

theorem addc_toNat (x y : Word) (c : Bool) : (addc x y c).r.toNat = (x.toNat + y.toNat + c.toNat) % 65536 := by
  have hx := x.isLt
  have hy := y.isLt
  have hc : c.toNat ≤ 1 := Bool.toNat_le c
  simp only [addc, BitVec.toNat_setWidth, BitVec.toNat_add, BitVec.toNat_ofBool]
  omega

/-- The result of an addition with carry. -/
theorem addc_r (x y : Word) (c : Bool) : (addc x y c).r = x + y + carryWord c := by
  apply BitVec.eq_of_toNat_eq
  rw [addc_toNat, BitVec.toNat_add, BitVec.toNat_add, carryWord_toNat]
  omega

/-- C after an addition: the carry out of bit 15. -/
theorem addc_c (x y : Word) (c : Bool) : (addc x y c).c = decide (65536 ≤ x.toNat + y.toNat + c.toNat) := by
  have hx := x.isLt
  have hy := y.isLt
  have hc : c.toNat ≤ 1 := Bool.toNat_le c
  simp only [addc, BitVec.getLsbD, BitVec.toNat_add, BitVec.toNat_setWidth, BitVec.toNat_ofBool, Nat.testBit,
    Nat.shiftRight_eq_div_pow, Nat.and_comm 1, Nat.and_one_is_mod]
  by_cases h : 65536 ≤ x.toNat + y.toNat + c.toNat
  · rw [decide_eq_true h]
    simp
    omega
  · rw [decide_eq_false h]
    simp
    omega

/-- V after an addition: the exact signed sum does not fit. -/
theorem addc_v (x y : Word) (c : Bool) : (addc x y c).v = decide (¬fitsWord (x.toInt + y.toInt + c.toNat)) := by
  have hx := x.isLt
  have hy := y.isLt
  have hc : c.toNat ≤ 1 := Bool.toNat_le c
  have hv : (addc x y c).v = (x.msb == y.msb && (addc x y c).r.msb != x.msb) := rfl
  have hr := addc_toNat x y c
  rw [hv, msb_eq, msb_eq, msb_eq, hr, toInt_eq, toInt_eq, Bool.eq_iff_iff]
  simp only [Bool.and_eq_true, beq_iff_eq, bne_iff_ne, ne_eq, decide_eq_decide, decide_eq_true_eq]
  split <;> split <;> omega

/-- The flags of an addition (R140). -/
theorem addc_flags (x y : Word) (c : Bool) : (addc x y c).flags = sumFlags x y c := by
  simp only [AluResult.flags, sumFlags, setZN_eq, addc_r, addc_c, addc_v, resultFlags]

theorem subb_toNat (x y : Word) (c : Bool) :
    (subb x y c).r.toNat = (x.toNat + 131072 - y.toNat - c.toNat) % 65536 := by
  have hx := x.isLt
  have hy := y.isLt
  have hc : c.toNat ≤ 1 := Bool.toNat_le c
  simp only [subb, BitVec.toNat_sub, BitVec.toNat_setWidth, BitVec.toNat_ofBool]
  omega

/-- The result of a subtraction with borrow. -/
theorem subb_r (x y : Word) (c : Bool) : (subb x y c).r = x - y - carryWord c := by
  simp only [subb, carryWord_eq]

/-- C after a subtraction: the borrow. -/
theorem subb_c (x y : Word) (c : Bool) : (subb x y c).c = decide (x.toNat < y.toNat + c.toNat) := rfl

/-- V after a subtraction: the exact signed difference does not fit. -/
theorem subb_v (x y : Word) (c : Bool) : (subb x y c).v = decide (¬fitsWord (x.toInt - y.toInt - c.toNat)) := by
  have hx := x.isLt
  have hy := y.isLt
  have hc : c.toNat ≤ 1 := Bool.toNat_le c
  have hv : (subb x y c).v = (x.msb != y.msb && (subb x y c).r.msb != x.msb) := rfl
  have hr := subb_toNat x y c
  rw [hv, msb_eq, msb_eq, msb_eq, hr, toInt_eq, toInt_eq, Bool.eq_iff_iff]
  simp only [Bool.and_eq_true, bne_iff_ne, ne_eq, decide_eq_decide, decide_eq_true_eq]
  split <;> split <;> omega

/-- The flags of a subtraction (R140). -/
theorem subb_flags (x y : Word) (c : Bool) : (subb x y c).flags = diffFlags x y c := by
  simp only [AluResult.flags, diffFlags, setZN_eq, subb_r, subb_c, subb_v, resultFlags]

/-! ## Multiplication and division -/

theorem outOfRange_eq (p : Int) : outOfRange p = decide (¬fitsWord p) := by
  simp only [outOfRange, fitsWord, decide_eq_decide]
  omega

/-- DIV rounds toward zero (R150). -/
theorem divWord_eq (x y : Word) : divWord x y = BitVec.ofInt 16 (x.toInt.tdiv y.toInt) := rfl

/-- The remainder of MOD belongs to the quotient rounded toward zero (R152). -/
theorem modWord_eq (x y : Word) : modWord x y = BitVec.ofInt 16 (x.toInt.tmod y.toInt) := by
  have h := Int.mul_tdiv_add_tmod x.toInt y.toInt
  have hq : quotient Param.divRound x.toInt y.toInt = x.toInt.tdiv y.toInt := rfl
  rw [modWord, hq]
  congr 1
  omega

/-! ## Shifts and rotates -/

theorem shiftRight_r (v : Word) (n : Nat) (c : Bool) : (shiftRight v n c).r = BitVec.ofNat 16 (v.toNat / 2 ^ n) := by
  apply BitVec.eq_of_toNat_eq
  have := v.isLt
  have := Nat.div_le_self v.toNat (2 ^ n)
  simp only [shiftRight, BitVec.toNat_ushiftRight, Nat.shiftRight_eq_div_pow, BitVec.toNat_ofNat]
  rw [Nat.mod_eq_of_lt]
  omega

theorem shiftLeft_r (v : Word) (n : Nat) (c : Bool) : (shiftLeft v n c).r = BitVec.ofNat 16 (v.toNat * 2 ^ n) := by
  apply BitVec.eq_of_toNat_eq
  simp only [shiftLeft, BitVec.toNat_shiftLeft, Nat.shiftLeft_eq, BitVec.toNat_ofNat]

theorem shiftRightArith_r (v : Word) (n : Nat) (c : Bool) :
    (shiftRightArith v n c).r = BitVec.ofInt 16 (v.toInt.fdiv (2 ^ n)) := by
  apply BitVec.eq_of_toInt_eq
  have h : (v.sshiftRight n).toInt = v.toInt >>> n := BitVec.toInt_sshiftRight
  have h2 : (v.toInt >>> n : Int) = v.toInt.fdiv (2 ^ n) := by
    rw [Int.shiftRight_eq_div_pow, Int.fdiv_eq_ediv_of_nonneg _ (by positivity)]
    norm_cast
  rw [shiftRightArith, h, h2, ← h2, ← h]
  rw [BitVec.ofInt_toInt]

theorem shlaOverflow_toNat (v : Word) (n : Nat) :
    shlaOverflow v n = decide (v.toNat / 2 ^ (16 - n) % 2 ^ n ≠
      if 32768 ≤ v.toNat * 2 ^ n % 65536 then 2 ^ n - 1 else 0) := by
  rw [shlaOverflow, msb_eq, Bool.eq_iff_iff, bne_iff_ne, ← BitVec.toNat_inj.ne]
  simp only [BitVec.extractLsb'_toNat, Nat.shiftRight_eq_div_pow, BitVec.toNat_shiftLeft, Nat.shiftLeft_eq,
    decide_eq_true_eq, apply_ite BitVec.toNat, BitVec.toNat_allOnes, BitVec.toNat_ofNat, Nat.zero_mod]

/-- The bits that leave SHLA against the new sign: overflow exactly when the operand times 2^n does not fit (R184). -/
theorem shlaOverflow_eq (v : Word) (n : Fin 16) :
    shlaOverflow v n.val = decide (¬fitsWord (v.toInt * 2 ^ n.val)) := by
  have hv := v.isLt
  rw [shlaOverflow_toNat, toInt_eq, decide_eq_decide]
  fin_cases n <;> simp <;> split_ifs <;> omega

/-- A rotation to the right takes bit j from bit j + n, counted round the word. -/
theorem rotateRight_bit {w : Nat} (x : BitVec w) {n j : Nat} (hn : n < w) (hj : j < w) :
    (x.rotateRight n).getLsbD j = x.getLsbD ((j + n) % w) := by
  rw [BitVec.getLsbD_rotateRight, Nat.mod_eq_of_lt hn]
  by_cases h : j < w - n
  · rw [decide_eq_true h, cond_true, Nat.mod_eq_of_lt (by omega), Nat.add_comm]
  · rw [decide_eq_false h, cond_false, Nat.mod_eq_sub_mod (by omega), Nat.mod_eq_of_lt (by omega)]
    have : j - (w - n) = j + n - w := by omega
    simp [hj, this]

/-- A rotation to the left brings bit j to bit j + n, counted round the word. -/
theorem rotateLeft_bit {w : Nat} (x : BitVec w) {n j : Nat} (hn : n < w) (hj : j < w) :
    (x.rotateLeft n).getLsbD ((j + n) % w) = x.getLsbD j := by
  rw [BitVec.getLsbD_rotateLeft, Nat.mod_eq_of_lt hn]
  by_cases h : j + n < w
  · rw [Nat.mod_eq_of_lt h, decide_eq_false (by omega), cond_false]
    simp [h]
  · rw [Nat.mod_eq_sub_mod (by omega), Nat.mod_eq_of_lt (by omega), decide_eq_true (by omega), cond_true]
    congr 1
    omega

theorem rotRight_bit (v : Word) (n : Fin 16) (c : Bool) {j : Nat} (hj : j < 16) :
    (rotRight v n.val c).r.getLsbD j = v.getLsbD ((j + n.val) % 16) := rotateRight_bit v n.isLt hj

theorem rotLeft_bit (v : Word) (n : Fin 16) (c : Bool) {j : Nat} (hj : j < 16) :
    (rotLeft v n.val c).r.getLsbD ((j + n.val) % 16) = v.getLsbD j := rotateLeft_bit v n.isLt hj

/-- The carry of a right shift or rotate (R180). -/
theorem carryRight_eq (v : Word) (n : Fin 16) (c : Bool) :
    some (carryRight v n.val c) = lastBitOut v n (n.val - 1) c := by
  simp [carryRight, lastBitOut, ← Fin.val_eq_zero_iff]

/-- The carry of a left shift or rotate (R180). -/
theorem carryLeft_eq (v : Word) (n : Fin 16) (c : Bool) :
    some (carryLeft v n.val c) = lastBitOut v n (16 - n.val) c := by
  simp [carryLeft, lastBitOut, ← Fin.val_eq_zero_iff]

/-- The flags of a shift or rotate: Z and N of the result, C as computed, V not listed (R180). -/
theorem ShiftResult.flags_eq (x : ShiftResult) : x.flags = resultFlags x.r (some x.c) none := by
  simp only [ShiftResult.flags, setZN_eq, resultFlags]

/-- The ring of RORC and ROLC: the word and, at position 16, the carry. -/
def ringBit (v : Word) (c : Bool) (j : Nat) : Bool := if j = 16 then c else v.getLsbD j

/-- RORC takes ring bit j from ring bit j + n (R187). -/
theorem rotRightCarry_bit (v : Word) (n : Fin 16) (c : Bool) {j : Nat} (hj : j < 17) :
    ringBit (rotRightCarry v n.val c).r (rotRightCarry v n.val c).c j = ringBit v c ((j + n.val) % 17) := by
  have key : ∀ k, k < 17 → ((v ++ BitVec.ofBool c : BitVec 17).rotateRight n.val).getLsbD k =
      (v ++ BitVec.ofBool c : BitVec 17).getLsbD ((k + n.val) % 17) :=
    fun k hk => rotateRight_bit _ (by omega) hk
  have old : ∀ k, k < 17 → (v ++ BitVec.ofBool c : BitVec 17).getLsbD ((k + 1) % 17) = ringBit v c k := by
    intro k hk
    rw [BitVec.getLsbD_append, ringBit]
    by_cases h : k = 16
    · subst h; simp
    · rw [Nat.mod_eq_of_lt (by omega), if_neg h]; simp
  have lhs : ringBit (rotRightCarry v n.val c).r (rotRightCarry v n.val c).c j =
      ((v ++ BitVec.ofBool c : BitVec 17).rotateRight n.val).getLsbD ((j + 1) % 17) := by
    simp only [ringBit, rotRightCarry]
    by_cases h : j = 16
    · subst h; rw [if_pos rfl]
    · rw [if_neg h, BitVec.getLsbD_extractLsb', Nat.mod_eq_of_lt (by omega)]
      have : j < 16 := by omega
      simp [this, Nat.add_comm]
  rw [lhs, key _ (Nat.mod_lt _ (by omega)), ← old _ (Nat.mod_lt _ (by omega))]
  congr 1
  omega

/-- ROLC brings ring bit j to ring bit j + n (R188). -/
theorem rotLeftCarry_bit (v : Word) (n : Fin 16) (c : Bool) {j : Nat} (hj : j < 17) :
    ringBit (rotLeftCarry v n.val c).r (rotLeftCarry v n.val c).c ((j + n.val) % 17) = ringBit v c j := by
  have key : ((BitVec.ofBool c ++ v : BitVec 17).rotateLeft n.val).getLsbD ((j + n.val) % 17) =
      (BitVec.ofBool c ++ v : BitVec 17).getLsbD j := rotateLeft_bit _ (by omega) hj
  have old : (BitVec.ofBool c ++ v : BitVec 17).getLsbD j = ringBit v c j := by
    rw [BitVec.getLsbD_append, ringBit]
    by_cases h : j = 16
    · subst h; simp
    · have : j < 16 := by omega
      simp [h, this]
  have new : ∀ k, k < 17 → ringBit (rotLeftCarry v n.val c).r (rotLeftCarry v n.val c).c k =
      ((BitVec.ofBool c ++ v : BitVec 17).rotateLeft n.val).getLsbD k := by
    intro k hk
    simp only [ringBit, rotLeftCarry]
    by_cases h : k = 16
    · subst h; rw [if_pos rfl]
    · have : k < 16 := by omega
      rw [if_neg h, BitVec.getLsbD_extractLsb']
      simp [this]
  rw [new _ (Nat.mod_lt _ (by omega)), key, old]

end Sys2Proof.Machine
end

