-- ==== Sys2Proof/Laws/Decode.lean ====
section
/-! SUPPORT. The fields of an instruction word: what packing and reading them back gives, and that each operand's field
gives the operand back (spec/30_encoding.md R101, R110 to R115). -/

namespace Sys2Proof

/-! ## Fields of a packed word -/

@[simp] theorem op1Of_packF (x y a b : Nibble) : op1Of (packF x y a b) = x := by
  ext i hi; simp [op1Of, packF]; grind

@[simp] theorem op2Of_packF (x y a b : Nibble) : op2Of (packF x y a b) = y := by
  ext i hi; simp [op2Of, packF]; grind

@[simp] theorem fieldA_packF (x y a b : Nibble) : fieldA (packF x y a b) = a := by
  ext i hi; simp [fieldA, packF]; grind

@[simp] theorem fieldB_packF (x y a b : Nibble) : fieldB (packF x y a b) = b := by
  ext i hi; simp [fieldB, packF]; grind

@[simp] theorem op1Of_packC8 (x y : Nibble) (c : Byte) : op1Of (packC8 x y c) = x := by
  ext i hi; simp [op1Of, packC8]; grind

@[simp] theorem op2Of_packC8 (x y : Nibble) (c : Byte) : op2Of (packC8 x y c) = y := by
  ext i hi; simp [op2Of, packC8]; grind

@[simp] theorem const8_packC8 (x y : Nibble) (c : Byte) : const8 (packC8 x y c) = c := by
  ext i hi; simp [const8, packC8]; grind

@[simp] theorem op1Of_packC12 (x : Nibble) (c : BitVec 12) : op1Of (packC12 x c) = x := by
  ext i hi; simp [op1Of, packC12]; grind

@[simp] theorem const12_packC12 (x : Nibble) (c : BitVec 12) : const12 (packC12 x c) = c := by
  ext i hi; simp [const12, packC12]; grind

/-- A word is its four fields (R101). -/
theorem packF_fields (w : Word) : packF (op1Of w) (op2Of w) (fieldA w) (fieldB w) = w := by
  ext i hi; simp [packF, op1Of, op2Of, fieldA, fieldB]; grind

/-- A word is its two opcodes and its 8-bit constant (R102). -/
theorem packC8_fields (w : Word) : packC8 (op1Of w) (op2Of w) (const8 w) = w := by
  ext i hi; simp [packC8, op1Of, op2Of, const8]; grind

/-- A word is its first opcode and its 12-bit constant (R102). -/
theorem packC12_fields (w : Word) : packC12 (op1Of w) (const12 w) = w := by
  ext i hi; simp [packC12, op1Of, const12]; grind

/-! ## Opcode names and their numbers -/

/-- Under an injective numbering a name's number has that name (R104). -/
theorem nameOf_number {α : Type} {names : List α} {number : α → Nibble}
    (inj : ∀ x y, number x = number y → x = y) {n : α} (h : n ∈ names) : nameOf names number (number n) = some n := by
  unfold nameOf
  induction names with
  | nil => cases h
  | cons x l ih =>
    rw [List.find?_cons]
    by_cases hx : number x = number n
    · simp [inj x n hx]
    · have hn : n ∈ l := by
        rcases List.mem_cons.mp h with rfl | h
        · exact absurd rfl hx
        · exact h
      rw [beq_eq_false_iff_ne.mpr hx]
      exact ih hn

/-- The name of a number has that number. -/
theorem number_of_nameOf {α : Type} {names : List α} {number : α → Nibble} {f : Nibble} {n : α}
    (h : nameOf names number f = some n) : number n = f := by
  simpa using List.find?_some h

theorem Op1.mem_names (n : Op1) : n ∈ Op1.names := by cases n <;> decide
theorem Aritop.mem_names (n : Aritop) : n ∈ Aritop.names := by cases n <;> decide
theorem Bitop.mem_names (n : Bitop) : n ∈ Bitop.names := by cases n <;> decide
theorem Xfer.mem_names (n : Xfer) : n ∈ Xfer.names := by cases n <;> decide
theorem CondOp.mem_names (n : CondOp) : n ∈ CondOp.names := by cases n <;> decide
theorem CodeOp.mem_names (n : CodeOp) : n ∈ CodeOp.names := by cases n <;> decide

/-- Decoding a word whose first opcode is a name's number (R119 (1)). -/
theorem decodeWith_named {m : OpcodeMap} (h : m.injective) {w : Word} {n : Op1} (hw : op1Of w = m.op1 n) :
    decodeWith m w = decodeNamed m w n := by
  rw [decodeWith, hw, nameOf_number h.1 (Op1.mem_names n)]

theorem decodeWith_packF {m : OpcodeMap} (h : m.injective) (n : Op1) (y a b : Nibble) :
    decodeWith m (packF (m.op1 n) y a b) = decodeNamed m (packF (m.op1 n) y a b) n :=
  decodeWith_named h (op1Of_packF ..)

theorem decodeWith_packC8 {m : OpcodeMap} (h : m.injective) (n : Op1) (y : Nibble) (c : Byte) :
    decodeWith m (packC8 (m.op1 n) y c) = decodeNamed m (packC8 (m.op1 n) y c) n :=
  decodeWith_named h (op1Of_packC8 ..)

theorem decodeWith_packC12 {m : OpcodeMap} (h : m.injective) (n : Op1) (c : BitVec 12) :
    decodeWith m (packC12 (m.op1 n) c) = decodeNamed m (packC12 (m.op1 n) c) n :=
  decodeWith_named h (op1Of_packC12 ..)

/-- The instruction of a second opcode that is a name's number (R119 (3)). -/
theorem classInstr_number {α : Type} {names : List α} {number : α → Nibble}
    (inj : ∀ x y, number x = number y → x = y) {n : α} (h : n ∈ names) (f : α → Instr) (op1 : Nibble) :
    classInstr names number f op1 (number n) = .ok (f n) := by
  rw [classInstr, nameOf_number inj h]

/-! ## Operands and their fields -/

/-- A register's field names that register (R110). -/
@[simp] theorem ofField_toField (r : Reg) : Reg.ofField r.toField = r := by
  cases r with
  | r n => revert n; decide
  | _ => rfl

/-- Every value of a register field is a register's number (R110, R118). -/
@[simp] theorem toField_ofField (f : Nibble) : (Reg.ofField f).toField = f := by
  revert f; decide

@[simp] theorem numOf_numField (n : Fin 16) : numOf (numField n) = n := by
  revert n; decide

@[simp] theorem numField_numOf (f : Nibble) : numField (numOf f) = f := by
  revert f; decide

/-- A 4-bit signed constant in its range is read back (R111). -/
theorem toInt_ofInt4 {k : Int} (h : const4Ok k = true) : (BitVec.ofInt 4 k).toInt = k := by
  simp [const4Ok] at h
  rw [BitVec.toInt_ofInt, Int.bmod_eq_of_le] <;> omega

/-- An 8-bit signed constant in its range is read back (R114, R115). -/
theorem toInt_ofInt8 {k : Int} (h : const8Ok k = true) : (BitVec.ofInt 8 k).toInt = k := by
  simp [const8Ok] at h
  rw [BitVec.toInt_ofInt, Int.bmod_eq_of_le] <;> omega

/-- A 12-bit displacement in its range is read back (R115). -/
theorem toInt_ofInt12 {k : Int} (h : const12Ok k = true) : (BitVec.ofInt 12 k).toInt = k := by
  simp [const12Ok] at h
  rw [BitVec.toInt_ofInt, Int.bmod_eq_of_le] <;> omega

/-- An even byte offset in its range is read back (R113). -/
theorem offsetOf_offsetField {off : Int} (h : offsetOk off = true) : offsetOf (offsetField off) = off := by
  simp [offsetOk] at h
  unfold offsetOf offsetField
  rw [BitVec.toInt_ofInt, Int.bmod_eq_of_le] <;> omega

theorem const4Ok_toInt (f : Nibble) : const4Ok f.toInt = true := by
  revert f; decide

theorem const8Ok_toInt (c : Byte) : const8Ok c.toInt = true := by
  have h1 := BitVec.le_toInt c
  have h2 := @BitVec.toInt_lt 8 c
  simp [const8Ok]; omega

theorem const12Ok_toInt (c : BitVec 12) : const12Ok c.toInt = true := by
  have h1 := BitVec.le_toInt c
  have h2 := @BitVec.toInt_lt 12 c
  simp [const12Ok]; omega

theorem offsetOk_offsetOf (f : Nibble) : offsetOk (offsetOf f) = true := by
  revert f; decide

@[simp] theorem offsetField_offsetOf (f : Nibble) : offsetField (offsetOf f) = f := by
  revert f; decide

end Sys2Proof
end

