-- ==== Sys2Proof/Laws/Flags.lean ====
section
/-! SUPPORT. What a flag assignment does to each bit of RE (spec/10_state.md R31 to R33). -/

namespace Sys2Proof.Machine

theorem getLsbD_putBit (w : Word) (n : Nat) (b : Bool) (hn : n < 16) (j : Nat) :
    (putBit w n b).getLsbD j = if j = n then b else w.getLsbD j := by
  by_cases hj : j < 16
  · have h1 : (1#16 <<< n).getLsbD j = decide (j = n) := by
      rw [BitVec.getLsbD_shiftLeft, BitVec.getLsbD_one]
      by_cases h : j = n
      · simp [hn, h]
      · by_cases h2 : j < n
        · simp [h, h2]
        · have : j - n ≠ 0 := by omega
          simp [h, this]
    unfold putBit
    cases b
    · rw [if_neg (by decide), BitVec.getLsbD_and, BitVec.getLsbD_not, h1]
      by_cases h : j = n <;> simp [h, hj]
    · rw [if_pos rfl, BitVec.getLsbD_or, h1]
      by_cases h : j = n <;> simp [h]
  · rw [BitVec.getLsbD_of_ge _ _ (by omega), BitVec.getLsbD_of_ge _ _ (by omega), if_neg (by omega)]

theorem getLsbD_putFlag (w : Word) (n : Nat) (f : Option Bool) (hn : n < 16) (j : Nat) :
    (putFlag w n f).getLsbD j = if j = n then f.getD (w.getLsbD n) else w.getLsbD j := by
  cases f with
  | none => by_cases h : j = n <;> simp [putFlag, h]
  | some b => simp [putFlag, getLsbD_putBit w n b hn j]

/-- Bit by bit, what the flag assignments of an instruction leave in RE (R33). -/
theorem apply_flagsWritten (u : FlagUpdate) (re : Word) : FlagsWritten u re (u.apply re) := by
  intro n
  unfold FlagUpdate.apply
  simp only [getLsbD_putFlag _ _ _ (show bitZ < 16 by decide), getLsbD_putFlag _ _ _ (show bitN < 16 by decide),
    getLsbD_putFlag _ _ _ (show bitC < 16 by decide), getLsbD_putFlag _ _ _ (show bitV < 16 by decide)]
  match n with
  | 0 => rfl
  | 1 => rfl
  | 2 => rfl
  | 3 => rfl
  | n + 4 =>
    rw [if_neg (by simp [bitV]), if_neg (by simp [bitC]), if_neg (by simp [bitN]), if_neg (by simp [bitZ])]
    rfl

/-- A bit of RE above the status flags is never changed by a flag assignment; NP is one of them. -/
theorem apply_getLsbD_high (u : FlagUpdate) (re : Word) (n : Nat) (h : 4 ≤ n) :
    (u.apply re).getLsbD n = re.getLsbD n := by
  rw [apply_flagsWritten u re n]
  match n, h with
  | n + 4, _ => rfl

end Sys2Proof.Machine
end

