-- ==== Sys2Proof/Laws/State.lean ====
section
/-! SUPPORT. One lemma per field per update of State: what each named update leaves of each field, so that no proof
unfolds a record update. -/

namespace Sys2Proof.Machine

/-! ## A physical register written -/

@[simp] theorem set_pc (s : State) (p : Phys) (v : Word) : (s.set p v).pc = s.pc := by cases p <;> rfl
@[simp] theorem set_ip (s : State) (p : Phys) (v : Word) : (s.set p v).ip = s.ip := by cases p <;> rfl
@[simp] theorem set_intPins (s : State) (p : Phys) (v : Word) : (s.set p v).intPins = s.intPins := by cases p <;> rfl
@[simp] theorem set_restart (s : State) (p : Phys) (v : Word) : (s.set p v).restart = s.restart := by cases p <;> rfl
@[simp] theorem set_inta (s : State) (p : Phys) (v : Word) : (s.set p v).inta = s.inta := by cases p <;> rfl
@[simp] theorem set_bgt (s : State) (p : Phys) (v : Word) : (s.set p v).bgt = s.bgt := by cases p <;> rfl
@[simp] theorem set_run (s : State) (p : Phys) (v : Word) : (s.set p v).run = s.run := by cases p <;> rfl
@[simp] theorem set_mem (s : State) (p : Phys) (v : Word) : (s.set p v).mem = s.mem := by cases p <;> rfl
@[simp] theorem set_map (s : State) (p : Phys) (v : Word) : (s.set p v).map = s.map := by cases p <;> rfl
@[simp] theorem set_dev (s : State) (p : Phys) (v : Word) : (s.set p v).dev = s.dev := by cases p <;> rfl
@[simp] theorem set_inputs (s : State) (p : Phys) (v : Word) : (s.set p v).inputs = s.inputs := by cases p <;> rfl
@[simp] theorem set_draws (s : State) (p : Phys) (v : Word) : (s.set p v).draws = s.draws := by cases p <;> rfl
@[simp] theorem set_kindAt (s : State) (p : Phys) (v : Word) (c : Word) :
    (s.set p v).kindAt c = s.kindAt c := by simp [State.kindAt]
@[simp] theorem set_readByte (s : State) (p : Phys) (v : Word) (c : Word) :
    (s.set p v).readByte c = s.readByte c := by simp [State.readByte]

/-! ## A numbered register written -/

@[simp] theorem setX_pc (s : State) (r : Reg) (v : Word) : (s.setX r v).pc = s.pc := set_pc ..
@[simp] theorem setX_ip (s : State) (r : Reg) (v : Word) : (s.setX r v).ip = s.ip := set_ip ..
@[simp] theorem setX_intPins (s : State) (r : Reg) (v : Word) : (s.setX r v).intPins = s.intPins := set_intPins ..
@[simp] theorem setX_restart (s : State) (r : Reg) (v : Word) : (s.setX r v).restart = s.restart := set_restart ..
@[simp] theorem setX_inta (s : State) (r : Reg) (v : Word) : (s.setX r v).inta = s.inta := set_inta ..
@[simp] theorem setX_bgt (s : State) (r : Reg) (v : Word) : (s.setX r v).bgt = s.bgt := set_bgt ..
@[simp] theorem setX_run (s : State) (r : Reg) (v : Word) : (s.setX r v).run = s.run := set_run ..
@[simp] theorem setX_mem (s : State) (r : Reg) (v : Word) : (s.setX r v).mem = s.mem := set_mem ..
@[simp] theorem setX_map (s : State) (r : Reg) (v : Word) : (s.setX r v).map = s.map := set_map ..
@[simp] theorem setX_dev (s : State) (r : Reg) (v : Word) : (s.setX r v).dev = s.dev := set_dev ..
@[simp] theorem setX_inputs (s : State) (r : Reg) (v : Word) : (s.setX r v).inputs = s.inputs := set_inputs ..
@[simp] theorem setX_draws (s : State) (r : Reg) (v : Word) : (s.setX r v).draws = s.draws := set_draws ..
@[simp] theorem setX_kindAt (s : State) (r : Reg) (v : Word) (c : Word) :
    (s.setX r v).kindAt c = s.kindAt c := by simp [State.kindAt]
@[simp] theorem setX_readByte (s : State) (r : Reg) (v : Word) (c : Word) :
    (s.setX r v).readByte c = s.readByte c := by simp [State.readByte]

/-! ## pc advanced -/

@[simp] theorem advance_pc (s : State) : s.advance.pc = s.eis := rfl
@[simp] theorem advance_gpr (s : State) : s.advance.gpr = s.gpr := rfl
@[simp] theorem advance_rl (s : State) : s.advance.rl = s.rl := rfl
@[simp] theorem advance_ssp (s : State) : s.advance.ssp = s.ssp := rfl
@[simp] theorem advance_usp (s : State) : s.advance.usp = s.usp := rfl
@[simp] theorem advance_re (s : State) : s.advance.re = s.re := rfl
@[simp] theorem advance_bte (s : State) : s.advance.bte = s.bte := rfl
@[simp] theorem advance_temp (s : State) : s.advance.temp = s.temp := rfl
@[simp] theorem advance_rcn (s : State) : s.advance.rcn = s.rcn := rfl
@[simp] theorem advance_ip (s : State) : s.advance.ip = s.ip := rfl
@[simp] theorem advance_intPins (s : State) : s.advance.intPins = s.intPins := rfl
@[simp] theorem advance_restart (s : State) : s.advance.restart = s.restart := rfl
@[simp] theorem advance_inta (s : State) : s.advance.inta = s.inta := rfl
@[simp] theorem advance_bgt (s : State) : s.advance.bgt = s.bgt := rfl
@[simp] theorem advance_run (s : State) : s.advance.run = s.run := rfl
@[simp] theorem advance_mem (s : State) : s.advance.mem = s.mem := rfl
@[simp] theorem advance_map (s : State) : s.advance.map = s.map := rfl
@[simp] theorem advance_dev (s : State) : s.advance.dev = s.dev := rfl
@[simp] theorem advance_inputs (s : State) : s.advance.inputs = s.inputs := rfl
@[simp] theorem advance_draws (s : State) : s.advance.draws = s.draws := rfl
@[simp] theorem advance_get (s : State) (p : Phys) : s.advance.get p = s.get p := by cases p <;> rfl
@[simp] theorem advance_kindAt (s : State) (c : Word) : s.advance.kindAt c = s.kindAt c := rfl
@[simp] theorem advance_readByte (s : State) (c : Word) : s.advance.readByte c = s.readByte c := rfl

/-! ## Flags assigned -/

@[simp] theorem setFlags_pc (s : State) (u : FlagUpdate) : (s.setFlags u).pc = s.pc := rfl
@[simp] theorem setFlags_gpr (s : State) (u : FlagUpdate) : (s.setFlags u).gpr = s.gpr := rfl
@[simp] theorem setFlags_rl (s : State) (u : FlagUpdate) : (s.setFlags u).rl = s.rl := rfl
@[simp] theorem setFlags_ssp (s : State) (u : FlagUpdate) : (s.setFlags u).ssp = s.ssp := rfl
@[simp] theorem setFlags_usp (s : State) (u : FlagUpdate) : (s.setFlags u).usp = s.usp := rfl
@[simp] theorem setFlags_re (s : State) (u : FlagUpdate) : (s.setFlags u).re = u.apply s.re := rfl
@[simp] theorem setFlags_bte (s : State) (u : FlagUpdate) : (s.setFlags u).bte = s.bte := rfl
@[simp] theorem setFlags_temp (s : State) (u : FlagUpdate) : (s.setFlags u).temp = s.temp := rfl
@[simp] theorem setFlags_rcn (s : State) (u : FlagUpdate) : (s.setFlags u).rcn = s.rcn := rfl
@[simp] theorem setFlags_ip (s : State) (u : FlagUpdate) : (s.setFlags u).ip = s.ip := rfl
@[simp] theorem setFlags_intPins (s : State) (u : FlagUpdate) : (s.setFlags u).intPins = s.intPins := rfl
@[simp] theorem setFlags_restart (s : State) (u : FlagUpdate) : (s.setFlags u).restart = s.restart := rfl
@[simp] theorem setFlags_inta (s : State) (u : FlagUpdate) : (s.setFlags u).inta = s.inta := rfl
@[simp] theorem setFlags_bgt (s : State) (u : FlagUpdate) : (s.setFlags u).bgt = s.bgt := rfl
@[simp] theorem setFlags_run (s : State) (u : FlagUpdate) : (s.setFlags u).run = s.run := rfl
@[simp] theorem setFlags_mem (s : State) (u : FlagUpdate) : (s.setFlags u).mem = s.mem := rfl
@[simp] theorem setFlags_map (s : State) (u : FlagUpdate) : (s.setFlags u).map = s.map := rfl
@[simp] theorem setFlags_dev (s : State) (u : FlagUpdate) : (s.setFlags u).dev = s.dev := rfl
@[simp] theorem setFlags_inputs (s : State) (u : FlagUpdate) : (s.setFlags u).inputs = s.inputs := rfl
@[simp] theorem setFlags_draws (s : State) (u : FlagUpdate) : (s.setFlags u).draws = s.draws := rfl
@[simp] theorem setFlags_kindAt (s : State) (u : FlagUpdate) (c : Word) : (s.setFlags u).kindAt c = s.kindAt c := rfl
@[simp] theorem setFlags_readByte (s : State) (u : FlagUpdate) (c : Word) :
    (s.setFlags u).readByte c = s.readByte c := rfl

/-! ## A result committed -/

@[simp] theorem commit_pc (s : State) (d : Reg) (r : Word) (u : FlagUpdate) : (s.commit d r u).pc = s.pc := by
  unfold State.commit; split <;> simp
@[simp] theorem commit_ip (s : State) (d : Reg) (r : Word) (u : FlagUpdate) : (s.commit d r u).ip = s.ip := by
  unfold State.commit; split <;> simp
@[simp] theorem commit_intPins (s : State) (d : Reg) (r : Word) (u : FlagUpdate) :
    (s.commit d r u).intPins = s.intPins := by
  unfold State.commit; split <;> simp
@[simp] theorem commit_restart (s : State) (d : Reg) (r : Word) (u : FlagUpdate) :
    (s.commit d r u).restart = s.restart := by
  unfold State.commit; split <;> simp
@[simp] theorem commit_inta (s : State) (d : Reg) (r : Word) (u : FlagUpdate) : (s.commit d r u).inta = s.inta := by
  unfold State.commit; split <;> simp
@[simp] theorem commit_bgt (s : State) (d : Reg) (r : Word) (u : FlagUpdate) : (s.commit d r u).bgt = s.bgt := by
  unfold State.commit; split <;> simp
@[simp] theorem commit_run (s : State) (d : Reg) (r : Word) (u : FlagUpdate) : (s.commit d r u).run = s.run := by
  unfold State.commit; split <;> simp
@[simp] theorem commit_mem (s : State) (d : Reg) (r : Word) (u : FlagUpdate) : (s.commit d r u).mem = s.mem := by
  unfold State.commit; split <;> simp
@[simp] theorem commit_map (s : State) (d : Reg) (r : Word) (u : FlagUpdate) : (s.commit d r u).map = s.map := by
  unfold State.commit; split <;> simp
@[simp] theorem commit_dev (s : State) (d : Reg) (r : Word) (u : FlagUpdate) : (s.commit d r u).dev = s.dev := by
  unfold State.commit; split <;> simp
@[simp] theorem commit_inputs (s : State) (d : Reg) (r : Word) (u : FlagUpdate) :
    (s.commit d r u).inputs = s.inputs := by
  unfold State.commit; split <;> simp
@[simp] theorem commit_draws (s : State) (d : Reg) (r : Word) (u : FlagUpdate) : (s.commit d r u).draws = s.draws := by
  unfold State.commit; split <;> simp
@[simp] theorem commit_kindAt (s : State) (d : Reg) (r : Word) (u : FlagUpdate) (c : Word) :
    (s.commit d r u).kindAt c = s.kindAt c := by simp [State.kindAt]
@[simp] theorem commit_readByte (s : State) (d : Reg) (r : Word) (u : FlagUpdate) (c : Word) :
    (s.commit d r u).readByte c = s.readByte c := by simp [State.readByte]

/-! ## A 16-bit free value drawn -/

@[simp] theorem drawWord_pc (s : State) : s.drawWord.2.pc = s.pc := rfl
@[simp] theorem drawWord_gpr (s : State) : s.drawWord.2.gpr = s.gpr := rfl
@[simp] theorem drawWord_rl (s : State) : s.drawWord.2.rl = s.rl := rfl
@[simp] theorem drawWord_ssp (s : State) : s.drawWord.2.ssp = s.ssp := rfl
@[simp] theorem drawWord_usp (s : State) : s.drawWord.2.usp = s.usp := rfl
@[simp] theorem drawWord_re (s : State) : s.drawWord.2.re = s.re := rfl
@[simp] theorem drawWord_bte (s : State) : s.drawWord.2.bte = s.bte := rfl
@[simp] theorem drawWord_temp (s : State) : s.drawWord.2.temp = s.temp := rfl
@[simp] theorem drawWord_rcn (s : State) : s.drawWord.2.rcn = s.rcn := rfl
@[simp] theorem drawWord_ip (s : State) : s.drawWord.2.ip = s.ip := rfl
@[simp] theorem drawWord_intPins (s : State) : s.drawWord.2.intPins = s.intPins := rfl
@[simp] theorem drawWord_restart (s : State) : s.drawWord.2.restart = s.restart := rfl
@[simp] theorem drawWord_inta (s : State) : s.drawWord.2.inta = s.inta := rfl
@[simp] theorem drawWord_bgt (s : State) : s.drawWord.2.bgt = s.bgt := rfl
@[simp] theorem drawWord_run (s : State) : s.drawWord.2.run = s.run := rfl
@[simp] theorem drawWord_mem (s : State) : s.drawWord.2.mem = s.mem := rfl
@[simp] theorem drawWord_map (s : State) : s.drawWord.2.map = s.map := rfl
@[simp] theorem drawWord_dev (s : State) : s.drawWord.2.dev = s.dev := rfl
@[simp] theorem drawWord_inputs (s : State) : s.drawWord.2.inputs = s.inputs := rfl
@[simp] theorem drawWord_draws (s : State) : s.drawWord.2.draws = s.draws + 1 := rfl
@[simp] theorem drawWord_get (s : State) (p : Phys) : s.drawWord.2.get p = s.get p := by cases p <;> rfl
@[simp] theorem drawWord_kindAt (s : State) (c : Word) : s.drawWord.2.kindAt c = s.kindAt c := rfl
@[simp] theorem drawWord_readByte (s : State) (c : Word) : s.drawWord.2.readByte c = s.readByte c := rfl

/-! ## A 1-bit free value drawn -/

@[simp] theorem drawBit_pc (s : State) : s.drawBit.2.pc = s.pc := rfl
@[simp] theorem drawBit_gpr (s : State) : s.drawBit.2.gpr = s.gpr := rfl
@[simp] theorem drawBit_rl (s : State) : s.drawBit.2.rl = s.rl := rfl
@[simp] theorem drawBit_ssp (s : State) : s.drawBit.2.ssp = s.ssp := rfl
@[simp] theorem drawBit_usp (s : State) : s.drawBit.2.usp = s.usp := rfl
@[simp] theorem drawBit_re (s : State) : s.drawBit.2.re = s.re := rfl
@[simp] theorem drawBit_bte (s : State) : s.drawBit.2.bte = s.bte := rfl
@[simp] theorem drawBit_temp (s : State) : s.drawBit.2.temp = s.temp := rfl
@[simp] theorem drawBit_rcn (s : State) : s.drawBit.2.rcn = s.rcn := rfl
@[simp] theorem drawBit_ip (s : State) : s.drawBit.2.ip = s.ip := rfl
@[simp] theorem drawBit_intPins (s : State) : s.drawBit.2.intPins = s.intPins := rfl
@[simp] theorem drawBit_restart (s : State) : s.drawBit.2.restart = s.restart := rfl
@[simp] theorem drawBit_inta (s : State) : s.drawBit.2.inta = s.inta := rfl
@[simp] theorem drawBit_bgt (s : State) : s.drawBit.2.bgt = s.bgt := rfl
@[simp] theorem drawBit_run (s : State) : s.drawBit.2.run = s.run := rfl
@[simp] theorem drawBit_mem (s : State) : s.drawBit.2.mem = s.mem := rfl
@[simp] theorem drawBit_map (s : State) : s.drawBit.2.map = s.map := rfl
@[simp] theorem drawBit_dev (s : State) : s.drawBit.2.dev = s.dev := rfl
@[simp] theorem drawBit_inputs (s : State) : s.drawBit.2.inputs = s.inputs := rfl
@[simp] theorem drawBit_draws (s : State) : s.drawBit.2.draws = s.draws + 1 := rfl
@[simp] theorem drawBit_get (s : State) (p : Phys) : s.drawBit.2.get p = s.get p := by cases p <;> rfl
@[simp] theorem drawBit_kindAt (s : State) (c : Word) : s.drawBit.2.kindAt c = s.kindAt c := rfl
@[simp] theorem drawBit_readByte (s : State) (c : Word) : s.drawBit.2.readByte c = s.readByte c := rfl

/-! ## The peripherals after an access -/

@[simp] theorem withDev_pc (s : State) (d : Device) : (s.withDev d).pc = s.pc := rfl
@[simp] theorem withDev_gpr (s : State) (d : Device) : (s.withDev d).gpr = s.gpr := rfl
@[simp] theorem withDev_rl (s : State) (d : Device) : (s.withDev d).rl = s.rl := rfl
@[simp] theorem withDev_ssp (s : State) (d : Device) : (s.withDev d).ssp = s.ssp := rfl
@[simp] theorem withDev_usp (s : State) (d : Device) : (s.withDev d).usp = s.usp := rfl
@[simp] theorem withDev_re (s : State) (d : Device) : (s.withDev d).re = s.re := rfl
@[simp] theorem withDev_bte (s : State) (d : Device) : (s.withDev d).bte = s.bte := rfl
@[simp] theorem withDev_temp (s : State) (d : Device) : (s.withDev d).temp = s.temp := rfl
@[simp] theorem withDev_rcn (s : State) (d : Device) : (s.withDev d).rcn = s.rcn := rfl
@[simp] theorem withDev_ip (s : State) (d : Device) : (s.withDev d).ip = s.ip := rfl
@[simp] theorem withDev_intPins (s : State) (d : Device) : (s.withDev d).intPins = s.intPins := rfl
@[simp] theorem withDev_restart (s : State) (d : Device) : (s.withDev d).restart = s.restart := rfl
@[simp] theorem withDev_inta (s : State) (d : Device) : (s.withDev d).inta = s.inta := rfl
@[simp] theorem withDev_bgt (s : State) (d : Device) : (s.withDev d).bgt = s.bgt := rfl
@[simp] theorem withDev_run (s : State) (d : Device) : (s.withDev d).run = s.run := rfl
@[simp] theorem withDev_mem (s : State) (d : Device) : (s.withDev d).mem = s.mem := rfl
@[simp] theorem withDev_map (s : State) (d : Device) : (s.withDev d).map = s.map := rfl
@[simp] theorem withDev_dev (s : State) (d : Device) : (s.withDev d).dev = d := rfl
@[simp] theorem withDev_inputs (s : State) (d : Device) : (s.withDev d).inputs = s.inputs := rfl
@[simp] theorem withDev_draws (s : State) (d : Device) : (s.withDev d).draws = s.draws := rfl
@[simp] theorem withDev_get (s : State) (d : Device) (p : Phys) : (s.withDev d).get p = s.get p := by cases p <;> rfl
@[simp] theorem withDev_kindAt (s : State) (d : Device) (c : Word) : (s.withDev d).kindAt c = s.kindAt c := rfl
@[simp] theorem withDev_readByte (s : State) (d : Device) (c : Word) : (s.withDev d).readByte c = s.readByte c := rfl

/-! ## A byte stored -/

@[simp] theorem writeByte_pc (s : State) (a : Word) (v : Byte) : (s.writeByte a v).pc = s.pc := rfl
@[simp] theorem writeByte_gpr (s : State) (a : Word) (v : Byte) : (s.writeByte a v).gpr = s.gpr := rfl
@[simp] theorem writeByte_rl (s : State) (a : Word) (v : Byte) : (s.writeByte a v).rl = s.rl := rfl
@[simp] theorem writeByte_ssp (s : State) (a : Word) (v : Byte) : (s.writeByte a v).ssp = s.ssp := rfl
@[simp] theorem writeByte_usp (s : State) (a : Word) (v : Byte) : (s.writeByte a v).usp = s.usp := rfl
@[simp] theorem writeByte_re (s : State) (a : Word) (v : Byte) : (s.writeByte a v).re = s.re := rfl
@[simp] theorem writeByte_bte (s : State) (a : Word) (v : Byte) : (s.writeByte a v).bte = s.bte := rfl
@[simp] theorem writeByte_temp (s : State) (a : Word) (v : Byte) : (s.writeByte a v).temp = s.temp := rfl
@[simp] theorem writeByte_rcn (s : State) (a : Word) (v : Byte) : (s.writeByte a v).rcn = s.rcn := rfl
@[simp] theorem writeByte_ip (s : State) (a : Word) (v : Byte) : (s.writeByte a v).ip = s.ip := rfl
@[simp] theorem writeByte_intPins (s : State) (a : Word) (v : Byte) : (s.writeByte a v).intPins = s.intPins := rfl
@[simp] theorem writeByte_restart (s : State) (a : Word) (v : Byte) : (s.writeByte a v).restart = s.restart := rfl
@[simp] theorem writeByte_inta (s : State) (a : Word) (v : Byte) : (s.writeByte a v).inta = s.inta := rfl
@[simp] theorem writeByte_bgt (s : State) (a : Word) (v : Byte) : (s.writeByte a v).bgt = s.bgt := rfl
@[simp] theorem writeByte_run (s : State) (a : Word) (v : Byte) : (s.writeByte a v).run = s.run := rfl
@[simp] theorem writeByte_mem (s : State) (a : Word) (v : Byte) : (s.writeByte a v).mem = s.mem.setByte a.toNat v := rfl
@[simp] theorem writeByte_map (s : State) (a : Word) (v : Byte) : (s.writeByte a v).map = s.map := rfl
@[simp] theorem writeByte_dev (s : State) (a : Word) (v : Byte) : (s.writeByte a v).dev = s.dev := rfl
@[simp] theorem writeByte_inputs (s : State) (a : Word) (v : Byte) : (s.writeByte a v).inputs = s.inputs := rfl
@[simp] theorem writeByte_draws (s : State) (a : Word) (v : Byte) : (s.writeByte a v).draws = s.draws := rfl
@[simp] theorem writeByte_get (s : State) (a : Word) (v : Byte) (p : Phys) :
    (s.writeByte a v).get p = s.get p := by cases p <;> rfl
@[simp] theorem writeByte_kindAt (s : State) (a : Word) (v : Byte) (c : Word) :
    (s.writeByte a v).kindAt c = s.kindAt c := rfl

/-! ## A byte put where it is stored -/

@[simp] theorem putByte_pc (s : State) (a : Word) (v : Byte) : (s.putByte a v).pc = s.pc := by
  unfold State.putByte; split <;> rfl
@[simp] theorem putByte_gpr (s : State) (a : Word) (v : Byte) : (s.putByte a v).gpr = s.gpr := by
  unfold State.putByte; split <;> rfl
@[simp] theorem putByte_rl (s : State) (a : Word) (v : Byte) : (s.putByte a v).rl = s.rl := by
  unfold State.putByte; split <;> rfl
@[simp] theorem putByte_ssp (s : State) (a : Word) (v : Byte) : (s.putByte a v).ssp = s.ssp := by
  unfold State.putByte; split <;> rfl
@[simp] theorem putByte_usp (s : State) (a : Word) (v : Byte) : (s.putByte a v).usp = s.usp := by
  unfold State.putByte; split <;> rfl
@[simp] theorem putByte_re (s : State) (a : Word) (v : Byte) : (s.putByte a v).re = s.re := by
  unfold State.putByte; split <;> rfl
@[simp] theorem putByte_bte (s : State) (a : Word) (v : Byte) : (s.putByte a v).bte = s.bte := by
  unfold State.putByte; split <;> rfl
@[simp] theorem putByte_temp (s : State) (a : Word) (v : Byte) : (s.putByte a v).temp = s.temp := by
  unfold State.putByte; split <;> rfl
@[simp] theorem putByte_rcn (s : State) (a : Word) (v : Byte) : (s.putByte a v).rcn = s.rcn := by
  unfold State.putByte; split <;> rfl
@[simp] theorem putByte_ip (s : State) (a : Word) (v : Byte) : (s.putByte a v).ip = s.ip := by
  unfold State.putByte; split <;> rfl
@[simp] theorem putByte_intPins (s : State) (a : Word) (v : Byte) : (s.putByte a v).intPins = s.intPins := by
  unfold State.putByte; split <;> rfl
@[simp] theorem putByte_restart (s : State) (a : Word) (v : Byte) : (s.putByte a v).restart = s.restart := by
  unfold State.putByte; split <;> rfl
@[simp] theorem putByte_inta (s : State) (a : Word) (v : Byte) : (s.putByte a v).inta = s.inta := by
  unfold State.putByte; split <;> rfl
@[simp] theorem putByte_bgt (s : State) (a : Word) (v : Byte) : (s.putByte a v).bgt = s.bgt := by
  unfold State.putByte; split <;> rfl
@[simp] theorem putByte_run (s : State) (a : Word) (v : Byte) : (s.putByte a v).run = s.run := by
  unfold State.putByte; split <;> rfl
@[simp] theorem putByte_map (s : State) (a : Word) (v : Byte) : (s.putByte a v).map = s.map := by
  unfold State.putByte; split <;> rfl
@[simp] theorem putByte_dev (s : State) (a : Word) (v : Byte) : (s.putByte a v).dev = s.dev := by
  unfold State.putByte; split <;> rfl
@[simp] theorem putByte_inputs (s : State) (a : Word) (v : Byte) : (s.putByte a v).inputs = s.inputs := by
  unfold State.putByte; split <;> rfl
@[simp] theorem putByte_draws (s : State) (a : Word) (v : Byte) : (s.putByte a v).draws = s.draws := by
  unfold State.putByte; split <;> rfl
@[simp] theorem putByte_get (s : State) (a : Word) (v : Byte) (p : Phys) :
    (s.putByte a v).get p = s.get p := by
  unfold State.putByte; split <;> simp
@[simp] theorem putByte_kindAt (s : State) (a : Word) (v : Byte) (c : Word) :
    (s.putByte a v).kindAt c = s.kindAt c := by simp [State.kindAt]

/-! ## A byte written -/

@[simp] theorem memWriteByte_pc (s : State) (a : Word) (v : Byte) : (s.memWriteByte a v).pc = s.pc := by
  simp [State.memWriteByte]
@[simp] theorem memWriteByte_gpr (s : State) (a : Word) (v : Byte) : (s.memWriteByte a v).gpr = s.gpr := by
  simp [State.memWriteByte]
@[simp] theorem memWriteByte_rl (s : State) (a : Word) (v : Byte) : (s.memWriteByte a v).rl = s.rl := by
  simp [State.memWriteByte]
@[simp] theorem memWriteByte_ssp (s : State) (a : Word) (v : Byte) : (s.memWriteByte a v).ssp = s.ssp := by
  simp [State.memWriteByte]
@[simp] theorem memWriteByte_usp (s : State) (a : Word) (v : Byte) : (s.memWriteByte a v).usp = s.usp := by
  simp [State.memWriteByte]
@[simp] theorem memWriteByte_re (s : State) (a : Word) (v : Byte) : (s.memWriteByte a v).re = s.re := by
  simp [State.memWriteByte]
@[simp] theorem memWriteByte_bte (s : State) (a : Word) (v : Byte) : (s.memWriteByte a v).bte = s.bte := by
  simp [State.memWriteByte]
@[simp] theorem memWriteByte_temp (s : State) (a : Word) (v : Byte) : (s.memWriteByte a v).temp = s.temp := by
  simp [State.memWriteByte]
@[simp] theorem memWriteByte_rcn (s : State) (a : Word) (v : Byte) : (s.memWriteByte a v).rcn = s.rcn := by
  simp [State.memWriteByte]
@[simp] theorem memWriteByte_ip (s : State) (a : Word) (v : Byte) : (s.memWriteByte a v).ip = s.ip := by
  simp [State.memWriteByte]
@[simp] theorem memWriteByte_intPins (s : State) (a : Word) (v : Byte) : (s.memWriteByte a v).intPins = s.intPins := by
  simp [State.memWriteByte]
@[simp] theorem memWriteByte_restart (s : State) (a : Word) (v : Byte) : (s.memWriteByte a v).restart = s.restart := by
  simp [State.memWriteByte]
@[simp] theorem memWriteByte_inta (s : State) (a : Word) (v : Byte) : (s.memWriteByte a v).inta = s.inta := by
  simp [State.memWriteByte]
@[simp] theorem memWriteByte_bgt (s : State) (a : Word) (v : Byte) : (s.memWriteByte a v).bgt = s.bgt := by
  simp [State.memWriteByte]
@[simp] theorem memWriteByte_run (s : State) (a : Word) (v : Byte) : (s.memWriteByte a v).run = s.run := by
  simp [State.memWriteByte]
@[simp] theorem memWriteByte_map (s : State) (a : Word) (v : Byte) : (s.memWriteByte a v).map = s.map := by
  simp [State.memWriteByte]
@[simp] theorem memWriteByte_inputs (s : State) (a : Word) (v : Byte) : (s.memWriteByte a v).inputs = s.inputs := by
  simp [State.memWriteByte]
@[simp] theorem memWriteByte_draws (s : State) (a : Word) (v : Byte) : (s.memWriteByte a v).draws = s.draws := by
  simp [State.memWriteByte]
@[simp] theorem memWriteByte_get (s : State) (a : Word) (v : Byte) (p : Phys) :
    (s.memWriteByte a v).get p = s.get p := by
  simp [State.memWriteByte]
@[simp] theorem memWriteByte_kindAt (s : State) (a : Word) (v : Byte) (c : Word) :
    (s.memWriteByte a v).kindAt c = s.kindAt c := by simp [State.kindAt]

/-! ## An aligned word written -/

@[simp] theorem putWord_pc (s : State) (a v : Word) : (s.putWord a v).pc = s.pc := by
  simp [State.putWord]
@[simp] theorem putWord_gpr (s : State) (a v : Word) : (s.putWord a v).gpr = s.gpr := by
  simp [State.putWord]
@[simp] theorem putWord_rl (s : State) (a v : Word) : (s.putWord a v).rl = s.rl := by
  simp [State.putWord]
@[simp] theorem putWord_ssp (s : State) (a v : Word) : (s.putWord a v).ssp = s.ssp := by
  simp [State.putWord]
@[simp] theorem putWord_usp (s : State) (a v : Word) : (s.putWord a v).usp = s.usp := by
  simp [State.putWord]
@[simp] theorem putWord_re (s : State) (a v : Word) : (s.putWord a v).re = s.re := by
  simp [State.putWord]
@[simp] theorem putWord_bte (s : State) (a v : Word) : (s.putWord a v).bte = s.bte := by
  simp [State.putWord]
@[simp] theorem putWord_temp (s : State) (a v : Word) : (s.putWord a v).temp = s.temp := by
  simp [State.putWord]
@[simp] theorem putWord_rcn (s : State) (a v : Word) : (s.putWord a v).rcn = s.rcn := by
  simp [State.putWord]
@[simp] theorem putWord_ip (s : State) (a v : Word) : (s.putWord a v).ip = s.ip := by
  simp [State.putWord]
@[simp] theorem putWord_intPins (s : State) (a v : Word) : (s.putWord a v).intPins = s.intPins := by
  simp [State.putWord]
@[simp] theorem putWord_restart (s : State) (a v : Word) : (s.putWord a v).restart = s.restart := by
  simp [State.putWord]
@[simp] theorem putWord_inta (s : State) (a v : Word) : (s.putWord a v).inta = s.inta := by
  simp [State.putWord]
@[simp] theorem putWord_bgt (s : State) (a v : Word) : (s.putWord a v).bgt = s.bgt := by
  simp [State.putWord]
@[simp] theorem putWord_run (s : State) (a v : Word) : (s.putWord a v).run = s.run := by
  simp [State.putWord]
@[simp] theorem putWord_map (s : State) (a v : Word) : (s.putWord a v).map = s.map := by
  simp [State.putWord]
@[simp] theorem putWord_inputs (s : State) (a v : Word) : (s.putWord a v).inputs = s.inputs := by
  simp [State.putWord]
@[simp] theorem putWord_draws (s : State) (a v : Word) : (s.putWord a v).draws = s.draws := by
  simp [State.putWord]
@[simp] theorem putWord_get (s : State) (a v : Word) (p : Phys) :
    (s.putWord a v).get p = s.get p := by
  simp [State.putWord]
@[simp] theorem putWord_kindAt (s : State) (a v : Word) (c : Word) :
    (s.putWord a v).kindAt c = s.kindAt c := by simp [State.kindAt]

/-! ## The stuck state -/

@[simp] theorem stuck_pc (s : State) : s.stuck.pc = s.pc := rfl
@[simp] theorem stuck_gpr (s : State) : s.stuck.gpr = s.gpr := rfl
@[simp] theorem stuck_rl (s : State) : s.stuck.rl = s.rl := rfl
@[simp] theorem stuck_ssp (s : State) : s.stuck.ssp = s.ssp := rfl
@[simp] theorem stuck_usp (s : State) : s.stuck.usp = s.usp := rfl
@[simp] theorem stuck_re (s : State) : s.stuck.re = s.re := rfl
@[simp] theorem stuck_bte (s : State) : s.stuck.bte = s.bte := rfl
@[simp] theorem stuck_temp (s : State) : s.stuck.temp = s.temp := rfl
@[simp] theorem stuck_rcn (s : State) : s.stuck.rcn = s.rcn := rfl
@[simp] theorem stuck_ip (s : State) : s.stuck.ip = s.ip := rfl
@[simp] theorem stuck_intPins (s : State) : s.stuck.intPins = s.intPins := rfl
@[simp] theorem stuck_restart (s : State) : s.stuck.restart = s.restart := rfl
@[simp] theorem stuck_inta (s : State) : s.stuck.inta = s.inta := rfl
@[simp] theorem stuck_bgt (s : State) : s.stuck.bgt = s.bgt := rfl
@[simp] theorem stuck_run (s : State) : s.stuck.run = .doubleFault := rfl
@[simp] theorem stuck_mem (s : State) : s.stuck.mem = s.mem := rfl
@[simp] theorem stuck_map (s : State) : s.stuck.map = s.map := rfl
@[simp] theorem stuck_dev (s : State) : s.stuck.dev = s.dev := rfl
@[simp] theorem stuck_inputs (s : State) : s.stuck.inputs = s.inputs := rfl
@[simp] theorem stuck_draws (s : State) : s.stuck.draws = s.draws := rfl
@[simp] theorem stuck_get (s : State) (p : Phys) : s.stuck.get p = s.get p := by cases p <;> rfl
@[simp] theorem stuck_kindAt (s : State) (c : Word) : s.stuck.kindAt c = s.kindAt c := rfl
@[simp] theorem stuck_readByte (s : State) (c : Word) : s.stuck.readByte c = s.readByte c := rfl

/-! ## The pins sampled -/

@[simp] theorem samplePins_pc (s : State) (l : Lines) : (s.samplePins l).pc = s.pc := rfl
@[simp] theorem samplePins_gpr (s : State) (l : Lines) : (s.samplePins l).gpr = s.gpr := rfl
@[simp] theorem samplePins_rl (s : State) (l : Lines) : (s.samplePins l).rl = s.rl := rfl
@[simp] theorem samplePins_ssp (s : State) (l : Lines) : (s.samplePins l).ssp = s.ssp := rfl
@[simp] theorem samplePins_usp (s : State) (l : Lines) : (s.samplePins l).usp = s.usp := rfl
@[simp] theorem samplePins_re (s : State) (l : Lines) : (s.samplePins l).re = s.re := rfl
@[simp] theorem samplePins_bte (s : State) (l : Lines) : (s.samplePins l).bte = s.bte := rfl
@[simp] theorem samplePins_temp (s : State) (l : Lines) : (s.samplePins l).temp = s.temp := rfl
@[simp] theorem samplePins_rcn (s : State) (l : Lines) : (s.samplePins l).rcn = s.rcn := rfl
@[simp] theorem samplePins_intPins (s : State) (l : Lines) : (s.samplePins l).intPins = l := rfl
@[simp] theorem samplePins_inta (s : State) (l : Lines) : (s.samplePins l).inta = s.inta := rfl
@[simp] theorem samplePins_bgt (s : State) (l : Lines) : (s.samplePins l).bgt = s.bgt := rfl
@[simp] theorem samplePins_run (s : State) (l : Lines) : (s.samplePins l).run = s.run := rfl
@[simp] theorem samplePins_mem (s : State) (l : Lines) : (s.samplePins l).mem = s.mem := rfl
@[simp] theorem samplePins_map (s : State) (l : Lines) : (s.samplePins l).map = s.map := rfl
@[simp] theorem samplePins_dev (s : State) (l : Lines) : (s.samplePins l).dev = s.dev := rfl
@[simp] theorem samplePins_inputs (s : State) (l : Lines) : (s.samplePins l).inputs = s.inputs := rfl
@[simp] theorem samplePins_draws (s : State) (l : Lines) : (s.samplePins l).draws = s.draws := rfl
@[simp] theorem samplePins_get (s : State) (l : Lines) (p : Phys) :
    (s.samplePins l).get p = s.get p := by cases p <;> rfl
@[simp] theorem samplePins_kindAt (s : State) (l : Lines) (c : Word) : (s.samplePins l).kindAt c = s.kindAt c := rfl
@[simp] theorem samplePins_readByte (s : State) (l : Lines) (c : Word) :
    (s.samplePins l).readByte c = s.readByte c := rfl

/-! ## A latch cleared -/

@[simp] theorem clearLatch_pc (s : State) (i : Fin 4) : (s.clearLatch i).pc = s.pc := rfl
@[simp] theorem clearLatch_gpr (s : State) (i : Fin 4) : (s.clearLatch i).gpr = s.gpr := rfl
@[simp] theorem clearLatch_rl (s : State) (i : Fin 4) : (s.clearLatch i).rl = s.rl := rfl
@[simp] theorem clearLatch_ssp (s : State) (i : Fin 4) : (s.clearLatch i).ssp = s.ssp := rfl
@[simp] theorem clearLatch_usp (s : State) (i : Fin 4) : (s.clearLatch i).usp = s.usp := rfl
@[simp] theorem clearLatch_re (s : State) (i : Fin 4) : (s.clearLatch i).re = s.re := rfl
@[simp] theorem clearLatch_bte (s : State) (i : Fin 4) : (s.clearLatch i).bte = s.bte := rfl
@[simp] theorem clearLatch_temp (s : State) (i : Fin 4) : (s.clearLatch i).temp = s.temp := rfl
@[simp] theorem clearLatch_rcn (s : State) (i : Fin 4) : (s.clearLatch i).rcn = s.rcn := rfl
@[simp] theorem clearLatch_intPins (s : State) (i : Fin 4) : (s.clearLatch i).intPins = s.intPins := rfl
@[simp] theorem clearLatch_restart (s : State) (i : Fin 4) : (s.clearLatch i).restart = s.restart := rfl
@[simp] theorem clearLatch_inta (s : State) (i : Fin 4) : (s.clearLatch i).inta = s.inta := rfl
@[simp] theorem clearLatch_bgt (s : State) (i : Fin 4) : (s.clearLatch i).bgt = s.bgt := rfl
@[simp] theorem clearLatch_run (s : State) (i : Fin 4) : (s.clearLatch i).run = s.run := rfl
@[simp] theorem clearLatch_mem (s : State) (i : Fin 4) : (s.clearLatch i).mem = s.mem := rfl
@[simp] theorem clearLatch_map (s : State) (i : Fin 4) : (s.clearLatch i).map = s.map := rfl
@[simp] theorem clearLatch_dev (s : State) (i : Fin 4) : (s.clearLatch i).dev = s.dev := rfl
@[simp] theorem clearLatch_inputs (s : State) (i : Fin 4) : (s.clearLatch i).inputs = s.inputs := rfl
@[simp] theorem clearLatch_draws (s : State) (i : Fin 4) : (s.clearLatch i).draws = s.draws := rfl
@[simp] theorem clearLatch_get (s : State) (i : Fin 4) (p : Phys) :
    (s.clearLatch i).get p = s.get p := by cases p <;> rfl
@[simp] theorem clearLatch_kindAt (s : State) (i : Fin 4) (c : Word) : (s.clearLatch i).kindAt c = s.kindAt c := rfl
@[simp] theorem clearLatch_readByte (s : State) (i : Fin 4) (c : Word) :
    (s.clearLatch i).readByte c = s.readByte c := rfl

/-! ## RCN written -/

@[simp] theorem writeRcn_pc (s : State) (v : Word) : (s.writeRcn v).pc = s.pc := rfl
@[simp] theorem writeRcn_gpr (s : State) (v : Word) : (s.writeRcn v).gpr = s.gpr := rfl
@[simp] theorem writeRcn_rl (s : State) (v : Word) : (s.writeRcn v).rl = s.rl := rfl
@[simp] theorem writeRcn_ssp (s : State) (v : Word) : (s.writeRcn v).ssp = s.ssp := rfl
@[simp] theorem writeRcn_usp (s : State) (v : Word) : (s.writeRcn v).usp = s.usp := rfl
@[simp] theorem writeRcn_re (s : State) (v : Word) : (s.writeRcn v).re = s.re := rfl
@[simp] theorem writeRcn_bte (s : State) (v : Word) : (s.writeRcn v).bte = s.bte := rfl
@[simp] theorem writeRcn_temp (s : State) (v : Word) : (s.writeRcn v).temp = s.temp := rfl
@[simp] theorem writeRcn_rcn (s : State) (v : Word) : (s.writeRcn v).rcn = v := rfl
@[simp] theorem writeRcn_intPins (s : State) (v : Word) : (s.writeRcn v).intPins = s.intPins := rfl
@[simp] theorem writeRcn_inta (s : State) (v : Word) : (s.writeRcn v).inta = s.inta := rfl
@[simp] theorem writeRcn_bgt (s : State) (v : Word) : (s.writeRcn v).bgt = s.bgt := rfl
@[simp] theorem writeRcn_run (s : State) (v : Word) : (s.writeRcn v).run = s.run := rfl
@[simp] theorem writeRcn_mem (s : State) (v : Word) : (s.writeRcn v).mem = s.mem := rfl
@[simp] theorem writeRcn_map (s : State) (v : Word) : (s.writeRcn v).map = s.map := rfl
@[simp] theorem writeRcn_dev (s : State) (v : Word) : (s.writeRcn v).dev = s.dev := rfl
@[simp] theorem writeRcn_inputs (s : State) (v : Word) : (s.writeRcn v).inputs = s.inputs := rfl
@[simp] theorem writeRcn_draws (s : State) (v : Word) : (s.writeRcn v).draws = s.draws := rfl
@[simp] theorem writeRcn_kindAt (s : State) (v : Word) (c : Word) : (s.writeRcn v).kindAt c = s.kindAt c := rfl
@[simp] theorem writeRcn_readByte (s : State) (v : Word) (c : Word) : (s.writeRcn v).readByte c = s.readByte c := rfl

/-! ## A DMA access, all of them, and the bus at a boundary -/

@[simp] theorem dmaAccess_pc (s : State) (d : DmaAccess) : (s.dmaAccess d).pc = s.pc := by
  cases d <;> simp [State.dmaAccess]
@[simp] theorem dmaAccess_gpr (s : State) (d : DmaAccess) : (s.dmaAccess d).gpr = s.gpr := by
  cases d <;> simp [State.dmaAccess]
@[simp] theorem dmaAccess_rl (s : State) (d : DmaAccess) : (s.dmaAccess d).rl = s.rl := by
  cases d <;> simp [State.dmaAccess]
@[simp] theorem dmaAccess_ssp (s : State) (d : DmaAccess) : (s.dmaAccess d).ssp = s.ssp := by
  cases d <;> simp [State.dmaAccess]
@[simp] theorem dmaAccess_usp (s : State) (d : DmaAccess) : (s.dmaAccess d).usp = s.usp := by
  cases d <;> simp [State.dmaAccess]
@[simp] theorem dmaAccess_re (s : State) (d : DmaAccess) : (s.dmaAccess d).re = s.re := by
  cases d <;> simp [State.dmaAccess]
@[simp] theorem dmaAccess_bte (s : State) (d : DmaAccess) : (s.dmaAccess d).bte = s.bte := by
  cases d <;> simp [State.dmaAccess]
@[simp] theorem dmaAccess_temp (s : State) (d : DmaAccess) : (s.dmaAccess d).temp = s.temp := by
  cases d <;> simp [State.dmaAccess]
@[simp] theorem dmaAccess_rcn (s : State) (d : DmaAccess) : (s.dmaAccess d).rcn = s.rcn := by
  cases d <;> simp [State.dmaAccess]
@[simp] theorem dmaAccess_ip (s : State) (d : DmaAccess) : (s.dmaAccess d).ip = s.ip := by
  cases d <;> simp [State.dmaAccess]
@[simp] theorem dmaAccess_intPins (s : State) (d : DmaAccess) : (s.dmaAccess d).intPins = s.intPins := by
  cases d <;> simp [State.dmaAccess]
@[simp] theorem dmaAccess_restart (s : State) (d : DmaAccess) : (s.dmaAccess d).restart = s.restart := by
  cases d <;> simp [State.dmaAccess]
@[simp] theorem dmaAccess_inta (s : State) (d : DmaAccess) : (s.dmaAccess d).inta = s.inta := by
  cases d <;> simp [State.dmaAccess]
@[simp] theorem dmaAccess_bgt (s : State) (d : DmaAccess) : (s.dmaAccess d).bgt = s.bgt := by
  cases d <;> simp [State.dmaAccess]
@[simp] theorem dmaAccess_run (s : State) (d : DmaAccess) : (s.dmaAccess d).run = s.run := by
  cases d <;> simp [State.dmaAccess]
@[simp] theorem dmaAccess_map (s : State) (d : DmaAccess) : (s.dmaAccess d).map = s.map := by
  cases d <;> simp [State.dmaAccess]
@[simp] theorem dmaAccess_dev (s : State) (d : DmaAccess) : (s.dmaAccess d).dev = s.dev := by
  cases d <;> simp [State.dmaAccess]
@[simp] theorem dmaAccess_inputs (s : State) (d : DmaAccess) : (s.dmaAccess d).inputs = s.inputs := by
  cases d <;> simp [State.dmaAccess]
@[simp] theorem dmaAccess_draws (s : State) (d : DmaAccess) : (s.dmaAccess d).draws = s.draws := by
  cases d <;> simp [State.dmaAccess]
@[simp] theorem dmaAccess_kindAt (s : State) (d : DmaAccess) (c : Word) :
    (s.dmaAccess d).kindAt c = s.kindAt c := by simp [State.kindAt]
@[simp] theorem dmaAccesses_pc (l : List DmaAccess) (s : State) : (l.foldl State.dmaAccess s).pc = s.pc := by
  induction l generalizing s with
  | nil => rfl
  | cons d l ih => rw [List.foldl_cons, ih, dmaAccess_pc]
@[simp] theorem dmaAccesses_gpr (l : List DmaAccess) (s : State) : (l.foldl State.dmaAccess s).gpr = s.gpr := by
  induction l generalizing s with
  | nil => rfl
  | cons d l ih => rw [List.foldl_cons, ih, dmaAccess_gpr]
@[simp] theorem dmaAccesses_rl (l : List DmaAccess) (s : State) : (l.foldl State.dmaAccess s).rl = s.rl := by
  induction l generalizing s with
  | nil => rfl
  | cons d l ih => rw [List.foldl_cons, ih, dmaAccess_rl]
@[simp] theorem dmaAccesses_ssp (l : List DmaAccess) (s : State) : (l.foldl State.dmaAccess s).ssp = s.ssp := by
  induction l generalizing s with
  | nil => rfl
  | cons d l ih => rw [List.foldl_cons, ih, dmaAccess_ssp]
@[simp] theorem dmaAccesses_usp (l : List DmaAccess) (s : State) : (l.foldl State.dmaAccess s).usp = s.usp := by
  induction l generalizing s with
  | nil => rfl
  | cons d l ih => rw [List.foldl_cons, ih, dmaAccess_usp]
@[simp] theorem dmaAccesses_re (l : List DmaAccess) (s : State) : (l.foldl State.dmaAccess s).re = s.re := by
  induction l generalizing s with
  | nil => rfl
  | cons d l ih => rw [List.foldl_cons, ih, dmaAccess_re]
@[simp] theorem dmaAccesses_bte (l : List DmaAccess) (s : State) : (l.foldl State.dmaAccess s).bte = s.bte := by
  induction l generalizing s with
  | nil => rfl
  | cons d l ih => rw [List.foldl_cons, ih, dmaAccess_bte]
@[simp] theorem dmaAccesses_temp (l : List DmaAccess) (s : State) : (l.foldl State.dmaAccess s).temp = s.temp := by
  induction l generalizing s with
  | nil => rfl
  | cons d l ih => rw [List.foldl_cons, ih, dmaAccess_temp]
@[simp] theorem dmaAccesses_rcn (l : List DmaAccess) (s : State) : (l.foldl State.dmaAccess s).rcn = s.rcn := by
  induction l generalizing s with
  | nil => rfl
  | cons d l ih => rw [List.foldl_cons, ih, dmaAccess_rcn]
@[simp] theorem dmaAccesses_ip (l : List DmaAccess) (s : State) : (l.foldl State.dmaAccess s).ip = s.ip := by
  induction l generalizing s with
  | nil => rfl
  | cons d l ih => rw [List.foldl_cons, ih, dmaAccess_ip]
@[simp] theorem dmaAccesses_intPins (l : List DmaAccess) (s : State) :
    (l.foldl State.dmaAccess s).intPins = s.intPins := by
  induction l generalizing s with
  | nil => rfl
  | cons d l ih => rw [List.foldl_cons, ih, dmaAccess_intPins]
@[simp] theorem dmaAccesses_restart (l : List DmaAccess) (s : State) :
    (l.foldl State.dmaAccess s).restart = s.restart := by
  induction l generalizing s with
  | nil => rfl
  | cons d l ih => rw [List.foldl_cons, ih, dmaAccess_restart]
@[simp] theorem dmaAccesses_inta (l : List DmaAccess) (s : State) : (l.foldl State.dmaAccess s).inta = s.inta := by
  induction l generalizing s with
  | nil => rfl
  | cons d l ih => rw [List.foldl_cons, ih, dmaAccess_inta]
@[simp] theorem dmaAccesses_bgt (l : List DmaAccess) (s : State) : (l.foldl State.dmaAccess s).bgt = s.bgt := by
  induction l generalizing s with
  | nil => rfl
  | cons d l ih => rw [List.foldl_cons, ih, dmaAccess_bgt]
@[simp] theorem dmaAccesses_run (l : List DmaAccess) (s : State) : (l.foldl State.dmaAccess s).run = s.run := by
  induction l generalizing s with
  | nil => rfl
  | cons d l ih => rw [List.foldl_cons, ih, dmaAccess_run]
@[simp] theorem dmaAccesses_map (l : List DmaAccess) (s : State) : (l.foldl State.dmaAccess s).map = s.map := by
  induction l generalizing s with
  | nil => rfl
  | cons d l ih => rw [List.foldl_cons, ih, dmaAccess_map]
@[simp] theorem dmaAccesses_dev (l : List DmaAccess) (s : State) : (l.foldl State.dmaAccess s).dev = s.dev := by
  induction l generalizing s with
  | nil => rfl
  | cons d l ih => rw [List.foldl_cons, ih, dmaAccess_dev]
@[simp] theorem dmaAccesses_inputs (l : List DmaAccess) (s : State) :
    (l.foldl State.dmaAccess s).inputs = s.inputs := by
  induction l generalizing s with
  | nil => rfl
  | cons d l ih => rw [List.foldl_cons, ih, dmaAccess_inputs]
@[simp] theorem dmaAccesses_draws (l : List DmaAccess) (s : State) : (l.foldl State.dmaAccess s).draws = s.draws := by
  induction l generalizing s with
  | nil => rfl
  | cons d l ih => rw [List.foldl_cons, ih, dmaAccess_draws]
@[simp] theorem dmaBoundary_pc (s : State) (q : Bool) (l : List DmaAccess) : (s.dmaBoundary q l).pc = s.pc := by
  unfold State.dmaBoundary; split <;> simp
@[simp] theorem dmaBoundary_gpr (s : State) (q : Bool) (l : List DmaAccess) : (s.dmaBoundary q l).gpr = s.gpr := by
  unfold State.dmaBoundary; split <;> simp
@[simp] theorem dmaBoundary_rl (s : State) (q : Bool) (l : List DmaAccess) : (s.dmaBoundary q l).rl = s.rl := by
  unfold State.dmaBoundary; split <;> simp
@[simp] theorem dmaBoundary_ssp (s : State) (q : Bool) (l : List DmaAccess) : (s.dmaBoundary q l).ssp = s.ssp := by
  unfold State.dmaBoundary; split <;> simp
@[simp] theorem dmaBoundary_usp (s : State) (q : Bool) (l : List DmaAccess) : (s.dmaBoundary q l).usp = s.usp := by
  unfold State.dmaBoundary; split <;> simp
@[simp] theorem dmaBoundary_re (s : State) (q : Bool) (l : List DmaAccess) : (s.dmaBoundary q l).re = s.re := by
  unfold State.dmaBoundary; split <;> simp
@[simp] theorem dmaBoundary_bte (s : State) (q : Bool) (l : List DmaAccess) : (s.dmaBoundary q l).bte = s.bte := by
  unfold State.dmaBoundary; split <;> simp
@[simp] theorem dmaBoundary_temp (s : State) (q : Bool) (l : List DmaAccess) : (s.dmaBoundary q l).temp = s.temp := by
  unfold State.dmaBoundary; split <;> simp
@[simp] theorem dmaBoundary_rcn (s : State) (q : Bool) (l : List DmaAccess) : (s.dmaBoundary q l).rcn = s.rcn := by
  unfold State.dmaBoundary; split <;> simp
@[simp] theorem dmaBoundary_ip (s : State) (q : Bool) (l : List DmaAccess) : (s.dmaBoundary q l).ip = s.ip := by
  unfold State.dmaBoundary; split <;> simp
@[simp] theorem dmaBoundary_intPins (s : State) (q : Bool) (l : List DmaAccess) :
    (s.dmaBoundary q l).intPins = s.intPins := by
  unfold State.dmaBoundary; split <;> simp
@[simp] theorem dmaBoundary_restart (s : State) (q : Bool) (l : List DmaAccess) :
    (s.dmaBoundary q l).restart = s.restart := by
  unfold State.dmaBoundary; split <;> simp
@[simp] theorem dmaBoundary_inta (s : State) (q : Bool) (l : List DmaAccess) : (s.dmaBoundary q l).inta = s.inta := by
  unfold State.dmaBoundary; split <;> simp
@[simp] theorem dmaBoundary_run (s : State) (q : Bool) (l : List DmaAccess) : (s.dmaBoundary q l).run = s.run := by
  unfold State.dmaBoundary; split <;> simp
@[simp] theorem dmaBoundary_map (s : State) (q : Bool) (l : List DmaAccess) : (s.dmaBoundary q l).map = s.map := by
  unfold State.dmaBoundary; split <;> simp
@[simp] theorem dmaBoundary_dev (s : State) (q : Bool) (l : List DmaAccess) : (s.dmaBoundary q l).dev = s.dev := by
  unfold State.dmaBoundary; split <;> simp
@[simp] theorem dmaBoundary_inputs (s : State) (q : Bool) (l : List DmaAccess) :
    (s.dmaBoundary q l).inputs = s.inputs := by
  unfold State.dmaBoundary; split <;> simp
@[simp] theorem dmaBoundary_draws (s : State) (q : Bool) (l : List DmaAccess) :
    (s.dmaBoundary q l).draws = s.draws := by
  unfold State.dmaBoundary; split <;> simp
@[simp] theorem dmaBoundary_get (s : State) (q : Bool) (l : List DmaAccess) (p : Phys) :
    (s.dmaBoundary q l).get p = s.get p := by cases p <;> simp [State.get]
@[simp] theorem dmaBoundary_kindAt (s : State) (q : Bool) (l : List DmaAccess) (c : Word) :
    (s.dmaBoundary q l).kindAt c = s.kindAt c := by simp [State.kindAt]

/-! ## A boundary begun -/

@[simp] theorem openBoundary_pc (s : State) : s.openBoundary.pc = s.pc := rfl
@[simp] theorem openBoundary_gpr (s : State) : s.openBoundary.gpr = s.gpr := rfl
@[simp] theorem openBoundary_rl (s : State) : s.openBoundary.rl = s.rl := rfl
@[simp] theorem openBoundary_ssp (s : State) : s.openBoundary.ssp = s.ssp := rfl
@[simp] theorem openBoundary_usp (s : State) : s.openBoundary.usp = s.usp := rfl
@[simp] theorem openBoundary_re (s : State) : s.openBoundary.re = s.re := rfl
@[simp] theorem openBoundary_bte (s : State) : s.openBoundary.bte = s.bte := rfl
@[simp] theorem openBoundary_temp (s : State) : s.openBoundary.temp = s.temp := rfl
@[simp] theorem openBoundary_rcn (s : State) : s.openBoundary.rcn = s.rcn := rfl
@[simp] theorem openBoundary_ip (s : State) : s.openBoundary.ip = s.ip := rfl
@[simp] theorem openBoundary_intPins (s : State) : s.openBoundary.intPins = s.intPins := rfl
@[simp] theorem openBoundary_restart (s : State) : s.openBoundary.restart = s.restart := rfl
@[simp] theorem openBoundary_inta (s : State) : s.openBoundary.inta = true := rfl
@[simp] theorem openBoundary_bgt (s : State) : s.openBoundary.bgt = s.bgt := rfl
@[simp] theorem openBoundary_run (s : State) : s.openBoundary.run = s.run := rfl
@[simp] theorem openBoundary_mem (s : State) : s.openBoundary.mem = s.mem := rfl
@[simp] theorem openBoundary_map (s : State) : s.openBoundary.map = s.map := rfl
@[simp] theorem openBoundary_dev (s : State) : s.openBoundary.dev = { s.dev with accesses := [] } := rfl
@[simp] theorem openBoundary_inputs (s : State) : s.openBoundary.inputs = s.inputs.tail := rfl
@[simp] theorem openBoundary_draws (s : State) : s.openBoundary.draws = s.draws := rfl
@[simp] theorem openBoundary_get (s : State) (p : Phys) : s.openBoundary.get p = s.get p := by cases p <;> rfl
@[simp] theorem openBoundary_kindAt (s : State) (c : Word) : s.openBoundary.kindAt c = s.kindAt c := rfl
@[simp] theorem openBoundary_readByte (s : State) (c : Word) : s.openBoundary.readByte c = s.readByte c := rfl

/-! ## Reset -/

@[simp] theorem resetOperation_pc (s : State) (l : Lines) : (s.resetOperation l).pc = State.reset.pc := rfl
@[simp] theorem resetOperation_gpr (s : State) (l : Lines) : (s.resetOperation l).gpr = State.reset.gpr := rfl
@[simp] theorem resetOperation_rl (s : State) (l : Lines) : (s.resetOperation l).rl = State.reset.rl := rfl
@[simp] theorem resetOperation_ssp (s : State) (l : Lines) : (s.resetOperation l).ssp = State.reset.ssp := rfl
@[simp] theorem resetOperation_usp (s : State) (l : Lines) : (s.resetOperation l).usp = State.reset.usp := rfl
@[simp] theorem resetOperation_re (s : State) (l : Lines) : (s.resetOperation l).re = State.reset.re := rfl
@[simp] theorem resetOperation_bte (s : State) (l : Lines) : (s.resetOperation l).bte = State.reset.bte := rfl
@[simp] theorem resetOperation_temp (s : State) (l : Lines) : (s.resetOperation l).temp = State.reset.temp := rfl
@[simp] theorem resetOperation_rcn (s : State) (l : Lines) : (s.resetOperation l).rcn = State.reset.rcn := rfl
@[simp] theorem resetOperation_ip (s : State) (l : Lines) : (s.resetOperation l).ip = State.reset.ip := rfl
@[simp] theorem resetOperation_intPins (s : State) (l : Lines) : (s.resetOperation l).intPins = l := rfl
@[simp] theorem resetOperation_restart (s : State) (l : Lines) :
    (s.resetOperation l).restart = State.reset.restart := rfl
@[simp] theorem resetOperation_inta (s : State) (l : Lines) : (s.resetOperation l).inta = State.reset.inta := rfl
@[simp] theorem resetOperation_bgt (s : State) (l : Lines) : (s.resetOperation l).bgt = State.reset.bgt := rfl
@[simp] theorem resetOperation_run (s : State) (l : Lines) : (s.resetOperation l).run = State.reset.run := rfl
@[simp] theorem resetOperation_mem (s : State) (l : Lines) : (s.resetOperation l).mem = s.mem := rfl
@[simp] theorem resetOperation_map (s : State) (l : Lines) : (s.resetOperation l).map = s.map := rfl
@[simp] theorem resetOperation_dev (s : State) (l : Lines) : (s.resetOperation l).dev = s.dev := rfl
@[simp] theorem resetOperation_inputs (s : State) (l : Lines) : (s.resetOperation l).inputs = s.inputs := rfl
@[simp] theorem resetOperation_draws (s : State) (l : Lines) : (s.resetOperation l).draws = s.draws := rfl

end Sys2Proof.Machine
end

