-- ==== Sys2Proof/Laws/Registers.lean ====
section
/-! SUPPORT. Reading a register after writing one, and what `setX`, `setFlags` and `commit` can do
(spec/10_state.md R24, R28, R33). -/

namespace Sys2Proof.Machine

theorem get_set (s : State) (p : Phys) (v : Word) (q : Phys) : (s.set p v).get q = if q = p then v else s.get q := by
  cases p <;> cases q <;> simp [State.set, State.get]
  case r.r n m =>
    by_cases h : m = n
    · subst h; simp
    · rw [if_neg h, Vector.getElem_set_ne]
      exact fun e => h (Fin.ext e.symm)

@[simp] theorem get_set_same (s : State) (p : Phys) (v : Word) : (s.set p v).get p = v := by simp [get_set]

theorem get_set_ne (s : State) {p q : Phys} (v : Word) (h : q ≠ p) : (s.set p v).get q = s.get q := by
  simp [get_set, h]

theorem setFlags_get (s : State) (u : FlagUpdate) {p : Phys} (h : p ≠ .re) : (s.setFlags u).get p = s.get p := by
  cases p <;> first | rfl | exact absurd rfl h

/-- Only RE is register 13, whichever stack pointer 12 denotes. -/
@[simp] theorem phys_eq_re (np : Bool) (d : Reg) : Reg.phys np d = .re ↔ d = .re := by
  cases d <;> cases np <;> simp [Reg.phys]

theorem set_re (s : State) {p : Phys} (v : Word) (h : p ≠ .re) : (s.set p v).re = s.re := by
  cases p <;> first | rfl | exact absurd rfl h

theorem setX_re (s : State) {d : Reg} (v : Word) (h : d ≠ .re) : (s.setX d v).re = s.re :=
  set_re s v (by simpa using h)

/-- The protection level is unchanged by a write to any register but RE. -/
theorem setX_np (s : State) {d : Reg} (v : Word) (h : d ≠ .re) : (s.setX d v).np = s.np := by
  simp [State.np, setX_re s v h]

/-- No flag assignment changes the protection level. -/
@[simp] theorem setFlags_np (s : State) (u : FlagUpdate) : (s.setFlags u).np = s.np :=
  apply_getLsbD_high u s.re 14 (by decide)

/-- What a write to a numbered register leaves: the register it denotes, and nothing else. -/
theorem setX_moved (s : State) (d : Reg) (v : Word) : Moved d v s (s.setX d v) := by
  refine ⟨by simp [State.setX], ?_, fun a => by simp, by simp [SameHost, SameControl]⟩
  intro p hp
  exact get_set_ne s v (by simpa using hp)

/-- What flag assignments without a destination leave (R33). -/
theorem setFlags_onlyFlags (s : State) (u : FlagUpdate) : OnlyFlags u s (s.setFlags u) := by
  refine ⟨apply_flagsWritten u s.re, ?_, fun a => rfl, by simp [SameHost, SameControl]⟩
  intro p hp
  exact setFlags_get s u (by simpa using hp)

/-- What `commit(d, r, F)` leaves (R33). -/
theorem commit_committed (s : State) (d : Reg) (r : Word) (u : FlagUpdate) : Committed d r u s (s.commit d r u) := by
  refine ⟨?_, ?_, fun a => by simp, by simp [SameHost, SameControl]⟩
  · by_cases h : d = .re
    · simp [State.commit, h]
    · have hp : Reg.phys s.np d ≠ .re := by simpa using h
      rw [if_neg h]
      unfold State.commit
      rw [if_neg h]
      refine ⟨by rw [setFlags_get _ _ hp]; simp [State.setX], ?_⟩
      have := apply_flagsWritten u (s.setX d r).re
      rw [setX_re s r h] at this
      simpa [State.setFlags, setX_re s r h] using this
  · intro p hp
    have h1 : p ≠ Reg.phys s.np d := fun e => hp (by simp [e])
    have h2 : p ≠ .re := fun e => hp (by simp [e])
    unfold State.commit
    split
    · cases p <;> first | rfl | exact absurd rfl h2
    · rw [setFlags_get _ _ h2]; exact get_set_ne s r h1

/-- A register is read from the registers alone (R24). -/
theorem x_congr {s t : State} (h : ∀ p : Phys, t.get p = s.get p) (r : Reg) : t.x r = s.x r := by
  have hn : t.np = s.np := congrArg (fun w : Word => w.getLsbD 14) (h .re)
  rw [State.x, State.x, hn, h]

@[simp] theorem withDev_x (s : State) (d : Device) (r : Reg) : (s.withDev d).x r = s.x r := rfl
@[simp] theorem withDev_np (s : State) (d : Device) : (s.withDev d).np = s.np := rfl

/-- A read that concerns no peripheral leaves the state as it was. -/
@[simp] theorem withDev_self (s : State) : s.withDev s.dev = s := rfl

/-- At system level register 12 is SSP, at user level USP (R24). -/
theorem x_sp (s : State) : s.x .sp = if s.np then s.usp else s.ssp := by
  cases h : s.np <;> simp [State.x, Reg.phys, h, State.get]

@[simp] theorem x_re (s : State) : s.x .re = s.re := rfl
@[simp] theorem x_rl (s : State) : s.x .rl = s.rl := rfl
@[simp] theorem x_bte (s : State) : s.x .bte = s.bte := rfl
@[simp] theorem x_temp (s : State) : s.x .temp = s.temp := rfl

end Sys2Proof.Machine
end

