-- ==== Sys2Proof/Laws/Memory.lean ====
section
/-! SUPPORT. Memory: a read after a write, the canonical form kept by every operation, and what a word access can do
(spec/20_memory.md R72 to R77). -/

namespace Sys2Proof.Machine

/-! ## One byte -/

theorem byteAt_insert (m : Memory) (a : Nat) (v : Byte) (b : Nat) :
    Memory.byteAt (Memory.insert m a v) b = if b = a then some v else Memory.byteAt m b := by
  induction m with
  | nil => simp only [Memory.insert, Memory.byteAt, @eq_comm Nat a]
  | cons c m ih =>
    obtain ⟨k, w⟩ := c
    unfold Memory.insert
    split
    · simp only [Memory.byteAt, @eq_comm Nat a]
    · split
      · next h =>
        subst h
        by_cases h : a = b
        · simp [Memory.byteAt, h]
        · simp [Memory.byteAt, h, Ne.symm h]
      · by_cases h : k = b
        · subst h; simp [Memory.byteAt]; omega
        · simp [Memory.byteAt, h, ih]

theorem byteAt_erase (m : Memory) (a b : Nat) :
    Memory.byteAt (Memory.erase m a) b = if b = a then Param.unlisted else Memory.byteAt m b := by
  induction m with
  | nil => simp [Memory.erase, Memory.byteAt]
  | cons c m ih =>
    obtain ⟨k, w⟩ := c
    unfold Memory.erase
    split
    · next h => subst h; rw [ih]; by_cases h : b = k <;> simp [Memory.byteAt, h, eq_comm]
    · by_cases h : k = b
      · subst h; simp [Memory.byteAt]; omega
      · simp [Memory.byteAt, h, ih]

/-- A byte write is read back at its address and changes no other. -/
theorem byteAt_setByte (m : Memory) (a : Nat) (v : Byte) (b : Nat) :
    Memory.byteAt (Memory.setByte m a v) b = if b = a then some v else Memory.byteAt m b := by
  unfold Memory.setByte
  split
  · next h => rw [byteAt_erase, h]
  · exact byteAt_insert m a v b

/-! ## The canonical form -/

theorem mem_insert {m : Memory} {a : Nat} {v : Byte} {c : Host.Cell} (h : c ∈ Memory.insert m a v) :
    c = (a, v) ∨ c ∈ m := by
  induction m with
  | nil => simpa [Memory.insert] using h
  | cons e m ih =>
    obtain ⟨k, w⟩ := e
    unfold Memory.insert at h
    split at h
    · simpa using h
    · split at h
      · rcases List.mem_cons.mp h with h | h
        · exact .inl h
        · exact .inr (List.mem_cons_of_mem _ h)
      · rcases List.mem_cons.mp h with h | h
        · exact .inr (h ▸ List.mem_cons_self)
        · exact (ih h).imp_right (List.mem_cons_of_mem _)

theorem mem_erase {m : Memory} {a : Nat} {c : Host.Cell} (h : c ∈ Memory.erase m a) : c ∈ m := by
  induction m with
  | nil => exact h
  | cons e m ih =>
    obtain ⟨k, w⟩ := e
    unfold Memory.erase at h
    split at h
    · exact List.mem_cons_of_mem _ (ih h)
    · rcases List.mem_cons.mp h with h | h
      · exact h ▸ List.mem_cons_self
      · exact List.mem_cons_of_mem _ (ih h)

theorem sorted_insert {m : Memory} (a : Nat) (v : Byte) (h : m.Pairwise fun c e => c.1 < e.1) :
    (Memory.insert m a v).Pairwise fun c e => c.1 < e.1 := by
  induction m with
  | nil => simp [Memory.insert]
  | cons e m ih =>
    obtain ⟨k, w⟩ := e
    rw [List.pairwise_cons] at h
    unfold Memory.insert
    split
    · next hlt =>
      refine List.pairwise_cons.mpr ⟨?_, List.pairwise_cons.mpr h⟩
      intro c hc
      rcases List.mem_cons.mp hc with rfl | hc
      · exact hlt
      · exact Nat.lt_trans hlt (h.1 c hc)
    · split
      · next heq => subst heq; exact List.pairwise_cons.mpr h
      · refine List.pairwise_cons.mpr ⟨?_, ih h.2⟩
        intro c hc
        rcases mem_insert hc with rfl | hc
        · show k < a; omega
        · exact h.1 c hc

theorem sorted_erase {m : Memory} (a : Nat) (h : m.Pairwise fun c e => c.1 < e.1) :
    (Memory.erase m a).Pairwise fun c e => c.1 < e.1 := by
  induction m with
  | nil => exact h
  | cons e m ih =>
    obtain ⟨k, w⟩ := e
    rw [List.pairwise_cons] at h
    unfold Memory.erase
    split
    · exact ih h.2
    · exact List.pairwise_cons.mpr ⟨fun c hc => h.1 c (mem_erase hc), ih h.2⟩

/-- A byte write inside the address space keeps the canonical form. -/
theorem setByte_wf {m : Memory} {a : Nat} (v : Byte) (ha : a < 65536) (h : m.wf = true) :
    (m.setByte a v).wf = true := by
  simp only [Memory.wf, Bool.and_eq_true, decide_eq_true_eq, List.all_eq_true] at h ⊢
  unfold Memory.setByte
  split
  · exact ⟨sorted_erase a h.1, fun c hc => h.2 c (mem_erase hc)⟩
  · next hv =>
    refine ⟨sorted_insert a v h.1, fun c hc => ?_⟩
    rcases mem_insert hc with rfl | hc
    · exact ⟨ha, hv⟩
    · exact h.2 c hc

theorem writeByte_wf (s : State) (a : Word) (b : Byte) (h : s.mem.wf = true) : (s.writeByte a b).mem.wf = true :=
  setByte_wf b a.isLt h

theorem putByte_wf (s : State) (a : Word) (b : Byte) (h : s.mem.wf = true) : (s.putByte a b).mem.wf = true := by
  unfold State.putByte
  split
  · exact writeByte_wf s a b h
  · exact h

theorem memWriteByte_wf (s : State) (a : Word) (b : Byte) (h : s.mem.wf = true) : (s.memWriteByte a b).mem.wf = true :=
  putByte_wf s a b h

theorem putWord_wf (s : State) (a v : Word) (h : s.mem.wf = true) : (s.putWord a v).mem.wf = true :=
  putByte_wf _ _ _ (putByte_wf _ _ _ h)

theorem writeWord_wf {s t : State} {a v : Word} (h : s.mem.wf = true) (ht : s.writeWord a v = .done t) :
    t.mem.wf = true := by
  unfold State.writeWord at ht
  split at ht
  · cases ht
  · split at ht
    · cases ht
    · cases ht; exact putWord_wf s a v h

theorem dmaAccess_wf (s : State) (d : DmaAccess) (h : s.mem.wf = true) : (s.dmaAccess d).mem.wf = true := by
  cases d with
  | read a => exact h
  | write a v => exact putByte_wf s a v h

theorem dmaAccesses_wf (l : List DmaAccess) (s : State) (h : s.mem.wf = true) :
    (l.foldl State.dmaAccess s).mem.wf = true := by
  induction l generalizing s with
  | nil => exact h
  | cons d l ih => exact ih _ (dmaAccess_wf s d h)

/-- The bus at a boundary keeps the canonical form. -/
theorem dmaBoundary_wf (s : State) (q : Bool) (l : List DmaAccess) (h : s.mem.wf = true) :
    (s.dmaBoundary q l).mem.wf = true := by
  unfold State.dmaBoundary
  split
  · exact dmaAccesses_wf l s h
  · exact h

/-! ## The address map -/

theorem isDevice_iff (s : State) (a : Word) : s.isDevice a = true ↔ s.kindAt a = .peripheral := by
  simp [State.isDevice]

theorem isDevice_eq (s : State) (a : Word) : s.isDevice a = decide (s.kindAt a = .peripheral) := by
  rw [Bool.eq_iff_iff, isDevice_iff, decide_eq_true_iff]

/-- Storage is no device. -/
theorem Stored.not_device {s : State} {a : Word} (h : Stored s a) : s.isDevice a = false := by
  rw [isDevice_eq]
  rcases h with h | ⟨b, h⟩ <;> simp [h]

/-- When a write is not stopped. -/
theorem writeStop_eq_none {s : State} {a : Word} : s.writeStop a = none ↔ Writable s a := by
  unfold State.writeStop Writable
  split <;> simp_all

theorem Writable.of_ram {s : State} {a : Word} (h : s.kindAt a = .ram) : Writable s a := by simp [Writable, h]

theorem RamWord.writable {s : State} {a : Word} (h : RamWord s a) (ho : isOdd a = false) : WordWritable s a :=
  ⟨ho, .of_ram h.1, .of_ram h.2⟩

theorem RamWord.isDeviceWord {s : State} {a : Word} (h : RamWord s a) : s.isDeviceWord a = false := by
  simp [State.isDeviceWord, isDevice_eq, h.1, h.2]

/-- The map alone decides what stands at an address. -/
theorem kindAt_congr {s t : State} (h : t.map = s.map) (a : Word) : t.kindAt a = s.kindAt a := by
  rw [State.kindAt, State.kindAt, h]

/-! ## Bytes and words of a state -/

theorem readByte_writeByte (s : State) (a : Word) (b : Byte) (c : Word) :
    (s.writeByte a b).readByte c = if c = a then some b else s.readByte c := by
  simp only [State.readByte, writeByte_mem, byteAt_setByte, BitVec.toNat_inj]

/-- A byte write puts its byte where the map has read-write storage, and changes no other (R76). -/
theorem readByte_putByte (s : State) (a : Word) (b : Byte) (c : Word) :
    (s.putByte a b).readByte c = if c = a then byteAfterWrite s a b else s.readByte c := by
  unfold State.putByte byteAfterWrite
  by_cases h : s.kindAt a = .ram
  · rw [if_pos h, if_pos h, readByte_writeByte]
  · rw [if_neg h, if_neg h]
    by_cases hc : c = a <;> simp [hc]

theorem add_one_ne (a : Word) : a + 1#16 ≠ a := by
  intro h
  have := congrArg BitVec.toNat h
  simp at this
  omega

/-- An aligned word write: each byte at its place, high byte first, no other byte changed (R77). -/
theorem readByte_putWord (s : State) (a v c : Word) :
    (s.putWord a v).readByte c =
      if c = a + 1#16 then byteAfterWrite s (a + 1#16) (lowByte v)
      else if c = a then byteAfterWrite s a (highByte v) else s.readByte c := by
  have h : byteAfterWrite (s.putByte a (highByte v)) (a + 1#16) (lowByte v) =
      byteAfterWrite s (a + 1#16) (lowByte v) := by
    unfold byteAfterWrite
    rw [putByte_kindAt, readByte_putByte, if_neg (add_one_ne a)]
  unfold State.putWord
  rw [withDev_readByte, readByte_putByte, readByte_putByte, h]

theorem putWord_dev (s : State) (a v : Word) :
    (s.putWord a v).dev = s.dev.note (s.isDeviceWord a) (.writeWord a v) := rfl

theorem memWriteByte_dev (s : State) (a : Word) (v : Byte) :
    (s.memWriteByte a v).dev = s.dev.note (s.isDevice a) (.writeByte a v) := rfl

theorem readByte_memWriteByte (s : State) (a : Word) (b : Byte) (c : Word) :
    (s.memWriteByte a b).readByte c = if c = a then byteAfterWrite s a b else s.readByte c :=
  readByte_putByte s a b c

@[simp] theorem wordOfBytes_parts (v : Word) : wordOfBytes (highByte v) (lowByte v) = v := by
  apply BitVec.eq_of_getLsbD_eq
  intro i hi
  simp only [wordOfBytes, highByte, lowByte, BitVec.getLsbD_append, BitVec.getLsbD_extractLsb']
  grind

@[simp] theorem highByte_wordOfBytes (h l : Byte) : highByte (wordOfBytes h l) = h := by
  apply BitVec.eq_of_getLsbD_eq
  intro i hi
  simp [wordOfBytes, highByte, BitVec.getLsbD_extractLsb']
  grind

@[simp] theorem lowByte_wordOfBytes (h l : Byte) : lowByte (wordOfBytes h l) = l := by
  apply BitVec.eq_of_getLsbD_eq
  intro i hi
  simp [wordOfBytes, lowByte, BitVec.getLsbD_extractLsb']
  grind

/-! ## Reading -/

theorem takeByte_stored {s : State} {a : Word} {b : Byte} (d : Device) (hs : Stored s a) (h : s.readByte a = some b) :
    s.takeByte d a = .value b d := by
  unfold State.takeByte
  rcases hs with hs | ⟨f, hs⟩ <;> simp [hs, h]

theorem takeByte_unwritten {s : State} {a : Word} (d : Device) (hs : Stored s a) (h : s.readByte a = none) :
    s.takeByte d a = .unwritten := by
  unfold State.takeByte
  rcases hs with hs | ⟨f, hs⟩ <;> simp [hs, h]

theorem takeByte_device {s : State} {a : Word} (d : Device) (h : s.kindAt a = .peripheral) :
    s.takeByte d a = .value d.answer.1 d.answer.2 := by simp [State.takeByte, h]

theorem takeByte_unmapped {s : State} {a : Word} (d : Device) (h : s.kindAt a = .empty none) :
    s.takeByte d a = .unmapped := by simp [State.takeByte, h]

/-- A read depends on the map, the stored bytes and the peripherals alone. -/
theorem takeByte_congr {s t : State} {a : Word} (d : Device) (hm : t.map = s.map) (h : t.readByte a = s.readByte a) :
    t.takeByte d a = s.takeByte d a := by
  unfold State.takeByte
  rw [kindAt_congr hm, h]

/-- A device word of a state depends on the map alone. -/
theorem isDeviceWord_congr {s t : State} (h : t.map = s.map) (a : Word) : t.isDeviceWord a = s.isDeviceWord a := by
  simp [State.isDeviceWord, State.isDevice, kindAt_congr h]

theorem readWord_congr {s t : State} {a : Word} (hm : t.map = s.map) (hd : t.dev = s.dev)
    (h1 : t.readByte a = s.readByte a) (h2 : t.readByte (a + 1#16) = s.readByte (a + 1#16)) :
    t.readWord a = s.readWord a := by
  unfold State.readWord
  simp only [hd, takeByte_congr _ hm h1, takeByte_congr _ hm h2, isDeviceWord_congr hm]

/-- A word of storage, both its bytes having a value: read high byte first, the peripherals untouched (R75). -/
theorem readWord_stored {s : State} {a : Word} {hi lo : Byte} (ho : isOdd a = false) (s1 : Stored s a)
    (s2 : Stored s (a + 1#16)) (h1 : s.readByte a = some hi) (h2 : s.readByte (a + 1#16) = some lo) :
    s.readWord a = .value (wordOfBytes hi lo) s.dev := by
  have hd : s.isDeviceWord a = false := by simp [State.isDeviceWord, s1.not_device, s2.not_device]
  unfold State.readWord
  simp [ho, takeByte_stored _ s1 h1, takeByte_stored _ s2 h2, hd, Device.note]

theorem readWord_misaligned {s : State} {a : Word} (h : isOdd a = true) : s.readWord a = .misaligned := by
  simp [State.readWord, h]

theorem readWord_ne_misaligned {s : State} {a : Word} (h : isOdd a = false) : s.readWord a ≠ .misaligned := by
  unfold State.readWord
  rw [h]
  simp only [Bool.false_eq_true, if_false]
  split <;> (try simp)
  split <;> simp

theorem isOdd_of_misaligned {s : State} {a : Word} (h : s.readWord a = .misaligned) : isOdd a = true := by
  by_contra hn
  exact readWord_ne_misaligned (by simpa using hn) h

theorem isOdd_of_value {s : State} {a w : Word} {d : Device} (h : s.readWord a = .value w d) : isOdd a = false := by
  by_contra hn
  rw [readWord_misaligned (by simpa using hn)] at h
  cases h

/-- A byte of no device is read without touching the peripherals, whatever they hold. -/
theorem takeByte_plain {s : State} {a : Word} {d e : Device} {b : Byte} (hn : s.isDevice a = false)
    (h : s.takeByte d a = .value b e) : e = d ∧ ∀ f : Device, s.takeByte f a = .value b f := by
  rw [isDevice_eq, decide_eq_false_iff_not] at hn
  unfold State.takeByte at h ⊢
  split at h
  · next hk => exact absurd hk hn
  · next hk => cases h; simp
  · cases h
  all_goals
    split at h
    · cases h; simp
    · cases h

/-- An access shown to the host is seen: it makes the list of accesses longer. -/
theorem note_ne {d f : Device} {e : Access} (h : f.accesses = d.accesses) : f.note true e ≠ d := by
  intro hc
  have := congrArg Device.accesses hc
  simp [Device.note, h] at this

theorem answer_accesses (d : Device) : d.answer.2.accesses = d.accesses := by
  unfold Device.answer; split <;> rfl

theorem takeByte_accesses {s : State} {a : Word} {d e : Device} {b : Byte} (h : s.takeByte d a = .value b e) :
    e.accesses = d.accesses := by
  unfold State.takeByte at h
  split at h
  · cases h; exact answer_accesses d
  · cases h; rfl
  · cases h
  all_goals
    split at h
    · cases h; rfl
    · cases h

/-- What a plain word read says (`WordReadable`): the address is even, no device is concerned, and each byte reads as its
half of the word whatever the peripherals hold. -/
theorem wordReadable_iff {s : State} {a v : Word} :
    WordReadable s a v ↔ isOdd a = false ∧ s.isDeviceWord a = false ∧ s.takeByte s.dev a = .value (highByte v) s.dev ∧
      s.takeByte s.dev (a + 1#16) = .value (lowByte v) s.dev := by
  unfold WordReadable
  constructor
  · intro h
    have ho := isOdd_of_value h
    unfold State.readWord at h
    rw [ho] at h
    simp only [Bool.false_eq_true, if_false] at h
    split at h
    · cases h
    · cases h
    · next hi d1 h1 =>
      split at h
      · cases h
      · cases h
      · next lo d2 h2 =>
        simp only [ReadWord.value.injEq] at h
        obtain ⟨rfl, hd⟩ := h
        have hacc : d2.accesses = s.dev.accesses := (takeByte_accesses h2).trans (takeByte_accesses h1)
        cases hdev : s.isDeviceWord a
        · rw [hdev] at hd
          have e2 : d2 = s.dev := hd
          simp only [State.isDeviceWord, Bool.or_eq_false_iff] at hdev
          obtain ⟨e1, -⟩ := takeByte_plain hdev.1 h1
          obtain ⟨-, e3⟩ := takeByte_plain hdev.2 h2
          refine ⟨ho, rfl, ?_, ?_⟩
          · rw [highByte_wordOfBytes, h1, e1]
          · rw [lowByte_wordOfBytes]; exact e3 s.dev
        · rw [hdev] at hd
          exact absurd hd (note_ne hacc)
  · rintro ⟨ho, hdev, h1, h2⟩
    unfold State.readWord
    simp [ho, h1, h2, hdev, Device.note]

/-- A word of storage reads as its bytes (R75). -/
theorem wordReadable_of_stored {s : State} {a v : Word} (ho : isOdd a = false) (s1 : Stored s a)
    (s2 : Stored s (a + 1#16)) (h1 : s.readByte a = some (highByte v)) (h2 : s.readByte (a + 1#16) = some (lowByte v)) :
    WordReadable s a v := by
  have := readWord_stored ho s1 s2 h1 h2
  rwa [wordOfBytes_parts] at this

/-! ## Writing -/

theorem ByteWriteStops.writeStop {s : State} {a : Word} {f : Fault} (h : ByteWriteStops s a f) :
    s.writeStop a = some f := by
  rcases h with ⟨h, rfl⟩ | ⟨h, rfl⟩ <;> simp [State.writeStop, h]

/-- Where a word write stops depends on the map alone. -/
theorem wordWriteStops_congr {s t : State} (h : t.map = s.map) (a : Word) (f : Fault) :
    WordWriteStops t a f ↔ WordWriteStops s a f := by
  simp only [WordWriteStops, ByteWriteStops, Writable, kindAt_congr h]

/-- An aligned word write that the map stops at one of its bytes (R82). -/
theorem writeWord_stopped {s : State} {a : Word} {f : Fault} (v : Word) (ho : isOdd a = false)
    (h : WordWriteStops s a f) : s.writeWord a v = .stopped f := by
  rcases h with h | ⟨hw, h⟩
  · simp [State.writeWord, ho, h.writeStop]
  · simp [State.writeWord, ho, writeStop_eq_none.mpr hw, h.writeStop]

/-- What a word write can do (R77): nothing at an odd address, a stop where the map says so, else the word put there. -/
theorem writeWord_cases (s : State) (a v : Word) :
    (isOdd a = true ∧ s.writeWord a v = .misaligned) ∨
      (isOdd a = false ∧ ¬WordWritable s a ∧ ∃ f, s.writeWord a v = .stopped f) ∨
      (WordWritable s a ∧ s.writeWord a v = .done (s.putWord a v)) := by
  unfold State.writeWord
  cases ho : isOdd a
  · refine .inr ?_
    simp only [Bool.false_eq_true, if_false]
    cases h1 : s.writeStop a with
    | some f =>
      refine .inl ⟨trivial, fun h => ?_, f, rfl⟩
      rw [writeStop_eq_none.mpr h.2.1] at h1
      cases h1
    | none =>
      cases h2 : s.writeStop (a + 1#16) with
      | some f =>
        refine .inl ⟨trivial, fun h => ?_, f, rfl⟩
        rw [writeStop_eq_none.mpr h.2.2] at h2
        cases h2
      | none => exact .inr ⟨⟨ho, writeStop_eq_none.mp h1, writeStop_eq_none.mp h2⟩, rfl⟩
  · exact .inl ⟨rfl, rfl⟩

theorem writeWord_done {s : State} {a : Word} (v : Word) (h : WordWritable s a) :
    s.writeWord a v = .done (s.putWord a v) := by
  rcases writeWord_cases s a v with ⟨h', _⟩ | ⟨_, h', _⟩ | ⟨_, h'⟩
  · rw [h.1] at h'; cases h'
  · exact absurd h h'
  · exact h'

theorem writeWord_odd {s : State} {a : Word} (v : Word) (h : isOdd a = true) : s.writeWord a v = .misaligned := by
  simp [State.writeWord, h]

/-- Where a write may go depends on the map alone. -/
theorem wordWritable_congr {s t : State} (h : t.map = s.map) (a : Word) : WordWritable t a ↔ WordWritable s a := by
  simp [WordWritable, Writable, kindAt_congr h]

theorem note_eq (d : Device) (c : Bool) (e : Access) :
    d.note c e = if c = true then { d with accesses := d.accesses ++ [e] } else d := rfl

/-- What an aligned word write leaves in memory and shows the host (R77, R83). -/
theorem putWord_storedWord (s : State) (a v : Word) : StoredWord a v s (s.putWord a v) := by
  refine ⟨?_, ?_, fun c h1 h2 => ?_, ?_⟩
  · rw [readByte_putWord, if_neg (add_one_ne a).symm, if_pos rfl]
  · rw [readByte_putWord, if_pos rfl]
  · rw [readByte_putWord, if_neg h2, if_neg h1]
  · rw [putWord_dev, note_eq]
    simp [State.isDeviceWord, isDevice_eq]

/-- A word write to read-write storage shows nothing to the host. -/
theorem putWord_dev_ram {s : State} {a : Word} (v : Word) (h : RamWord s a) : (s.putWord a v).dev = s.dev := by
  rw [putWord_dev, h.isDeviceWord]; rfl

/-- Each byte after a word write to read-write storage (R77). -/
theorem readByte_putWord_ram {s : State} {a : Word} (v : Word) (h : RamWord s a) (c : Word) :
    (s.putWord a v).readByte c =
      if c = a + 1#16 then some (lowByte v) else if c = a then some (highByte v) else s.readByte c := by
  rw [readByte_putWord, byteAfterWrite, byteAfterWrite, if_pos h.1, if_pos h.2]

/-- A word write to read-write storage is read back (R72). -/
theorem wordReadable_putWord {s : State} {a : Word} (v : Word) (ho : isOdd a = false) (h : RamWord s a) :
    WordReadable (s.putWord a v) a v := by
  apply wordReadable_of_stored ho
  · exact .inl (by simpa using h.1)
  · exact .inl (by simpa using h.2)
  · rw [readByte_putWord_ram v h, if_neg (add_one_ne a).symm, if_pos rfl]
  · rw [readByte_putWord_ram v h, if_pos rfl]

/-! ## Parity -/

/-- Even and odd after adding an even constant: the parity of an address is its bit 0. -/
theorem isOdd_eq (a : Word) : isOdd a = decide (a.toNat % 2 = 1) := by
  simp [isOdd, BitVec.getLsbD, Nat.testBit_zero]

theorem isOdd_sub_even (a k : Word) (h : k.toNat % 2 = 0) : isOdd (a - k) = isOdd a := by
  rw [isOdd_eq, isOdd_eq, BitVec.toNat_sub]
  have := a.isLt
  have := k.isLt
  congr 1
  apply propext
  constructor <;> intro <;> omega

theorem isOdd_add_even (a k : Word) (h : k.toNat % 2 = 0) : isOdd (a + k) = isOdd a := by
  rw [isOdd_eq, isOdd_eq, BitVec.toNat_add]
  have := a.isLt
  have := k.isLt
  congr 1
  apply propext
  constructor <;> intro <;> omega

end Sys2Proof.Machine
end

