-- ==== Sys2Proof/Laws/Exceptions.lean ====
section
/-! SUPPORT. What a data access, the end of an arithmetic instruction, an exception entry and a return from exception can
do (spec/60_exceptions.md R308 to R313, R319, spec/44_control_flow.md R268). -/

namespace Sys2Proof.Machine

/-! ## Data accesses -/

theorem loadWord_value {s : State} {a v : Word} {d : Device} (k : Word → State → Result)
    (h : s.readWord a = .value v d) : loadWord s a k = k v (s.withDev d) := by simp [loadWord, h]

theorem loadWord_odd {s : State} {a : Word} (k : Word → State → Result) (h : isOdd a = true) :
    loadWord s a k = takeException .dDesalinhado s := by simp [loadWord, readWord_misaligned h]

/-- When a word load goes on: with the word read, or with D_DESALINHADO at an odd address (R75). -/
theorem loadWord_next {s t : State} {a : Word} {k : Word → State → Result} (h : loadWord s a k = .next t) :
    (∃ v d, s.readWord a = .value v d ∧ k v (s.withDev d) = .next t) ∨
      (isOdd a = true ∧ takeException .dDesalinhado s = .next t) := by
  unfold loadWord at h
  split at h
  · next v d hv => exact .inl ⟨v, d, hv, h⟩
  · next hv => exact .inr ⟨isOdd_of_misaligned hv, h⟩
  · cases h
  · cases h

theorem loadByte_value {s : State} {a : Word} {b : Byte} {d : Device} (k : Byte → State → Result)
    (h : s.memReadByte a = .value b d) : loadByte s a k = k b (s.withDev d) := by simp [loadByte, h]

/-- When a byte load goes on: with the byte read (R74). -/
theorem loadByte_next {s t : State} {a : Word} {k : Byte → State → Result} (h : loadByte s a k = .next t) :
    ∃ b d, s.memReadByte a = .value b d ∧ k b (s.withDev d) = .next t := by
  unfold loadByte at h
  split at h
  · next b d hb => exact ⟨b, d, hb, h⟩
  · cases h
  · cases h

theorem storeWord_done {s : State} {a : Word} (v : Word) (k : State → Result) (h : WordWritable s a) :
    storeWord s a v k = k (s.putWord a v) := by simp [storeWord, writeWord_done v h]

theorem storeWord_odd {s : State} {a : Word} (v : Word) (k : State → Result) (h : isOdd a = true) :
    storeWord s a v k = takeException .dDesalinhado s := by simp [storeWord, writeWord_odd v h]

/-- When a word store goes on: with the word stored, or with D_DESALINHADO at an odd address (R77). -/
theorem storeWord_next {s t : State} {a v : Word} {k : State → Result} (h : storeWord s a v k = .next t) :
    (WordWritable s a ∧ k (s.putWord a v) = .next t) ∨
      (isOdd a = true ∧ takeException .dDesalinhado s = .next t) := by
  unfold storeWord at h
  rcases writeWord_cases s a v with ⟨ho, h'⟩ | ⟨_, _, f, h'⟩ | ⟨hw, h'⟩ <;> rw [h'] at h
  · exact .inr ⟨ho, h⟩
  · cases h
  · exact .inl ⟨hw, h⟩

theorem storeByte_done {s : State} {a : Word} (v : Byte) (k : State → Result) (h : Writable s a) :
    storeByte s a v k = k (s.memWriteByte a v) := by simp [storeByte, writeStop_eq_none.mpr h]

/-- When a byte store goes on: with the byte stored (R76). -/
theorem storeByte_next {s t : State} {a : Word} {v : Byte} {k : State → Result} (h : storeByte s a v k = .next t) :
    Writable s a ∧ k (s.memWriteByte a v) = .next t := by
  unfold storeByte at h
  split at h
  · next hw => exact ⟨writeStop_eq_none.mp hw, h⟩
  · cases h

theorem endArith_quiet {v tv : Bool} (s : State) (h : (v && tv) = false) : endArith v tv s = .next s.advance := by
  simp [endArith, h]

theorem endArith_trap {v tv : Bool} (s : State) (h : (v && tv) = true) :
    endArith v tv s = takeException .excesso s := by
  simp [endArith, h]

/-- How an instruction that computes V ends: at the next instruction, or with EXCESSO (R156). -/
theorem endArith_next {v tv : Bool} {s t : State} (h : endArith v tv s = .next t) :
    ((v && tv) = false ∧ t = s.advance) ∨ ((v && tv) = true ∧ takeException .excesso s = .next t) := by
  unfold endArith at h
  split at h
  · next hv => exact .inr ⟨hv, h⟩
  · next hv => exact .inl ⟨by simpa using hv, by cases h; rfl⟩

/-! ## Taking an exception -/

/-- The state of an entry with RE saved and cleared, before any store. -/
def entryStart (s : State) : State := { s with temp := s.re, re := 0#16 }

/-- The state of an entry with both words of the frame stored on the system stack. -/
def entryFrame (ret : Word) (s : State) : State :=
  ((entryStart s).putWord (s.ssp - 2#16) ret).putWord (s.ssp - 4#16) s.re

/-- RE is cleared before SP is used, so SP is SSP (R313). -/
theorem entryStart_x_sp (s : State) : (entryStart s).x .sp = s.ssp := by
  simp [x_sp, entryStart, State.np]

theorem isOdd_sub_two (a : Word) : isOdd (a - 2#16) = isOdd a := isOdd_sub_even a 2#16 (by decide)
theorem isOdd_sub_four (a : Word) : isOdd (a - 4#16) = isOdd a := isOdd_sub_even a 4#16 (by decide)

theorem two_mul_even (w : Word) : (2#16 * w).toNat % 2 = 0 := by
  simp [BitVec.toNat_mul]

/-- A table word is aligned exactly when BTE is. -/
theorem isOdd_vectorAddr (s : State) (k : Byte) : isOdd (vectorAddr s k) = isOdd s.bte :=
  isOdd_add_even s.bte _ (two_mul_even _)

/-- Everything the entry sequence can do (R310, R319): a double fault or a stop of the map at a store, a double fault at
the table read, a table word that cannot be read, or the frame written, pc loaded from the table and SSP lowered. -/
theorem enter_eq (k : Byte) (ret : Word) (s : State) :
    enter k ret s =
      match (entryStart s).writeWord (s.ssp - 2#16) ret with
      | .misaligned => .next (entryStart s).stuck
      | .stopped f => .fault f
      | .done s2 =>
        match s2.writeWord (s.ssp - 4#16) s.re with
        | .misaligned => .next s2.stuck
        | .stopped f => .fault f
        | .done s3 =>
          match s3.readWord (vectorAddr s k) with
          | .misaligned => .next s3.stuck
          | .unwritten => .fault .unwrittenVector
          | .unmapped => .fault .unmapped
          | .value t d => .next { s3 with pc := t, dev := d, ssp := s.ssp - 4#16 } := by
  have hsp := entryStart_x_sp s
  have hput : ∀ (u : State) (a v : Word), (u.putWord a v).x .sp = u.x .sp := fun u a v =>
    x_congr (fun p => putWord_get u a v p) .sp
  have h0 : enter k ret s =
      match (entryStart s).writeWord ((entryStart s).x .sp - 2#16) ret with
      | .misaligned => .next (entryStart s).stuck
      | .stopped f => .fault f
      | .done s2 =>
        match s2.writeWord (s2.x .sp - 4#16) s2.temp with
        | .misaligned => .next s2.stuck
        | .stopped f => .fault f
        | .done s3 =>
          match s3.readWord (s3.bte + 2#16 * k.setWidth 16) with
          | .misaligned => .next s3.stuck
          | .unwritten => .fault .unwrittenVector
          | .unmapped => .fault .unmapped
          | .value t d => .next (({ s3 with pc := t, dev := d } : State).setX .sp
              (({ s3 with pc := t, dev := d } : State).x .sp - 4#16)) := rfl
  rw [h0, hsp]
  rcases writeWord_cases (entryStart s) (s.ssp - 2#16) ret with ⟨_, h1⟩ | ⟨_, _, f, h1⟩ | ⟨_, h1⟩ <;> simp only [h1]
  have ht : ((entryStart s).putWord (s.ssp - 2#16) ret).temp = s.re := by simp [entryStart]
  rw [hput, hsp, ht]
  rcases writeWord_cases ((entryStart s).putWord (s.ssp - 2#16) ret) (s.ssp - 4#16) s.re with
    ⟨_, h2⟩ | ⟨_, _, f, h2⟩ | ⟨_, h2⟩ <;> simp only [h2]
  have hb : (((entryStart s).putWord (s.ssp - 2#16) ret).putWord (s.ssp - 4#16) s.re).bte + 2#16 * k.setWidth 16 =
      vectorAddr s k := by simp [entryStart, vectorAddr]
  have h3 : ∀ (u : State) (t : Word) (d : Device), u.np = false → u.ssp = s.ssp →
      ({ u with pc := t, dev := d } : State).setX .sp (({ u with pc := t, dev := d } : State).x .sp - 4#16) =
        { u with pc := t, dev := d, ssp := s.ssp - 4#16 } := by
    intro u t d hn hs
    have hn' : ({ u with pc := t, dev := d } : State).np = false := hn
    rw [x_sp, State.setX, hn']
    simp only [Bool.false_eq_true, if_false, hs]
    rfl
  rw [hb]
  split <;> first | rfl | skip
  rw [h3 _ _ _ (by simp [State.np, entryStart]) (by simp [entryStart])]

/-- Everything the entry sequence can do when it answers a state (R310, R319): a double fault at the first store or at
the table read, or the frame written, pc loaded from the table and SSP lowered. -/
theorem enter_next {k : Byte} {ret : Word} {s t : State} (h : enter k ret s = .next t) :
    (isOdd s.ssp = true ∧ t = (entryStart s).stuck) ∨
      (isOdd s.ssp = false ∧ isOdd s.bte = true ∧ t = (entryFrame ret s).stuck) ∨
      (isOdd s.ssp = false ∧ isOdd s.bte = false ∧
        ∃ v d, (entryFrame ret s).readWord (vectorAddr s k) = .value v d ∧
          t = { entryFrame ret s with pc := v, dev := d, ssp := s.ssp - 4#16 }) := by
  rw [enter_eq] at h
  rcases writeWord_cases (entryStart s) (s.ssp - 2#16) ret with ⟨ho, h1⟩ | ⟨_, _, f, h1⟩ | ⟨hw, h1⟩ <;> rw [h1] at h
  · rw [isOdd_sub_two] at ho
    cases h
    exact .inl ⟨ho, rfl⟩
  · cases h
  · have ho : isOdd s.ssp = false := by rw [← isOdd_sub_two]; exact hw.1
    refine .inr ?_
    simp only at h
    rcases writeWord_cases ((entryStart s).putWord (s.ssp - 2#16) ret) (s.ssp - 4#16) s.re with
      ⟨ho', _⟩ | ⟨_, _, f, h2⟩ | ⟨_, h2⟩
    · rw [isOdd_sub_four, ho] at ho'
      cases ho'
    · rw [h2] at h
      cases h
    · rw [h2] at h
      simp only at h
      rw [show ((entryStart s).putWord (s.ssp - 2#16) ret).putWord (s.ssp - 4#16) s.re = entryFrame ret s from rfl] at h
      cases hb : isOdd s.bte
      · refine .inr ⟨ho, rfl, ?_⟩
        split at h
        · next hm =>
          exfalso
          have := isOdd_of_misaligned hm
          rw [isOdd_vectorAddr, hb] at this
          cases this
        · cases h
        · cases h
        · next v d hv => cases h; exact ⟨v, d, hv, rfl⟩
      · rw [readWord_misaligned (by rw [isOdd_vectorAddr, hb])] at h
        cases h
        exact .inl ⟨ho, rfl, rfl⟩

theorem enter_odd_ssp {k : Byte} {ret : Word} {s : State} (h : isOdd s.ssp = true) :
    enter k ret s = .next (entryStart s).stuck := by
  rw [enter_eq, writeWord_odd ret (by rw [isOdd_sub_two, h])]

/-- An entry whose frame the map lets it write reaches the table (R313). -/
theorem enter_writable {k : Byte} {ret : Word} {s : State} (h2 : WordWritable s (s.ssp - 2#16))
    (h4 : WordWritable s (s.ssp - 4#16)) :
    enter k ret s =
      match (entryFrame ret s).readWord (vectorAddr s k) with
      | .misaligned => .next (entryFrame ret s).stuck
      | .unwritten => .fault .unwrittenVector
      | .unmapped => .fault .unmapped
      | .value v d => .next { entryFrame ret s with pc := v, dev := d, ssp := s.ssp - 4#16 } := by
  have w2 : WordWritable (entryStart s) (s.ssp - 2#16) := h2
  have w4 : WordWritable ((entryStart s).putWord (s.ssp - 2#16) ret) (s.ssp - 4#16) :=
    (wordWritable_congr (putWord_map ..) _).mpr (show WordWritable (entryStart s) (s.ssp - 4#16) from h4)
  rw [enter_eq, writeWord_done ret w2]
  simp only
  rw [writeWord_done s.re w4]
  rfl

/-- An entry stops where the map does not let it write its first frame word (R313). -/
theorem enter_stops_first {k : Byte} {ret : Word} {s : State} {f : Fault} (ho : isOdd s.ssp = false)
    (h : WordWriteStops s (s.ssp - 2#16) f) : enter k ret s = .fault f := by
  have w : (entryStart s).writeWord (s.ssp - 2#16) ret = .stopped f :=
    writeWord_stopped ret (by rw [isOdd_sub_two, ho]) h
  rw [enter_eq, w]

/-- An entry stops where the map does not let it write its second frame word (R313). -/
theorem enter_stops_second {k : Byte} {ret : Word} {s : State} {f : Fault} (h2 : WordWritable s (s.ssp - 2#16))
    (h : WordWriteStops s (s.ssp - 4#16) f) : enter k ret s = .fault f := by
  have ho : isOdd (s.ssp - 4#16) = false := by rw [isOdd_sub_four, ← isOdd_sub_two]; exact h2.1
  have w2 : WordWritable (entryStart s) (s.ssp - 2#16) := h2
  have w4 : ((entryStart s).putWord (s.ssp - 2#16) ret).writeWord (s.ssp - 4#16) s.re = .stopped f :=
    writeWord_stopped s.re ho ((wordWriteStops_congr (putWord_map ..) _ _).mpr
      (show WordWriteStops (entryStart s) (s.ssp - 4#16) f from h))
  rw [enter_eq, writeWord_done ret w2]
  simp only
  rw [w4]

/-- An entry whose frame lies in read-write storage reaches the table (R313). -/
theorem enter_frame {k : Byte} {ret : Word} {s : State} (ho : isOdd s.ssp = false) (h2 : RamWord s (s.ssp - 2#16))
    (h4 : RamWord s (s.ssp - 4#16)) :
    enter k ret s =
      match (entryFrame ret s).readWord (vectorAddr s k) with
      | .misaligned => .next (entryFrame ret s).stuck
      | .unwritten => .fault .unwrittenVector
      | .unmapped => .fault .unmapped
      | .value v d => .next { entryFrame ret s with pc := v, dev := d, ssp := s.ssp - 4#16 } :=
  enter_writable (h2.writable (by rw [isOdd_sub_two, ho])) (h4.writable (by rw [isOdd_sub_four, ho]))

/-- An entry with an odd BTE, its frame in read-write storage: stuck after both stores (R319). -/
theorem enter_odd_bte {k : Byte} {ret : Word} {s : State} (ho : isOdd s.ssp = false) (hb : isOdd s.bte = true)
    (h2 : RamWord s (s.ssp - 2#16)) (h4 : RamWord s (s.ssp - 4#16)) :
    enter k ret s = .next (entryFrame ret s).stuck := by
  rw [enter_frame ho h2 h4, readWord_misaligned (by rw [isOdd_vectorAddr, hb])]

/-- The frame in read-write storage shows nothing to the host. -/
theorem entryFrame_dev (ret : Word) {s : State} (h2 : RamWord s (s.ssp - 2#16)) (h4 : RamWord s (s.ssp - 4#16)) :
    (entryFrame ret s).dev = s.dev := by
  have e2 : RamWord (entryStart s) (s.ssp - 2#16) := h2
  have e4 : RamWord ((entryStart s).putWord (s.ssp - 2#16) ret) (s.ssp - 4#16) := by
    simpa [RamWord] using (show RamWord (entryStart s) (s.ssp - 4#16) from h4)
  rw [entryFrame, putWord_dev_ram _ e4, putWord_dev_ram _ e2]
  rfl

/-- Every byte after the two stores of an entry: the two words of the frame, and the rest as before. -/
theorem entryFrame_readByte (ret : Word) {s : State} (h2 : RamWord s (s.ssp - 2#16)) (h4 : RamWord s (s.ssp - 4#16))
    (a : Word) :
    (entryFrame ret s).readByte a =
      if a = s.ssp - 4#16 + 1#16 then some (lowByte s.re)
      else if a = s.ssp - 4#16 then some (highByte s.re)
      else if a = s.ssp - 2#16 + 1#16 then some (lowByte ret)
      else if a = s.ssp - 2#16 then some (highByte ret)
      else s.readByte a := by
  have e2 : RamWord (entryStart s) (s.ssp - 2#16) := h2
  have e4 : RamWord ((entryStart s).putWord (s.ssp - 2#16) ret) (s.ssp - 4#16) := by
    simpa [RamWord] using (show RamWord (entryStart s) (s.ssp - 4#16) from h4)
  rw [entryFrame, readByte_putWord_ram _ e4, readByte_putWord_ram _ e2]
  rfl

@[simp] theorem entryFrame_map (ret : Word) (s : State) : (entryFrame ret s).map = s.map := by
  simp [entryFrame, entryStart]

/-- The four addresses of a frame are distinct. -/
theorem frame_addresses (a : Word) :
    a - 4#16 ≠ a - 2#16 ∧ a - 4#16 ≠ a - 2#16 + 1#16 ∧ a - 4#16 + 1#16 ≠ a - 2#16 ∧
      a - 4#16 + 1#16 ≠ a - 2#16 + 1#16 ∧ a - 4#16 ≠ a - 4#16 + 1#16 ∧ a - 2#16 ≠ a - 2#16 + 1#16 ∧
      a - 2#16 + 1#16 = a - 1#16 ∧ a - 4#16 + 1#16 = a - 3#16 := by
  refine ⟨?_, ?_, ?_, ?_, ?_, ?_, ?_, ?_⟩ <;> bv_omega

/-- The two words of the frame, when SSP is even. -/
theorem entryFrame_words (ret : Word) {s : State} (h : isOdd s.ssp = false) (h2 : RamWord s (s.ssp - 2#16))
    (h4 : RamWord s (s.ssp - 4#16)) :
    WordReadable (entryFrame ret s) (s.ssp - 2#16) ret ∧ WordReadable (entryFrame ret s) (s.ssp - 4#16) s.re := by
  obtain ⟨n1, n2, n3, n4, n5, n6, _, _⟩ := frame_addresses s.ssp
  have hk : ∀ c : Word, s.kindAt c = .ram → Stored (entryFrame ret s) c := fun c hc =>
    .inl (by rw [kindAt_congr (entryFrame_map ret s), hc])
  constructor
  · refine wordReadable_of_stored (by rw [isOdd_sub_two, h]) (hk _ h2.1) (hk _ h2.2) ?_ ?_
    · rw [entryFrame_readByte _ h2 h4, if_neg n3.symm, if_neg n1.symm, if_neg n6, if_pos rfl]
    · rw [entryFrame_readByte _ h2 h4, if_neg n4.symm, if_neg n2.symm, if_pos rfl]
  · refine wordReadable_of_stored (by rw [isOdd_sub_four, h]) (hk _ h4.1) (hk _ h4.2) ?_ ?_
    · rw [entryFrame_readByte _ h2 h4, if_neg n5, if_pos rfl]
    · rw [entryFrame_readByte _ h2 h4, if_pos rfl]

/-- Every byte outside the frame is stored as before. -/
theorem entryFrame_others (ret : Word) {s : State} (r2 : RamWord s (s.ssp - 2#16)) (r4 : RamWord s (s.ssp - 4#16))
    {a : Word} (h4 : a ≠ s.ssp - 4#16) (h3 : a ≠ s.ssp - 3#16) (h2 : a ≠ s.ssp - 2#16) (h1 : a ≠ s.ssp - 1#16) :
    (entryFrame ret s).readByte a = s.readByte a := by
  obtain ⟨_, _, _, _, _, _, e1, e3⟩ := frame_addresses s.ssp
  rw [entryFrame_readByte _ r2 r4, e1, e3, if_neg h3, if_neg h4, if_neg h1, if_neg h2]

/-- A byte that is no device's and can be read before the two stores can be read after them. -/
theorem entryFrame_takeByte (ret : Word) {s : State} (r2 : RamWord s (s.ssp - 2#16)) (r4 : RamWord s (s.ssp - 4#16))
    {a : Word} {b : Byte} {d : Device} (hn : s.isDevice a = false) (h : s.takeByte d a = .value b d) (e : Device) :
    ∃ c, (entryFrame ret s).takeByte e a = .value c e := by
  rw [isDevice_eq, decide_eq_false_iff_not] at hn
  have hk : (entryFrame ret s).kindAt a = s.kindAt a := kindAt_congr (entryFrame_map ret s) a
  have hb : ∀ x, s.readByte a = some x → ∃ c, (entryFrame ret s).readByte a = some c := by
    intro x hx
    rw [entryFrame_readByte _ r2 r4]
    split_ifs <;> first | exact ⟨_, rfl⟩ | exact ⟨x, hx⟩
  unfold State.takeByte at h ⊢
  rw [hk]
  split at h
  · next h' => exact absurd h' hn
  · next x h' => exact ⟨x, by simp⟩
  · cases h
  all_goals
    next h' =>
    split at h
    · next x hx =>
      obtain ⟨c, hc⟩ := hb x hx
      exact ⟨c, by simp [hc]⟩
    · cases h

/-- A word that could be read before the two stores, no device being concerned, can be read after them. -/
theorem entryFrame_readable (ret : Word) {s : State} (r2 : RamWord s (s.ssp - 2#16)) (r4 : RamWord s (s.ssp - 4#16))
    {a v : Word} (h : WordReadable s a v) : ∃ w, WordReadable (entryFrame ret s) a w := by
  obtain ⟨ho, hd, h1, h2⟩ := wordReadable_iff.mp h
  have hd' := hd
  simp only [State.isDeviceWord, Bool.or_eq_false_iff] at hd'
  obtain ⟨x, hx⟩ := entryFrame_takeByte ret r2 r4 hd'.1 h1 (entryFrame ret s).dev
  obtain ⟨y, hy⟩ := entryFrame_takeByte ret r2 r4 hd'.2 h2 (entryFrame ret s).dev
  refine ⟨wordOfBytes x y, wordReadable_iff.mpr ⟨ho, ?_, ?_, ?_⟩⟩
  · rw [isDeviceWord_congr (entryFrame_map ret s), hd]
  · rw [highByte_wordOfBytes, hx]
  · rw [lowByte_wordOfBytes, hy]

/-- An entry keeps the canonical form of memory. -/
theorem enter_wf {k : Byte} {ret : Word} {s t : State} (hs : s.mem.wf = true) (h : enter k ret s = .next t) :
    t.mem.wf = true := by
  have hf : (entryFrame ret s).mem.wf = true := putWord_wf _ _ _ (putWord_wf _ _ _ hs)
  rcases enter_next h with ⟨_, rfl⟩ | ⟨_, _, rfl⟩ | ⟨_, _, v, d, _, rfl⟩
  · exact hs
  · exact hf
  · exact hf

/-- An entry changes none of RCN, the latches, the pins and the map. -/
theorem enter_pins {k : Byte} {ret : Word} {s t : State} (h : enter k ret s = .next t) :
    t.rcn = s.rcn ∧ t.ip = s.ip ∧ t.intPins = s.intPins ∧ t.restart = s.restart ∧ t.inta = s.inta ∧ t.bgt = s.bgt ∧
      t.inputs = s.inputs ∧ t.map = s.map ∧ t.draws = s.draws := by
  rcases enter_next h with ⟨_, rfl⟩ | ⟨_, _, rfl⟩ | ⟨_, _, v, d, _, rfl⟩ <;>
    simp [entryFrame, entryStart]

/-- Whatever the exception, it is entered with its index and the address R311 saves. -/
theorem takeException_eq (e : Exc) (s : State) : takeException e s = enter e.index (returnAddress e s) s := rfl

/-! ## Returning from an exception -/

/-- Writing the stack pointer changes no other register; TEMP is one. -/
theorem setX_temp_of_sp (s : State) (v : Word) : (s.setX .sp v).temp = s.temp := by
  cases h : s.np <;> simp [State.setX, Reg.phys, h, State.set]

/-- What the last lines of a return leave (R268). -/
theorem finishReturn_spec (s : State) (t2 : Word) :
    (s.finishReturn t2).re = s.temp ∧ (s.finishReturn t2).pc = t2 ∧ (s.finishReturn t2).temp = s.temp ∧
      (s.finishReturn t2).get (Reg.phys s.np .sp) = s.x .sp + 4#16 ∧
      SameRegsBut [.re, Reg.phys s.np .sp] s (s.finishReturn t2) ∧ (s.finishReturn t2).mem = s.mem ∧
      SameHost s (s.finishReturn t2) := by
  have hn : ({ s with pc := t2 } : State).np = s.np := rfl
  unfold State.finishReturn
  generalize s.x .sp + 4#16 = v
  rw [State.setX, hn]
  cases s.np <;>
    refine ⟨rfl, rfl, rfl, rfl, ?_, rfl, by simp [SameHost, SameControl]⟩ <;>
    · intro p hp
      cases p <;> first | rfl | exact absurd (by simp [Reg.phys]) hp

/-- The state a return leaves (R268). -/
def returned (s : State) (w1 w2 : Word) (d : Device) : State :=
  ({ s.withDev d with temp := w1 } : State).finishReturn w2

/-- A return that reads both its words (R268). -/
theorem returnFromException_value {s : State} {w1 w2 : Word} {d e : Device}
    (h1 : s.readWord (s.x .sp) = .value w1 d) (h2 : (s.withDev d).readWord (s.x .sp + 2#16) = .value w2 e) :
    returnFromException s = .next (returned s w1 w2 e) := by
  have hx : ({ s.withDev d with temp := w1 } : State).x .sp = s.x .sp := by rw [x_sp, x_sp]; rfl
  have h3 : ({ s.withDev d with temp := w1 } : State).readWord (s.x .sp + 2#16) = .value w2 e := h2
  unfold returnFromException
  rw [loadWord_value _ h1]
  simp only [hx]
  rw [loadWord_value _ h3]
  rfl

/-- Everything a return can do (R268): RE and pc popped from the stack of the current level, or D_DESALINHADO with an odd
SP. -/
theorem returnFromException_next {s t : State} (h : returnFromException s = .next t) :
    (∃ t1 t2 d e, s.readWord (s.x .sp) = .value t1 d ∧ (s.withDev d).readWord (s.x .sp + 2#16) = .value t2 e ∧
        t = returned s t1 t2 e) ∨
      (isOdd (s.x .sp) = true ∧ takeException .dDesalinhado s = .next t) := by
  have h0 := h
  unfold returnFromException at h
  rcases loadWord_next h with ⟨t1, d, h1, hk⟩ | hodd
  · have hx : ({ s.withDev d with temp := t1 } : State).x .sp = s.x .sp := by rw [x_sp, x_sp]; rfl
    simp only [hx] at hk
    rcases loadWord_next hk with ⟨t2, e, h2, _⟩ | ⟨ho, _⟩
    · refine .inl ⟨t1, t2, d, e, h1, h2, ?_⟩
      rw [returnFromException_value h1 h2] at h0
      cases h0
      rfl
    · have := isOdd_of_value h1
      rw [isOdd_add_even _ 2#16 (by decide), this] at ho
      cases ho
  · exact .inr hodd

end Sys2Proof.Machine
end

