-- ==== Sys2Proof/Laws/Interrupts.lean ====
section
/-! SUPPORT. The boundary before a fetch and the step (spec/60_exceptions.md R315, R316, spec/70_reset_and_hazards.md R350,
R357): what each can do. -/

namespace Sys2Proof.Machine

@[simp] theorem Lines.get_ofFn (f : Fin 4 → Bool) (i : Fin 4) : (Lines.ofFn f).get i = f i := by
  revert i; simp only [Fin.forall_iff_succ]; simp [Lines.ofFn, Lines.get]

@[simp] theorem Lines.get_all (b : Bool) (i : Fin 4) : (Lines.all b).get i = b := by
  revert i; simp only [Fin.forall_iff_succ]; simp [Lines.all, Lines.get]

theorem Lines.ext_get {l m : Lines} (h : ∀ i, l.get i = m.get i) : l = m := by
  have h0 := h 0
  have h1 := h 1
  have h2 := h 2
  have h3 := h 3
  cases l
  cases m
  simp_all [Lines.get]

theorem latchesFit_iff (s : State) :
    latchesFit s = true ↔ ∀ i : Fin 4, s.ip.get i = true → (sensitivity s.rcn i).latched = true := by
  simp only [latchesFit, List.all_eq_true, Fin.forall_iff_succ]
  simp
  grind

/-- A level code never latches, an edge code may. -/
theorem latchAfter_latched {m : Sensitivity} {ip old new : Bool} (h : latchAfter m ip old new = true) :
    m.latched = true := by
  cases m <;> simp_all [latchAfter, Sensitivity.latched]

@[simp] theorem samplePins_ip_get (s : State) (l : Lines) (i : Fin 4) :
    (s.samplePins l).ip.get i =
      (!s.restart.get i && latchAfter (sensitivity s.rcn i) (s.ip.get i) (s.intPins.get i) (l.get i)) := by
  simp [State.samplePins]

@[simp] theorem samplePins_restart (s : State) (l : Lines) : (s.samplePins l).restart = Lines.all false := rfl

@[simp] theorem writeRcn_ip_get (s : State) (v : Word) (i : Fin 4) :
    (s.writeRcn v).ip.get i = (decide (nsi v i = nsi s.rcn i) && s.ip.get i) := by
  simp [State.writeRcn]

@[simp] theorem writeRcn_restart_get (s : State) (v : Word) (i : Fin 4) :
    (s.writeRcn v).restart.get i = (decide (nsi v i ≠ nsi s.rcn i) || s.restart.get i) := by
  simp [State.writeRcn]

@[simp] theorem clearLatch_ip_get (s : State) (i j : Fin 4) :
    (s.clearLatch i).ip.get j = if j = i && (sensitivity s.rcn i).latched then false else s.ip.get j := by
  simp [State.clearLatch]

/-- The sensitivity of a pin depends on its NSI field alone (R43). -/
theorem sensitivity_congr {v w : Word} {i : Fin 4} (h : nsi v i = nsi w i) : sensitivity v i = sensitivity w i := by
  unfold sensitivity; rw [h]

/-- The two bits of an NSI field (R43): bit 2i+1 of RCN is the more significant. -/
theorem nsi_bits (w : Word) (i : Fin 4) :
    (nsi w i).getLsbD 1 = w.getLsbD (2 * i.val + 1) ∧ (nsi w i).getLsbD 0 = w.getLsbD (2 * i.val) := by
  simp [nsi]

/-- Two NSI fields are equal when both bits are. -/
theorem nsi_eq_iff (v w : Word) (i : Fin 4) :
    nsi v i = nsi w i ↔
      v.getLsbD (2 * i.val + 1) = w.getLsbD (2 * i.val + 1) ∧ v.getLsbD (2 * i.val) = w.getLsbD (2 * i.val) := by
  rw [← (nsi_bits v i).1, ← (nsi_bits v i).2, ← (nsi_bits w i).1, ← (nsi_bits w i).2]
  generalize nsi v i = x
  generalize nsi w i = y
  revert x y
  decide

/-- The sensitivity in terms of the two bits (R43). -/
theorem sensitivity_eq (w : Word) (i : Fin 4) :
    sensitivity w i =
      match w.getLsbD (2 * i.val + 1), w.getLsbD (2 * i.val) with
      | false, false => .rising
      | false, true => .falling
      | true, false => .high
      | true, true => .low := by
  rw [← (nsi_bits w i).1, ← (nsi_bits w i).2]
  unfold sensitivity
  generalize nsi w i = x
  revert x
  decide

/-- In the default order of `EXC_PRIORITY` the accepted interrupt is the first acceptable one by number (R317). -/
theorem accepted_eq (s : State) : s.accepted = [0, 1, 2, 3].find? s.acceptable := by
  simp only [State.accepted, Param.excPriority, State.waiting, List.findSome?, List.find?]
  cases s.acceptable 0 <;> cases s.acceptable 1 <;> cases s.acceptable 2 <;> cases s.acceptable 3 <;> rfl

/-- A sample leaves latches only on edge sensitive pins. -/
theorem samplePins_latchesFit (s : State) (l : Lines) : latchesFit (s.samplePins l) = true := by
  rw [latchesFit_iff]
  intro i h
  rw [samplePins_ip_get, Bool.and_eq_true] at h
  exact latchAfter_latched h.2

/-- An RCN write keeps that latches are only on edge sensitive pins. -/
theorem writeRcn_latchesFit {s : State} (v : Word) (h : latchesFit s = true) : latchesFit (s.writeRcn v) = true := by
  rw [latchesFit_iff] at h ⊢
  intro i hi
  rw [writeRcn_ip_get, Bool.and_eq_true, decide_eq_true_eq] at hi
  rw [writeRcn_rcn, sensitivity_congr hi.1]
  exact h i hi.2

/-- The fitting of latches depends on RCN and the latches alone. -/
theorem latchesFit_congr {s t : State} (h1 : t.rcn = s.rcn) (h2 : t.ip = s.ip) : latchesFit t = latchesFit s := by
  unfold latchesFit; rw [h1, h2]

theorem clearLatch_latchesFit {s : State} (i : Fin 4) (h : latchesFit s = true) : latchesFit (s.clearLatch i) = true := by
  rw [latchesFit_iff] at h ⊢
  intro j hj
  rw [clearLatch_ip_get] at hj
  split at hj
  · cases hj
  · exact h j hj

/-- What the boundary's input makes of memory, latches and registers. -/
theorem atBoundary_latchesFit (s : State) : latchesFit s.atBoundary = true := samplePins_latchesFit _ _

theorem atBoundary_wf {s : State} (h : s.mem.wf = true) : s.atBoundary.mem.wf = true :=
  dmaBoundary_wf _ _ _ h

/-- No register changes at a boundary. -/
@[simp] theorem atBoundary_get (s : State) (p : Phys) : s.atBoundary.get p = s.get p := by
  simp [State.atBoundary]

/-- What a boundary leaves of what is no register (R84, R316). -/
theorem atBoundary_fields (s : State) :
    s.atBoundary.pc = s.pc ∧ s.atBoundary.run = s.run ∧ s.atBoundary.map = s.map ∧ s.atBoundary.inta = true ∧
      s.atBoundary.inputs = s.inputs.tail ∧ s.atBoundary.intPins = s.hostInput.pins ∧
      s.atBoundary.restart = Lines.all false ∧ s.atBoundary.dev = { s.dev with accesses := [] } ∧
      s.atBoundary.rcn = s.rcn ∧ s.atBoundary.re = s.re := by
  simp [State.atBoundary, State.samplePins]

/-- The bus is granted while BRQ is asserted and RE.DE = 1 (R84). -/
theorem dmaBoundary_bgt (s : State) (q : Bool) (l : List DmaAccess) : (s.dmaBoundary q l).bgt = (q && s.de) := by
  unfold State.dmaBoundary
  split <;> simp_all

/-- Everything a boundary can lead to. -/
theorem boundary_cases (s : State) :
    (s.hostInput.reset = true ∧
        boundary s = .reset (s.openBoundary.resetOperation s.hostInput.pins)) ∨
      (s.hostInput.reset = false ∧ s.run = .doubleFault ∧ boundary s = .stuck) ∨
      (s.hostInput.reset = false ∧ s.run = .running ∧ ∃ i, s.atBoundary.accepted = some i ∧
        boundary s = .interrupt i s.atBoundary) ∨
      (s.hostInput.reset = false ∧ s.run = .running ∧ s.atBoundary.accepted = none ∧
        boundary s = .proceed s.atBoundary) := by
  unfold boundary
  cases hr : s.hostInput.reset
  · cases hrun : s.run
    · cases ha : s.atBoundary.accepted
      · exact .inr (.inr (.inr ⟨rfl, rfl, rfl, by simp⟩))
      · next i => exact .inr (.inr (.inl ⟨rfl, rfl, i, rfl, by simp⟩))
    · exact .inr (.inl ⟨rfl, rfl, by simp⟩)
  · exact .inl ⟨rfl, by simp⟩

/-- A boundary that lets the fetch proceed: the state is the one the boundary's input makes. -/
theorem boundary_proceed {s t : State} (h : boundary s = .proceed t) :
    s.hostInput.reset = false ∧ s.run = .running ∧ s.atBoundary.accepted = none ∧ t = s.atBoundary := by
  rcases boundary_cases s with ⟨_, h'⟩ | ⟨_, _, h'⟩ | ⟨_, _, i, _, h'⟩ | ⟨h1, h2, h3, h'⟩ <;> rw [h'] at h <;> cases h
  exact ⟨h1, h2, h3, rfl⟩

/-- What a fetch gives (R78, R79, R117); no instruction is refused at user level (R322). -/
theorem fetch_instr {s : State} {w : Word} {d : Device} {i : Instr} (h : s.readWord s.pc = .value w d)
    (hd : decode w = .ok i) : fetch s = .instr i (s.withDev d) := by
  have hp : privilegeViolation s i = none := by unfold privilegeViolation Param.privCheck; split <;> rfl
  simp [fetch, h, hd, hp]

theorem fetch_odd {s : State} (h : isOdd s.pc = true) : fetch s = .raised .iDesalinhado s := by
  simp [fetch, readWord_misaligned h]

theorem fetch_invalid {s : State} {w : Word} {d : Device} {e : DecodeError} (h : s.readWord s.pc = .value w d)
    (hd : decode w = .error e) : fetch s = .raised .codInv (s.withDev d) := by simp [fetch, h, hd]

/-- A fetch changes nothing but the peripherals. -/
theorem fetch_state {s u : State} {i : Instr} (h : fetch s = .instr i u) : ∃ d, u = s.withDev d := by
  unfold fetch at h
  split at h <;> try cases h
  next w d _ =>
  split at h
  · cases h
  · split at h
    · cases h
    · cases h; exact ⟨d, rfl⟩

theorem fetch_raised_state {s u : State} {e : Exc} (h : fetch s = .raised e u) : ∃ d, u = s.withDev d := by
  unfold fetch at h
  split at h <;> try cases h
  · exact ⟨s.dev, rfl⟩
  · next w d _ =>
    split at h
    · cases h; exact ⟨d, rfl⟩
    · split at h
      · cases h; exact ⟨d, rfl⟩
      · cases h

/-- Everything a step that answers a state has done. -/
theorem step_next {s t : State} (h : step s = .next t) :
    (s.hostInput.reset = true ∧ t = s.openBoundary.resetOperation s.hostInput.pins) ∨
      (∃ i, s.atBoundary.accepted = some i ∧ acceptInterrupt i s.atBoundary = .next t) ∨
      (∃ i d, fetch s.atBoundary = .instr i (s.atBoundary.withDev d) ∧ exec i (s.atBoundary.withDev d) = .next t) ∨
      (∃ e d, fetch s.atBoundary = .raised e (s.atBoundary.withDev d) ∧
        takeException e (s.atBoundary.withDev d) = .next t) := by
  unfold step at h
  rcases boundary_cases s with ⟨h1, h'⟩ | ⟨_, _, h'⟩ | ⟨_, _, i, hi, h'⟩ | ⟨_, _, _, h'⟩ <;> rw [h'] at h
  · cases h; exact .inl ⟨h1, rfl⟩
  · cases h
  · exact .inr (.inl ⟨i, hi, h⟩)
  · refine .inr (.inr ?_)
    simp only at h
    split at h
    · next i u hf =>
      obtain ⟨d, rfl⟩ := fetch_state hf
      exact .inl ⟨i, d, hf, h⟩
    · next e u hf =>
      obtain ⟨d, rfl⟩ := fetch_raised_state hf
      exact .inr ⟨e, d, hf, h⟩
    · cases h
    · cases h

end Sys2Proof.Machine
end

