-- ==== Sys2Proof/Laws/PerInstr.lean ====
section
/-! SUPPORT. The family TableRow: an instruction's encoding, under the mask of its row of spec/opcode_table.json, is the
row's match value (spec/30_encoding.md R120). -/

namespace Sys2Proof.Laws

/-! ## The fixed bits of a packed word -/

theorem packF_and_ff00 (x y a b : Nibble) : packF x y a b &&& 0xFF00#16 = packF x y 0#4 0#4 := by
  ext i hi
  rw [BitVec.getElem_and]
  have : (0xFF00#16)[i] = decide (8 ≤ i) := by revert i; decide
  rw [this]
  simp [packF]
  grind

theorem packF_and_f000 (x y a b : Nibble) : packF x y a b &&& 0xF000#16 = packF x 0#4 0#4 0#4 := by
  ext i hi
  rw [BitVec.getElem_and]
  have : (0xF000#16)[i] = decide (12 ≤ i) := by revert i; decide
  rw [this]
  simp [packF]
  grind

theorem packC8_and_ff00 (x y : Nibble) (c : Byte) : packC8 x y c &&& 0xFF00#16 = packC8 x y 0#8 := by
  ext i hi
  rw [BitVec.getElem_and]
  have : (0xFF00#16)[i] = decide (8 ≤ i) := by revert i; decide
  rw [this]
  simp [packC8]
  grind

theorem packC8_and_f000 (x y : Nibble) (c : Byte) : packC8 x y c &&& 0xF000#16 = packC8 x 0#4 0#8 := by
  ext i hi
  rw [BitVec.getElem_and]
  have : (0xF000#16)[i] = decide (12 ≤ i) := by revert i; decide
  rw [this]
  simp [packC8]
  grind

theorem packC12_and_f000 (x : Nibble) (c : BitVec 12) : packC12 x c &&& 0xF000#16 = packC12 x 0#12 := by
  ext i hi
  rw [BitVec.getElem_and]
  have : (0xF000#16)[i] = decide (12 ≤ i) := by revert i; decide
  rw [this]
  simp [packC12]
  grind

namespace TableRow

/-- The mask of an instruction's row of spec/opcode_table.json. -/
def mask : Instr → Word
  | .add _ _ => 0xFF00#16
  | .addi _ _ => 0xFF00#16
  | .addc _ _ => 0xFF00#16
  | .sub _ _ => 0xFF00#16
  | .subi _ _ => 0xFF00#16
  | .subb _ _ => 0xFF00#16
  | .cmp _ _ => 0xFF00#16
  | .cmpi _ _ => 0xFF00#16
  | .mul _ _ => 0xFF00#16
  | .div _ _ => 0xFF00#16
  | .mod _ _ => 0xFF00#16
  | .neg _ => 0xFF00#16
  | .shra _ _ => 0xFF00#16
  | .shla _ _ => 0xFF00#16
  | .and _ _ => 0xFF00#16
  | .or _ _ => 0xFF00#16
  | .not _ => 0xFF00#16
  | .xor _ _ => 0xFF00#16
  | .test _ _ => 0xFF00#16
  | .bit _ _ => 0xFF00#16
  | .setbit _ _ => 0xFF00#16
  | .clrbit _ _ => 0xFF00#16
  | .cplbit _ _ => 0xFF00#16
  | .shr _ _ => 0xFF00#16
  | .shl _ _ => 0xFF00#16
  | .ror _ _ => 0xFF00#16
  | .rol _ _ => 0xFF00#16
  | .rorc _ _ => 0xFF00#16
  | .rolc _ _ => 0xFF00#16
  | .ldo _ _ _ => 0xF000#16
  | .ldr _ _ _ => 0xF000#16
  | .sto _ _ _ => 0xF000#16
  | .str _ _ _ => 0xF000#16
  | .ldb _ _ => 0xFF00#16
  | .stb _ _ => 0xFF00#16
  | .ldbs _ _ => 0xFF00#16
  | .ldp _ _ => 0xFF00#16
  | .stp _ _ => 0xFF00#16
  | .movl _ _ => 0xF000#16
  | .movh _ _ => 0xF000#16
  | .movrr _ _ => 0xFF00#16
  | .movar _ _ => 0xFF00#16
  | .movra _ _ => 0xFF00#16
  | .movru _ => 0xFF00#16
  | .movur _ => 0xFF00#16
  | .swapr _ _ => 0xFF00#16
  | .swapm _ _ => 0xFF00#16
  | .push _ => 0xFF00#16
  | .pop _ => 0xFF00#16
  | .jz _ => 0xFF00#16
  | .jnz _ => 0xFF00#16
  | .jn _ => 0xFF00#16
  | .jnn _ => 0xFF00#16
  | .jp _ => 0xFF00#16
  | .jnp _ => 0xFF00#16
  | .jc _ => 0xFF00#16
  | .jnc _ => 0xFF00#16
  | .jv _ => 0xFF00#16
  | .jnv _ => 0xFF00#16
  | .jlt _ => 0xFF00#16
  | .jle _ => 0xFF00#16
  | .jgt _ => 0xFF00#16
  | .jge _ => 0xFF00#16
  | .ja _ => 0xFF00#16
  | .jbe _ => 0xFF00#16
  | .jmp _ => 0xF000#16
  | .jmpr _ => 0xFF00#16
  | .call _ => 0xF000#16
  | .cr _ => 0xFF00#16
  | .callf _ => 0xF000#16
  | .crf _ => 0xFF00#16
  | .ret => 0xFF00#16
  | .retf => 0xFF00#16
  | .swe _ => 0xFF00#16
  | .rfe => 0xFF00#16
  | .nop => 0xFF00#16

/-- The match value of an instruction's row of spec/opcode_table.json. -/
def pattern : Instr → Word
  | .add _ _ => 0x0000#16
  | .addi _ _ => 0x0100#16
  | .addc _ _ => 0x0200#16
  | .sub _ _ => 0x0300#16
  | .subi _ _ => 0x0400#16
  | .subb _ _ => 0x0500#16
  | .cmp _ _ => 0x0600#16
  | .cmpi _ _ => 0x0700#16
  | .mul _ _ => 0x0800#16
  | .div _ _ => 0x0900#16
  | .mod _ _ => 0x0A00#16
  | .neg _ => 0x0B00#16
  | .shra _ _ => 0x0E00#16
  | .shla _ _ => 0x0F00#16
  | .and _ _ => 0x1000#16
  | .or _ _ => 0x1100#16
  | .not _ => 0x1200#16
  | .xor _ _ => 0x1300#16
  | .test _ _ => 0x1400#16
  | .bit _ _ => 0x1500#16
  | .setbit _ _ => 0x1600#16
  | .clrbit _ _ => 0x1700#16
  | .cplbit _ _ => 0x1800#16
  | .shr _ _ => 0x1900#16
  | .shl _ _ => 0x1A00#16
  | .ror _ _ => 0x1B00#16
  | .rol _ _ => 0x1C00#16
  | .rorc _ _ => 0x1D00#16
  | .rolc _ _ => 0x1E00#16
  | .ldo _ _ _ => 0x2000#16
  | .ldr _ _ _ => 0x3000#16
  | .sto _ _ _ => 0x4000#16
  | .str _ _ _ => 0x5000#16
  | .ldb _ _ => 0x6000#16
  | .stb _ _ => 0x6100#16
  | .ldbs _ _ => 0x6200#16
  | .ldp _ _ => 0x6300#16
  | .stp _ _ => 0x6400#16
  | .movl _ _ => 0x7000#16
  | .movh _ _ => 0x8000#16
  | .movrr _ _ => 0x6500#16
  | .movar _ _ => 0x6600#16
  | .movra _ _ => 0x6700#16
  | .movru _ => 0x6800#16
  | .movur _ => 0x6900#16
  | .swapr _ _ => 0x6A00#16
  | .swapm _ _ => 0x6B00#16
  | .push _ => 0x6C00#16
  | .pop _ => 0x6D00#16
  | .jz _ => 0x9000#16
  | .jnz _ => 0x9100#16
  | .jn _ => 0x9200#16
  | .jnn _ => 0x9300#16
  | .jp _ => 0x9400#16
  | .jnp _ => 0x9500#16
  | .jc _ => 0x9600#16
  | .jnc _ => 0x9700#16
  | .jv _ => 0x9800#16
  | .jnv _ => 0x9900#16
  | .jlt _ => 0x9A00#16
  | .jle _ => 0x9B00#16
  | .jgt _ => 0x9C00#16
  | .jge _ => 0x9D00#16
  | .ja _ => 0x9E00#16
  | .jbe _ => 0x9F00#16
  | .jmp _ => 0xA000#16
  | .jmpr _ => 0xD000#16
  | .call _ => 0xB000#16
  | .cr _ => 0xD100#16
  | .callf _ => 0xC000#16
  | .crf _ => 0xD200#16
  | .ret => 0xD300#16
  | .retf => 0xD400#16
  | .swe _ => 0xD500#16
  | .rfe => 0xD600#16
  | .nop => 0xD700#16

/-- The encoding has the fixed bits of the instruction's row. -/
def Statement (i : Instr) : Prop := encode i &&& mask i = pattern i

theorem add (d s : Reg) : Statement (.add d s) := (packF_and_ff00 _ _ _ _).trans rfl
theorem addi (d : Reg) (k : Int) : Statement (.addi d k) := (packF_and_ff00 _ _ _ _).trans rfl
theorem addc (d s : Reg) : Statement (.addc d s) := (packF_and_ff00 _ _ _ _).trans rfl
theorem sub (d s : Reg) : Statement (.sub d s) := (packF_and_ff00 _ _ _ _).trans rfl
theorem subi (d : Reg) (k : Int) : Statement (.subi d k) := (packF_and_ff00 _ _ _ _).trans rfl
theorem subb (d s : Reg) : Statement (.subb d s) := (packF_and_ff00 _ _ _ _).trans rfl
theorem cmp (d s : Reg) : Statement (.cmp d s) := (packF_and_ff00 _ _ _ _).trans rfl
theorem cmpi (d : Reg) (k : Int) : Statement (.cmpi d k) := (packF_and_ff00 _ _ _ _).trans rfl
theorem mul (d s : Reg) : Statement (.mul d s) := (packF_and_ff00 _ _ _ _).trans rfl
theorem div (d s : Reg) : Statement (.div d s) := (packF_and_ff00 _ _ _ _).trans rfl
theorem mod (d s : Reg) : Statement (.mod d s) := (packF_and_ff00 _ _ _ _).trans rfl
theorem neg (d : Reg) : Statement (.neg d) := (packF_and_ff00 _ _ _ _).trans rfl
theorem shra (d : Reg) (n : Fin 16) : Statement (.shra d n) := (packF_and_ff00 _ _ _ _).trans rfl
theorem shla (d : Reg) (n : Fin 16) : Statement (.shla d n) := (packF_and_ff00 _ _ _ _).trans rfl
theorem and (d s : Reg) : Statement (.and d s) := (packF_and_ff00 _ _ _ _).trans rfl
theorem or (d s : Reg) : Statement (.or d s) := (packF_and_ff00 _ _ _ _).trans rfl
theorem not (d : Reg) : Statement (.not d) := (packF_and_ff00 _ _ _ _).trans rfl
theorem xor (d s : Reg) : Statement (.xor d s) := (packF_and_ff00 _ _ _ _).trans rfl
theorem test (d s : Reg) : Statement (.test d s) := (packF_and_ff00 _ _ _ _).trans rfl
theorem bit (d : Reg) (n : Fin 16) : Statement (.bit d n) := (packF_and_ff00 _ _ _ _).trans rfl
theorem setbit (d : Reg) (n : Fin 16) : Statement (.setbit d n) := (packF_and_ff00 _ _ _ _).trans rfl
theorem clrbit (d : Reg) (n : Fin 16) : Statement (.clrbit d n) := (packF_and_ff00 _ _ _ _).trans rfl
theorem cplbit (d : Reg) (n : Fin 16) : Statement (.cplbit d n) := (packF_and_ff00 _ _ _ _).trans rfl
theorem shr (d : Reg) (n : Fin 16) : Statement (.shr d n) := (packF_and_ff00 _ _ _ _).trans rfl
theorem shl (d : Reg) (n : Fin 16) : Statement (.shl d n) := (packF_and_ff00 _ _ _ _).trans rfl
theorem ror (d : Reg) (n : Fin 16) : Statement (.ror d n) := (packF_and_ff00 _ _ _ _).trans rfl
theorem rol (d : Reg) (n : Fin 16) : Statement (.rol d n) := (packF_and_ff00 _ _ _ _).trans rfl
theorem rorc (d : Reg) (n : Fin 16) : Statement (.rorc d n) := (packF_and_ff00 _ _ _ _).trans rfl
theorem rolc (d : Reg) (n : Fin 16) : Statement (.rolc d n) := (packF_and_ff00 _ _ _ _).trans rfl
theorem ldo (d s : Reg) (off : Int) : Statement (.ldo d s off) := (packF_and_f000 _ _ _ _).trans rfl
theorem ldr (d s i : Reg) : Statement (.ldr d s i) := (packF_and_f000 _ _ _ _).trans rfl
theorem sto (s d : Reg) (off : Int) : Statement (.sto s d off) := (packF_and_f000 _ _ _ _).trans rfl
theorem str (s d i : Reg) : Statement (.str s d i) := (packF_and_f000 _ _ _ _).trans rfl
theorem ldb (d s : Reg) : Statement (.ldb d s) := (packF_and_ff00 _ _ _ _).trans rfl
theorem stb (d s : Reg) : Statement (.stb d s) := (packF_and_ff00 _ _ _ _).trans rfl
theorem ldbs (d s : Reg) : Statement (.ldbs d s) := (packF_and_ff00 _ _ _ _).trans rfl
theorem ldp (d s : Reg) : Statement (.ldp d s) := (packF_and_ff00 _ _ _ _).trans rfl
theorem stp (d s : Reg) : Statement (.stp d s) := (packF_and_ff00 _ _ _ _).trans rfl
theorem movl (d : Reg) (k : Int) : Statement (.movl d k) := (packC8_and_f000 _ _ _).trans rfl
theorem movh (d : Reg) (k : Byte) : Statement (.movh d k) := (packC8_and_f000 _ _ _).trans rfl
theorem movrr (d s : Reg) : Statement (.movrr d s) := (packF_and_ff00 _ _ _ _).trans rfl
theorem movar (a : Fin 16) (s : Reg) : Statement (.movar a s) := (packF_and_ff00 _ _ _ _).trans rfl
theorem movra (d : Reg) (a : Fin 16) : Statement (.movra d a) := (packF_and_ff00 _ _ _ _).trans rfl
theorem movru (d : Reg) : Statement (.movru d) := (packF_and_ff00 _ _ _ _).trans rfl
theorem movur (s : Reg) : Statement (.movur s) := (packF_and_ff00 _ _ _ _).trans rfl
theorem swapr (d s : Reg) : Statement (.swapr d s) := (packF_and_ff00 _ _ _ _).trans rfl
theorem swapm (d s : Reg) : Statement (.swapm d s) := (packF_and_ff00 _ _ _ _).trans rfl
theorem push (s : Reg) : Statement (.push s) := (packF_and_ff00 _ _ _ _).trans rfl
theorem pop (d : Reg) : Statement (.pop d) := (packF_and_ff00 _ _ _ _).trans rfl
theorem jz (dif : Int) : Statement (.jz dif) := (packC8_and_ff00 _ _ _).trans rfl
theorem jnz (dif : Int) : Statement (.jnz dif) := (packC8_and_ff00 _ _ _).trans rfl
theorem jn (dif : Int) : Statement (.jn dif) := (packC8_and_ff00 _ _ _).trans rfl
theorem jnn (dif : Int) : Statement (.jnn dif) := (packC8_and_ff00 _ _ _).trans rfl
theorem jp (dif : Int) : Statement (.jp dif) := (packC8_and_ff00 _ _ _).trans rfl
theorem jnp (dif : Int) : Statement (.jnp dif) := (packC8_and_ff00 _ _ _).trans rfl
theorem jc (dif : Int) : Statement (.jc dif) := (packC8_and_ff00 _ _ _).trans rfl
theorem jnc (dif : Int) : Statement (.jnc dif) := (packC8_and_ff00 _ _ _).trans rfl
theorem jv (dif : Int) : Statement (.jv dif) := (packC8_and_ff00 _ _ _).trans rfl
theorem jnv (dif : Int) : Statement (.jnv dif) := (packC8_and_ff00 _ _ _).trans rfl
theorem jlt (dif : Int) : Statement (.jlt dif) := (packC8_and_ff00 _ _ _).trans rfl
theorem jle (dif : Int) : Statement (.jle dif) := (packC8_and_ff00 _ _ _).trans rfl
theorem jgt (dif : Int) : Statement (.jgt dif) := (packC8_and_ff00 _ _ _).trans rfl
theorem jge (dif : Int) : Statement (.jge dif) := (packC8_and_ff00 _ _ _).trans rfl
theorem ja (dif : Int) : Statement (.ja dif) := (packC8_and_ff00 _ _ _).trans rfl
theorem jbe (dif : Int) : Statement (.jbe dif) := (packC8_and_ff00 _ _ _).trans rfl
theorem jmp (dif : Int) : Statement (.jmp dif) := (packC12_and_f000 _ _).trans rfl
theorem jmpr (s : Reg) : Statement (.jmpr s) := (packF_and_ff00 _ _ _ _).trans rfl
theorem call (dif : Int) : Statement (.call dif) := (packC12_and_f000 _ _).trans rfl
theorem cr (s : Reg) : Statement (.cr s) := (packF_and_ff00 _ _ _ _).trans rfl
theorem callf (dif : Int) : Statement (.callf dif) := (packC12_and_f000 _ _).trans rfl
theorem crf (s : Reg) : Statement (.crf s) := (packF_and_ff00 _ _ _ _).trans rfl
theorem ret : Statement (.ret) := (packF_and_ff00 _ _ _ _).trans rfl
theorem retf : Statement (.retf) := (packF_and_ff00 _ _ _ _).trans rfl
theorem swe (k : Byte) : Statement (.swe k) := (packC8_and_ff00 _ _ _).trans rfl
theorem rfe : Statement (.rfe) := (packF_and_ff00 _ _ _ _).trans rfl
theorem nop : Statement (.nop) := (packF_and_ff00 _ _ _ _).trans rfl

end TableRow

end Sys2Proof.Laws
end

