-- ==== Sys2Proof/Tests/Slice0.lean ====
section
/-! SUPPORT. The model's own tests: ill-formed terms refused, one word of every instruction decoded, one small step of
every instruction, and for each statement with hypotheses a concrete state and operands that meet them. Words and
expected values are those of spec/95_test_vectors.md (S<n>, P<n> and the sections named in the comments) or worked by
hand from the rule named. -/

namespace Sys2Proof.Tests

open Sys2Proof.Machine

/-! ## Well-formedness: one ill-formed term for each check (R111, R113, R114, R115) -/

theorem test_wf_const4 : (Instr.addi (.r 1) 8).wellFormed = false ∧ (Instr.subi (.r 1) (-9)).wellFormed = false ∧
    (Instr.cmpi (.r 1) 8).wellFormed = false := by decide
theorem test_wf_offset_range : (Instr.ldo (.r 1) (.r 2) 16).wellFormed = false ∧
    (Instr.sto (.r 1) (.r 2) (-18)).wellFormed = false := by decide
theorem test_wf_offset_odd : (Instr.ldo (.r 1) (.r 2) 3).wellFormed = false ∧
    (Instr.sto (.r 1) (.r 2) (-1)).wellFormed = false := by decide
theorem test_wf_const8 : (Instr.movl (.r 1) 128).wellFormed = false ∧ (Instr.jz (-129)).wellFormed = false ∧
    (Instr.jbe 128).wellFormed = false := by decide
theorem test_wf_const12 : (Instr.jmp 2048).wellFormed = false ∧ (Instr.call (-2049)).wellFormed = false ∧
    (Instr.callf 2048).wellFormed = false := by decide
theorem test_wf_bounds :
    (Instr.addi (.r 1) (-8)).wellFormed = true ∧ (Instr.ldo (.r 1) (.r 2) 14).wellFormed = true ∧
    (Instr.movl (.r 1) 127).wellFormed = true ∧ (Instr.callf (-2048)).wellFormed = true := by decide

/-! ## Decoding: a word for every constructor, written from R101 to R109 -/

theorem test_decode_aritop :
    decode 0x0012#16 = .ok (.add (.r 1) (.r 2)) ∧ decode 0x011D#16 = .ok (.addi (.r 1) (-3)) ∧
    decode 0x02AB#16 = .ok (.addc (.r 10) .rl) ∧ decode 0x03CD#16 = .ok (.sub .sp .re) ∧
    decode 0x041F#16 = .ok (.subi (.r 1) (-1)) ∧ decode 0x05EF#16 = .ok (.subb .bte .temp) ∧
    decode 0x0612#16 = .ok (.cmp (.r 1) (.r 2)) ∧ decode 0x0718#16 = .ok (.cmpi (.r 1) (-8)) ∧
    decode 0x0812#16 = .ok (.mul (.r 1) (.r 2)) ∧ decode 0x0912#16 = .ok (.div (.r 1) (.r 2)) ∧
    decode 0x0A12#16 = .ok (.mod (.r 1) (.r 2)) ∧ decode 0x0B1F#16 = .ok (.neg (.r 1)) ∧
    decode 0x0E1F#16 = .ok (.shra (.r 1) 15) ∧ decode 0x0F14#16 = .ok (.shla (.r 1) 4) := by decide
theorem test_decode_bitop :
    decode 0x10D1#16 = .ok (.and .re (.r 1)) ∧ decode 0x1112#16 = .ok (.or (.r 1) (.r 2)) ∧
    decode 0x1210#16 = .ok (.not (.r 1)) ∧ decode 0x1311#16 = .ok (.xor (.r 1) (.r 1)) ∧
    decode 0x1412#16 = .ok (.test (.r 1) (.r 2)) ∧ decode 0x151F#16 = .ok (.bit (.r 1) 15) ∧
    decode 0x16D8#16 = .ok (.setbit .re 8) ∧ decode 0x17DD#16 = .ok (.clrbit .re 13) ∧
    decode 0x1814#16 = .ok (.cplbit (.r 1) 4) ∧ decode 0x1911#16 = .ok (.shr (.r 1) 1) ∧
    decode 0x1A18#16 = .ok (.shl (.r 1) 8) ∧ decode 0x1B1F#16 = .ok (.ror (.r 1) 15) ∧
    decode 0x1C1C#16 = .ok (.rol (.r 1) 12) ∧ decode 0x1D11#16 = .ok (.rorc (.r 1) 1) ∧
    decode 0x1E14#16 = .ok (.rolc (.r 1) 4) := by decide
theorem test_decode_memory :
    decode 0x2128#16 = .ok (.ldo (.r 1) (.r 2) (-16)) ∧ decode 0x3123#16 = .ok (.ldr (.r 1) (.r 2) (.r 3)) ∧
    decode 0x4211#16 = .ok (.sto (.r 2) (.r 1) 2) ∧ decode 0x5213#16 = .ok (.str (.r 2) (.r 1) (.r 3)) ∧
    decode 0x6012#16 = .ok (.ldb (.r 1) (.r 2)) ∧ decode 0x6112#16 = .ok (.stb (.r 1) (.r 2)) ∧
    decode 0x6212#16 = .ok (.ldbs (.r 1) (.r 2)) ∧ decode 0x6312#16 = .ok (.ldp (.r 1) (.r 2)) ∧
    decode 0x6412#16 = .ok (.stp (.r 1) (.r 2)) := by decide
theorem test_decode_move :
    decode 0x7180#16 = .ok (.movl (.r 1) (-128)) ∧ decode 0x82F3#16 = .ok (.movh (.r 2) 0xF3#8) ∧
    decode 0x6512#16 = .ok (.movrr (.r 1) (.r 2)) ∧ decode 0x6652#16 = .ok (.movar 5 (.r 2)) ∧
    decode 0x6715#16 = .ok (.movra (.r 1) 5) ∧ decode 0x6810#16 = .ok (.movru (.r 1)) ∧
    decode 0x6902#16 = .ok (.movur (.r 2)) ∧ decode 0x6A12#16 = .ok (.swapr (.r 1) (.r 2)) ∧
    decode 0x6B12#16 = .ok (.swapm (.r 1) (.r 2)) ∧ decode 0x6C1F#16 = .ok (.push (.r 1)) ∧
    decode 0x6D10#16 = .ok (.pop (.r 1)) := by decide
theorem test_decode_cond :
    decode 0x9007#16 = .ok (.jz 7) ∧ decode 0x91FB#16 = .ok (.jnz (-5)) ∧ decode 0x9202#16 = .ok (.jn 2) ∧
    decode 0x9302#16 = .ok (.jnn 2) ∧ decode 0x9402#16 = .ok (.jp 2) ∧ decode 0x9502#16 = .ok (.jnp 2) ∧
    decode 0x9602#16 = .ok (.jc 2) ∧ decode 0x9702#16 = .ok (.jnc 2) ∧ decode 0x9802#16 = .ok (.jv 2) ∧
    decode 0x9902#16 = .ok (.jnv 2) ∧ decode 0x9A02#16 = .ok (.jlt 2) ∧ decode 0x9B02#16 = .ok (.jle 2) ∧
    decode 0x9C02#16 = .ok (.jgt 2) ∧ decode 0x9D02#16 = .ok (.jge 2) ∧ decode 0x9E80#16 = .ok (.ja (-128)) ∧
    decode 0x9F7F#16 = .ok (.jbe 127) := by decide
theorem test_decode_code :
    decode 0xA800#16 = .ok (.jmp (-2048)) ∧ decode 0xB07F#16 = .ok (.call 127) ∧
    decode 0xC00F#16 = .ok (.callf 15) ∧ decode 0xD003#16 = .ok (.jmpr (.r 3)) ∧
    decode 0xD103#16 = .ok (.cr (.r 3)) ∧ decode 0xD203#16 = .ok (.crf (.r 3)) ∧ decode 0xD3A7#16 = .ok .ret ∧
    decode 0xD400#16 = .ok .retf ∧ decode 0xD5FF#16 = .ok (.swe 255#8) ∧ decode 0xD600#16 = .ok .rfe ∧
    decode 0xD700#16 = .ok .nop := by decide

/-- One word of each family bit by bit: first opcode, second opcode, first and second operand (R101, R102). -/
theorem test_decode_bits :
    decode (0b0000#4 ++ 0b0100#4 ++ 0b0001#4 ++ 0b1111#4) = .ok (.subi (.r 1) (-1)) ∧
    decode (0b0001#4 ++ 0b0110#4 ++ 0b1101#4 ++ 0b1000#4) = .ok (.setbit .re 8) ∧
    decode (0b0001#4 ++ 0b1101#4 ++ 0b1011#4 ++ 0b1001#4) = .ok (.rorc .rl 9) ∧
    decode (0b0100#4 ++ 0b0010#4 ++ 0b0001#4 ++ 0b1001#4) = .ok (.sto (.r 2) (.r 1) (-14)) ∧
    decode (0b0110#4 ++ 0b1010#4 ++ 0b1110#4 ++ 0b1111#4) = .ok (.swapr .bte .temp) ∧
    decode (0b1001#4 ++ 0b1100#4 ++ 0b1111#4 ++ 0b1110#4) = .ok (.jgt (-2)) ∧
    decode (0b1010#4 ++ 0b0111#4 ++ 0b1111#4 ++ 0b1111#4) = .ok (.jmp 2047) ∧
    decode (0b1101#4 ++ 0b0101#4 ++ 0b0000#4 ++ 0b0110#4) = .ok (.swe 6#8) := by decide

/-- The words of section 9 that are no instruction. -/
theorem test_decode_invalid :
    decode 0x0C00#16 = .error (.livre 0#4 0xC#4) ∧ decode 0x0DFF#16 = .error (.livre 0#4 0xD#4) ∧
    decode 0x1F00#16 = .error (.livre 1#4 0xF#4) ∧ decode 0x6E00#16 = .error (.livre 6#4 0xE#4) ∧
    decode 0x6F00#16 = .error (.livre 6#4 0xF#4) ∧ decode 0xD800#16 = .error (.livre 0xD#4 8#4) ∧
    decode 0xDFFF#16 = .error (.livre 0xD#4 0xF#4) ∧ decode 0xE000#16 = .error (.unassigned 0xE#4) ∧
    decode 0xFFFF#16 = .error (.unassigned 0xF#4) ∧ decodeBytes [0x00#8] = .error .truncated := by decide

/-- The encoder writes the words of the spec's examples; ignored fields are 0. -/
theorem test_encode :
    encode (.addi (.r 1) (-8)) = 0x0118#16 ∧ encode (.ldo (.r 1) (.r 2) (-16)) = 0x2128#16 ∧
    encode (.sto (.r 2) (.r 1) (-2)) = 0x421F#16 ∧ encode (.jnz (-5)) = 0x91FB#16 ∧ encode (.jmp (-1)) = 0xAFFF#16 ∧
    encode (.neg (.r 1)) = 0x0B10#16 ∧ encode (.movar 0 (.r 2)) = 0x6602#16 ∧ encode .ret = 0xD300#16 := by decide

/-- The table's numbering: bit 0 the least significant bit of the word. -/
theorem test_decodeTableWord : decodeTableWord 16 0x91FB = some (.jnz (-5)) ∧ decodeTableWord 16 0xF123 = none := by
  decide

/-! ## One step of each instruction -/

/-- Bytes written to memory. -/
def withBytes (s : State) (l : List (Word × Byte)) : State := l.foldl (fun t c => t.writeByte c.1 c.2) s

/-- The memory before each row of sections 5 and 7: three words from 1000H, the word at 0000H, and the Exception Table
at 0040H whose entries 3 to 9 hold 0300H. -/
def memory : List (Word × Byte) :=
  [(0x0000#16, 0xBE#8), (0x0001#16, 0xEF#8), (0x0046#16, 3#8), (0x0047#16, 0#8), (0x0048#16, 3#8), (0x0049#16, 0#8),
    (0x004A#16, 3#8), (0x004B#16, 0#8), (0x004C#16, 3#8), (0x004D#16, 0#8), (0x004E#16, 3#8), (0x004F#16, 0#8),
    (0x0050#16, 3#8), (0x0051#16, 0#8), (0x0052#16, 3#8), (0x0053#16, 0#8), (0x1000#16, 0xAA#8), (0x1001#16, 0xBB#8),
    (0x1002#16, 0x12#8), (0x1003#16, 0x34#8), (0x1004#16, 0x80#8), (0x1005#16, 0x81#8)]

/-- An instruction word at pc = 0100H with R1, R2, R3 and RE as given; SSP = 2000H, USP = 1800H, BTE = 0040H. -/
def prog (w r1 r2 r3 re : Word) : State :=
  withBytes (((({ State.reset with pc := 0x0100#16, re := re, ssp := 0x2000#16, usp := 0x1800#16, bte := 0x0040#16 }
    : State).set (.r 1) r1).set (.r 2) r2).set (.r 3) r3 |>.putWord 0x0100#16 w) memory

/-- What is looked at after one step that answers a next state. -/
def ran {α : Type} (s : State) (f : State → α) : Option α :=
  match step s with
  | .next t => some (f t)
  | _ => none

/-- The word at an even address, where one can be read. -/
def word (t : State) (a : Word) : Option Word :=
  match t.readWord a with
  | .value w _ => some w
  | _ => none

/-- R1 and RE. -/
def r1re (t : State) : Word × Word := (t.x (.r 1), t.re)
/-- R1 alone. -/
def r1 (t : State) : Word := t.x (.r 1)
/-- pc alone. -/
def pcOf (t : State) : Word := t.pc

-- sections 2, 3 and 4: R1 and RE after the word, with R1, R2, R3 and RE before it
theorem test_add_overflow : ran (prog 0x0012#16 0x7FFF#16 0x0001#16 0x0000#16 0x0000#16) r1re =
    some (0x8000#16, 0x000A#16) := by decide
theorem test_add_carry_and_overflow : ran (prog 0x0012#16 0x8000#16 0x8000#16 0x0000#16 0x0000#16) r1re =
    some (0x0000#16, 0x000D#16) := by decide
theorem test_addi : ran (prog 0x0118#16 0x0005#16 0x0000#16 0x0000#16 0x0000#16) r1re =
    some (0xFFFD#16, 0x0002#16) := by decide
theorem test_addc : ran (prog 0x0212#16 0x7FFF#16 0x0000#16 0x0000#16 0x0004#16) r1re =
    some (0x8000#16, 0x000A#16) := by decide
theorem test_sub_borrow : ran (prog 0x0312#16 0x0003#16 0x0005#16 0x0000#16 0x0000#16) r1re =
    some (0xFFFE#16, 0x0006#16) := by decide
theorem test_sub_overflow : ran (prog 0x0312#16 0x8000#16 0x0001#16 0x0000#16 0x0000#16) r1re =
    some (0x7FFF#16, 0x0008#16) := by decide
theorem test_subi : ran (prog 0x041F#16 0x7FFF#16 0x0000#16 0x0000#16 0x0000#16) r1re =
    some (0x8000#16, 0x000E#16) := by decide
theorem test_subb : ran (prog 0x0512#16 0x0000#16 0xFFFF#16 0x0000#16 0x0004#16) r1re =
    some (0x0000#16, 0x0005#16) := by decide
theorem test_cmp : ran (prog 0x0612#16 0x8000#16 0x7FFF#16 0x0000#16 0x0000#16) r1re =
    some (0x8000#16, 0x0008#16) := by decide
theorem test_cmpi : ran (prog 0x0718#16 0x0000#16 0x0000#16 0x0000#16 0x0000#16) r1re =
    some (0x0000#16, 0x0004#16) := by decide
theorem test_neg : ran (prog 0x0B10#16 0x8000#16 0x0000#16 0x0000#16 0x0000#16) r1re =
    some (0x8000#16, 0x000E#16) := by decide
theorem test_shra : ran (prog 0x0E12#16 0xFFF5#16 0x0000#16 0x0000#16 0x0008#16) r1re =
    some (0xFFFD#16, 0x000A#16) := by decide
theorem test_shla_overflow : ran (prog 0x0F14#16 0x0FFF#16 0x0000#16 0x0000#16 0x0000#16) r1re =
    some (0xFFF0#16, 0x000A#16) := by decide
theorem test_shla_fits : ran (prog 0x0F12#16 0xE000#16 0x0000#16 0x0000#16 0x0000#16) r1re =
    some (0x8000#16, 0x0006#16) := by decide
theorem test_and : ran (prog 0x1012#16 0x0F0F#16 0x00FF#16 0x0000#16 0x000C#16) r1re =
    some (0x000F#16, 0x000C#16) := by decide
theorem test_or : ran (prog 0x1112#16 0x8000#16 0x0001#16 0x0000#16 0x0000#16) r1re =
    some (0x8001#16, 0x0002#16) := by decide
theorem test_not : ran (prog 0x1210#16 0x55AA#16 0x0000#16 0x0000#16 0x000C#16) r1re =
    some (0xAA55#16, 0x000E#16) := by decide
theorem test_xor : ran (prog 0x1312#16 0x1234#16 0x1234#16 0x0000#16 0x000C#16) r1re =
    some (0x0000#16, 0x000D#16) := by decide
theorem test_test_flags : ran (prog 0x1412#16 0x00F0#16 0x0F00#16 0x0000#16 0x000E#16) r1re =
    some (0x00F0#16, 0x000D#16) := by decide
theorem test_bit : ran (prog 0x1513#16 0xFFF7#16 0x0000#16 0x0000#16 0x000E#16) r1re =
    some (0xFFF7#16, 0x000F#16) := by decide
theorem test_setbit : ran (prog 0x161F#16 0x0000#16 0x0000#16 0x0000#16 0x0001#16) r1re =
    some (0x8000#16, 0x0002#16) := by decide
theorem test_clrbit : ran (prog 0x171F#16 0xFFFF#16 0x0000#16 0x0000#16 0x0002#16) r1re =
    some (0x7FFF#16, 0x0000#16) := by decide
theorem test_cplbit : ran (prog 0x1814#16 0x0000#16 0x0000#16 0x0000#16 0x0001#16) r1re =
    some (0x0010#16, 0x0000#16) := by decide
theorem test_shr : ran (prog 0x1911#16 0x8001#16 0x0000#16 0x0000#16 0x0000#16) r1re =
    some (0x4000#16, 0x0004#16) := by decide
theorem test_shr_zero_count : ran (prog 0x1910#16 0x8000#16 0x0000#16 0x0000#16 0x0004#16) r1re =
    some (0x8000#16, 0x0006#16) := by decide
theorem test_shl : ran (prog 0x1A1F#16 0x0003#16 0x0000#16 0x0000#16 0x0000#16) r1re =
    some (0x8000#16, 0x0006#16) := by decide
theorem test_ror : ran (prog 0x1B14#16 0x1234#16 0x0000#16 0x0000#16 0x0004#16) r1re =
    some (0x4123#16, 0x0000#16) := by decide
theorem test_rol : ran (prog 0x1C14#16 0x1234#16 0x0000#16 0x0000#16 0x0000#16) r1re =
    some (0x2341#16, 0x0004#16) := by decide
theorem test_rorc : ran (prog 0x1D14#16 0x1234#16 0x0000#16 0x0000#16 0x0004#16) r1re =
    some (0x9123#16, 0x0002#16) := by decide
theorem test_rolc : ran (prog 0x1E14#16 0x1234#16 0x0000#16 0x0000#16 0x0004#16) r1re =
    some (0x2348#16, 0x0004#16) := by decide

-- section 2.3: R1 alone, C being a free value
theorem test_mul : ran (prog 0x0812#16 0x4000#16 0x0002#16 0x0000#16 0x0000#16) r1 = some 0x8000#16 := by decide
theorem test_mul_signed : ran (prog 0x0812#16 0xFFFF#16 0xFFFF#16 0x0000#16 0x0000#16) r1 = some 0x0001#16 := by decide
theorem test_div : ran (prog 0x0912#16 0xFFF9#16 0x0002#16 0x0000#16 0x0000#16) r1 = some 0xFFFD#16 := by decide
theorem test_div_most_negative : ran (prog 0x0912#16 0x8000#16 0xFFFF#16 0x0000#16 0x0000#16) r1 =
    some 0x8000#16 := by decide
theorem test_mod : ran (prog 0x0A12#16 0xFFF9#16 0x0002#16 0x0000#16 0x0000#16) r1 = some 0xFFFF#16 := by decide
theorem test_mod_negative_divisor : ran (prog 0x0A12#16 0x0007#16 0xFFFE#16 0x0000#16 0x0000#16) r1 =
    some 0x0001#16 := by decide
/-- R153: with TD = TV = 0 a division by zero goes on. -/
theorem test_div_by_zero_goes_on : ran (prog 0x0912#16 9#16 0#16 0#16 0#16) pcOf = some 0x0102#16 := by decide
/-- Section 2.4: RE as destination takes the sum exactly. -/
theorem test_add_to_re : ran (prog 0x00D1#16 0x0100#16 0#16 0#16 3#16) (·.re) = some 0x0103#16 := by decide
/-- S7: AND to RE leaves Z = 0 although the result is zero. -/
theorem test_and_to_re : ran (prog 0x10D1#16 0#16 0#16 0#16 0xFFFF#16) (·.re) = some 0x0000#16 := by decide

-- section 5.1

theorem test_ldo : ran (prog 0x2121#16 0x0000#16 0x1000#16 0x0000#16 0x0000#16) r1 =
    some 0x1234#16 := by decide
theorem test_ldo_wraps : ran (prog 0x2121#16 0x0000#16 0xFFFE#16 0x0000#16 0x0000#16) r1 =
    some 0xBEEF#16 := by decide
theorem test_ldr : ran (prog 0x3123#16 0x0000#16 0x1004#16 0xFFFE#16 0x0000#16) r1 =
    some 0x1234#16 := by decide
theorem test_ldb : ran (prog 0x6012#16 0xFFFF#16 0x1004#16 0x0000#16 0x0000#16) r1 =
    some 0x0080#16 := by decide
theorem test_ldbs : ran (prog 0x6212#16 0x0000#16 0x1004#16 0x0000#16 0x0000#16) r1 =
    some 0xFF80#16 := by decide
theorem test_ldp : ran (prog 0x6312#16 0x0000#16 0x1002#16 0x0000#16 0x0000#16) r1 =
    some 0x1234#16 := by decide
theorem test_sto : ran (prog 0x421F#16 0x1002#16 0xCAFE#16 0x0000#16 0#16) (word · 0x1000#16) =
    some (some 0xCAFE#16) := by decide
theorem test_str : ran (prog 0x5213#16 0x1000#16 0xCAFE#16 0x0002#16 0#16) (word · 0x1002#16) =
    some (some 0xCAFE#16) := by decide
theorem test_stp : ran (prog 0x6412#16 0x1002#16 0x5A5A#16 0x0000#16 0#16) (word · 0x1002#16) =
    some (some 0x5A5A#16) := by decide
theorem test_stb : ran (prog 0x6112#16 0x1001#16 0xABCD#16 0x0000#16 0#16) (word · 0x1000#16) =
    some (some 0xAACD#16) := by decide

-- section 5.2, S4
theorem test_movl : ran (prog 0x7180#16 0x1234#16 0#16 0#16 0#16) r1 = some 0xFF80#16 := by decide
theorem test_movh : ran (prog 0x82F3#16 0#16 0x0034#16 0#16 0#16) (·.x (.r 2)) = some 0xF334#16 := by decide
theorem test_movrr : ran (prog 0x6512#16 0#16 0xBEEF#16 0#16 0x000F#16) r1re = some (0xBEEF#16, 0x000F#16) := by decide
theorem test_movrr_user_sp : ran (prog 0x65C1#16 0x1700#16 0#16 0#16 0x4000#16) (fun t => (t.usp, t.ssp)) =
    some (0x1700#16, 0x2000#16) := by decide
theorem test_movar : ran (prog 0x6602#16 0#16 0x00E4#16 0#16 0#16) (·.rcn) = some 0x00E4#16 := by decide
theorem test_movar_other : ran (prog 0x6652#16 0#16 0x00E4#16 0#16 0#16) (·.rcn) = some 0x0000#16 := by decide
theorem test_movra : ran { prog 0x6710#16 0#16 0#16 0#16 0#16 with rcn := 0x00E4#16 } r1 = some 0x00E4#16 := by decide
theorem test_movra_other_goes_on : ran (prog 0x6715#16 0#16 0#16 0#16 0#16) pcOf = some 0x0102#16 := by decide
theorem test_movru : ran (prog 0x6810#16 0#16 0#16 0#16 0#16) r1 = some 0x1800#16 := by decide
theorem test_movur : ran (prog 0x6902#16 0#16 0x1700#16 0#16 0#16) (·.usp) = some 0x1700#16 := by decide
theorem test_swapr : ran (prog 0x6A12#16 0x1111#16 0x2222#16 0#16 0#16)
    (fun t => (t.x (.r 1), t.x (.r 2), t.temp)) = some (0x2222#16, 0x1111#16, 0x1111#16) := by decide
theorem test_swapm : ran (prog 0x6B12#16 0x1111#16 0x1002#16 0#16 0#16)
    (fun t => (t.x (.r 1), t.temp, word t 0x1002#16)) = some (0x1234#16, 0x1234#16, some 0x1111#16) := by decide
theorem test_push : ran (prog 0x6C10#16 0xCAFE#16 0#16 0#16 0#16) (fun t => (t.ssp, word t 0x1FFE#16)) =
    some (0x1FFE#16, some 0xCAFE#16) := by decide
theorem test_push_sp : ran (prog 0x6CC0#16 0#16 0#16 0#16 0#16) (fun t => (t.ssp, word t 0x1FFE#16)) =
    some (0x1FFE#16, some 0x2000#16) := by decide
theorem test_pop : ran { prog 0x6D10#16 0#16 0#16 0#16 0x4000#16 with usp := 0x1002#16 }
    (fun t => (r1 t, t.usp, t.ssp)) = some (0x1234#16, 0x1004#16, 0x2000#16) := by decide

-- section 6.1: one digit V C N Z of RE[3:0] for which each jump is taken, and one for which it is not

/-- pc after the conditional jump with this word (dif = +2) when RE[3:0] is the digit. -/
def jumpFrom (w digit : Word) : Option Word := ran (prog w 0#16 0#16 0#16 digit) pcOf

theorem test_jz : jumpFrom 0x9002#16 0x1#16 = some 0x0106#16 ∧ jumpFrom 0x9002#16 0xE#16 = some 0x0102#16 := by
  decide
theorem test_jnz : jumpFrom 0x9102#16 0xE#16 = some 0x0106#16 ∧ jumpFrom 0x9102#16 0x1#16 = some 0x0102#16 := by
  decide
theorem test_jn : jumpFrom 0x9202#16 0x2#16 = some 0x0106#16 ∧ jumpFrom 0x9202#16 0xD#16 = some 0x0102#16 := by
  decide
theorem test_jnn : jumpFrom 0x9302#16 0xD#16 = some 0x0106#16 ∧ jumpFrom 0x9302#16 0x2#16 = some 0x0102#16 := by
  decide
theorem test_jp : jumpFrom 0x9402#16 0xC#16 = some 0x0106#16 ∧ jumpFrom 0x9402#16 0x2#16 = some 0x0102#16 := by
  decide
theorem test_jnp : jumpFrom 0x9502#16 0x1#16 = some 0x0106#16 ∧ jumpFrom 0x9502#16 0xC#16 = some 0x0102#16 := by
  decide
theorem test_jc : jumpFrom 0x9602#16 0x4#16 = some 0x0106#16 ∧ jumpFrom 0x9602#16 0xB#16 = some 0x0102#16 := by
  decide
theorem test_jnc : jumpFrom 0x9702#16 0xB#16 = some 0x0106#16 ∧ jumpFrom 0x9702#16 0x4#16 = some 0x0102#16 := by
  decide
theorem test_jv : jumpFrom 0x9802#16 0x8#16 = some 0x0106#16 ∧ jumpFrom 0x9802#16 0x7#16 = some 0x0102#16 := by
  decide
theorem test_jnv : jumpFrom 0x9902#16 0x7#16 = some 0x0106#16 ∧ jumpFrom 0x9902#16 0x8#16 = some 0x0102#16 := by
  decide
theorem test_jlt : jumpFrom 0x9A02#16 0x2#16 = some 0x0106#16 ∧ jumpFrom 0x9A02#16 0xA#16 = some 0x0102#16 := by
  decide
theorem test_jle : jumpFrom 0x9B02#16 0x9#16 = some 0x0106#16 ∧ jumpFrom 0x9B02#16 0xA#16 = some 0x0102#16 := by
  decide
theorem test_jgt : jumpFrom 0x9C02#16 0xA#16 = some 0x0106#16 ∧ jumpFrom 0x9C02#16 0x8#16 = some 0x0102#16 := by
  decide
theorem test_jge : jumpFrom 0x9D02#16 0xA#16 = some 0x0106#16 ∧ jumpFrom 0x9D02#16 0x2#16 = some 0x0102#16 := by
  decide
theorem test_ja : jumpFrom 0x9E02#16 0xA#16 = some 0x0106#16 ∧ jumpFrom 0x9E02#16 0x4#16 = some 0x0102#16 := by
  decide
theorem test_jbe : jumpFrom 0x9F02#16 0x4#16 = some 0x0106#16 ∧ jumpFrom 0x9F02#16 0xA#16 = some 0x0102#16 := by
  decide

-- section 6.2
theorem test_jump_back : ran (prog 0x90FF#16 0#16 0#16 0#16 1#16) pcOf = some 0x0100#16 := by decide
theorem test_jmp_self : ran (prog 0xAFFF#16 0#16 0#16 0#16 0#16) pcOf = some 0x0100#16 := by decide
theorem test_jmp_far : ran (prog 0xA7FF#16 0#16 0#16 0#16 0#16) pcOf = some 0x1100#16 := by decide
theorem test_jmpr : ran (prog 0xD003#16 0#16 0#16 0x0401#16 0#16) pcOf = some 0x0401#16 := by decide
theorem test_call : ran (prog 0xB07F#16 0#16 0#16 0#16 0#16) (fun t => (t.pc, t.ssp, word t 0x1FFE#16)) =
    some (0x0200#16, 0x1FFE#16, some 0x0102#16) := by decide
theorem test_cr : ran (prog 0xD103#16 0#16 0#16 0x0400#16 0#16) (fun t => (t.pc, t.ssp, word t 0x1FFE#16)) =
    some (0x0400#16, 0x1FFE#16, some 0x0102#16) := by decide
theorem test_callf : ran (prog 0xC00F#16 0#16 0#16 0#16 0#16) (fun t => (t.pc, t.rl)) =
    some (0x0120#16, 0x0102#16) := by decide
theorem test_crf : ran (prog 0xD203#16 0#16 0#16 0x0400#16 0#16) (fun t => (t.pc, t.rl)) =
    some (0x0400#16, 0x0102#16) := by decide
theorem test_ret : ran { prog 0xD300#16 0#16 0#16 0#16 0#16 with ssp := 0x1002#16 } (fun t => (t.pc, t.ssp)) =
    some (0x1234#16, 0x1004#16) := by decide
theorem test_retf : ran { prog 0xD400#16 0#16 0#16 0#16 0#16 with rl := 0x0300#16 } pcOf = some 0x0300#16 := by decide
theorem test_nop : ran (prog 0xD700#16 0#16 0#16 0#16 0x000F#16) (fun t => (t.pc, t.re)) =
    some (0x0102#16, 0x000F#16) := by decide

-- section 7.1: the saved RE, the saved address, RE, SSP and pc after an entry
/-- The frame of an entry from SSP = 2000H. -/
def frame (t : State) : Option Word × Option Word × Word × Word × Word :=
  (word t 0x1FFC#16, word t 0x1FFE#16, t.re, t.ssp, t.pc)

theorem test_swe : ran (prog 0xD506#16 0#16 0#16 0#16 0x4104#16) frame =
    some (some 0x4104#16, some 0x0102#16, 0#16, 0x1FFC#16, 0x0300#16) := by decide
theorem test_rfe : ran { prog 0xD600#16 0#16 0#16 0#16 0#16 with ssp := 0x1002#16 }
    (fun t => (t.re, t.pc, t.temp, t.ssp)) = some (0x1234#16, 0x8081#16, 0x1234#16, 0x1006#16) := by decide
theorem test_excesso : ran (prog 0x0012#16 0x7FFF#16 1#16 0#16 0x0040#16) (fun t => (r1 t, frame t)) =
    some (0x8000#16, some 0x004A#16, some 0x0102#16, 0#16, 0x1FFC#16, 0x0300#16) := by decide
theorem test_div0 : ran (prog 0x0912#16 9#16 0#16 0#16 0x0080#16) (fun t => (r1 t, frame t)) =
    some (9#16, some 0x0080#16, some 0x0102#16, 0#16, 0x1FFC#16, 0x0300#16) := by decide
theorem test_cod_inv : ran (prog 0xF123#16 0#16 0#16 0#16 3#16) frame =
    some (some 0x0003#16, some 0x0102#16, 0#16, 0x1FFC#16, 0x0300#16) := by decide
theorem test_d_desalinhado : ran (prog 0x2120#16 0x5555#16 0x1001#16 0#16 0x4105#16) (fun t => (r1 t, frame t)) =
    some (0x5555#16, some 0x4105#16, some 0x0102#16, 0#16, 0x1FFC#16, 0x0300#16) := by decide
theorem test_d_desalinhado_push :
    ran { prog 0x6C10#16 0x5555#16 0#16 0#16 0x4000#16 with usp := 0x17FF#16 } (fun t => (t.usp, frame t)) =
      some (0x17FF#16, some 0x4000#16, some 0x0102#16, 0#16, 0x1FFC#16, 0x0300#16) := by decide
theorem test_i_desalinhado : ran { prog 0#16 0#16 0#16 0#16 0#16 with pc := 0x0101#16 } frame =
    some (some 0x0000#16, some 0x0101#16, 0#16, 0x1FFC#16, 0x0300#16) := by decide
theorem test_double_fault : ran { prog 0xF123#16 0#16 0#16 0#16 0#16 with ssp := 0x1FFF#16 } (·.run) =
    some .doubleFault := by decide

/-- A host that sets the pins INT1 and INT3 and asserts nothing else. -/
def pins13 : HostInput := { reset := false, pins := ⟨false, true, false, true⟩, brq := false, dma := [] }

/-- T1, T4: of two rising edges at once the lower enabled number is accepted; with IE1 = 0 it is INT3, which drives
INTA to 0; the address saved is that of the instruction not executed. -/
theorem test_interrupt : ran { prog 0xD700#16 0#16 0#16 0#16 0x1100#16 with inputs := [pins13] }
    (fun t => (t.inta, t.ip)) = some (false, ⟨false, true, false, false⟩) := by decide
theorem test_interrupt_entry : ran { prog 0xD700#16 0#16 0#16 0#16 0x1100#16 with inputs := [pins13] } frame =
    some (some 0x1100#16, some 0x0100#16, 0#16, 0x1FFC#16, 0x0300#16) := by decide

/-- R82: the fetch of a byte that nothing has written stops. -/
theorem test_unwritten_fetch : ran State.reset pcOf = none := by decide

/-- The first instruction after reset, placed where the fetch reads it. -/
theorem test_first_instruction : ran (State.reset.withFetchWord 16 0x7180) r1 = some 0xFF80#16 ∧
    ran (State.reset.withFetchWord 16 0x6C10) (·.ssp) = some 0xFFFE#16 ∧
    ran (State.reset.withFetchWord 16 0xD600) pcOf = none := by decide

/-! ## Witnesses: states and operands that meet the hypotheses of each statement -/

/-- A word that decodes to no instruction. -/
theorem no_instr {w : Word} {e : DecodeError} (h : decode w = .error e) : ∀ i : Instr, decode w ≠ .ok i :=
  fun i hi => by rw [h] at hi; cases hi

/-- An entry from a state of this file goes through. -/
theorem ready {s : State} {k : Byte} {v : Word} (h : isOdd s.ssp = false ∧ isOdd s.bte = false ∧
    (s.kindAt (s.ssp - 2#16) = .ram ∧ s.kindAt (s.ssp - 2#16 + 1#16) = .ram) ∧
    (s.kindAt (s.ssp - 4#16) = .ram ∧ s.kindAt (s.ssp - 4#16 + 1#16) = .ram) ∧
    s.readWord (vectorAddr s k) = .value v s.dev) : EntryReady s k :=
  ⟨h.1, h.2.1, h.2.2.1, h.2.2.2.1, v, h.2.2.2.2⟩

/-- A map with every kind of region: two ROMs, two kinds of empty range, a device; all else is read-write storage. -/
def regions : List Region :=
  [⟨0x3000, 0x100, .rom false⟩, ⟨0x3100, 0x100, .rom true⟩, ⟨0x4000, 0x100, .peripheral⟩,
    ⟨0x5000, 0x100, .empty (some 0xFF#8)⟩, ⟨0x6000, 0x100, .empty none⟩, ⟨0, 65536, .ram⟩]

/-- A state with that map, whose device answers 12H and then 34H. -/
def mapped (w r1 r2 r3 re : Word) : State :=
  { prog w r1 r2 r3 re with
    map := regions, dev := { answers := [0x12#8, 0x34#8], unanswered := 0, accesses := [] } }

/-- The device of `mapped` after the word at this address of it was read. -/
def deviceAfterWord (a : Word) : Device := { answers := [], unanswered := 0, accesses := [.readWord a 0x1234#16] }

/-- Why a step stops. -/
def stopped (s : State) : Option Fault :=
  match step s with
  | .fault f => some f
  | _ => none

theorem test_rom_and_unmapped_stop :
    stopped (mapped 0x6412#16 0x3100#16 0#16 0#16 0#16) = some .readOnly ∧
      stopped (mapped 0x6412#16 0x6000#16 0#16 0#16 0#16) = some .unmapped ∧
      stopped (mapped 0x6312#16 0#16 0x60FE#16 0#16 0#16) = some .unmapped ∧
      ran (mapped 0x6412#16 0x3000#16 0x1111#16 0#16 0#16) (·.readByte 0x3000#16) = some none := by decide

/-- R322, R317: nothing is privileged by default, and of two interrupts the lower is first. -/
theorem test_default_parameters : Param.privCheck (.rfe) = none ∧
    Param.excPriority = [.internal, .interrupt 0, .interrupt 1, .interrupt 2, .interrupt 3] ∧
    Param.memMap = [⟨0, 65536, .ram⟩] := by decide

/-- An injective map that is not the default: the numbers of class COND the other way round. -/
def otherMap : OpcodeMap := { Param.opcodeMap with cond := fun n => ~~~Param.opcodeMap.cond n }

theorem otherMap_injective : otherMap.injective := by
  refine ⟨?_, ?_, ?_, ?_, ?_, ?_⟩ <;> intro x y h <;> cases x <;> cases y <;> revert h <;> decide

theorem test_other_map : decodeWith otherMap 0x9F07#16 = .ok (.jz 7) ∧
    encodeWith otherMap (.jbe 7) = 0x9007#16 := by decide

theorem witness_DecodeInvertsEncode : (Instr.subi .temp (-8)).wellFormed = true ∧
    (Instr.sto (.r 10) .rl 14).wellFormed = true ∧ (Instr.jmp 2047).wellFormed = true ∧ otherMap.injective :=
  ⟨by decide, by decide, by decide, otherMap_injective⟩

theorem witness_EncodeInvertsDecodeUpToIgnoredBits : decodeWith Param.opcodeMap 0x0BAF#16 = .ok (.neg (.r 10)) ∧
    decodeWith otherMap 0x9F80#16 = .ok (.jz (-128)) ∧ Param.opcodeMap = Param.opcodeMap := ⟨by decide, by decide, rfl⟩

theorem witness_IgnoredFieldsMayHoldAnyValue : decode 0xD3A7#16 = .ok .ret ∧
    0xD358#16 &&& ~~~ignoredMask .ret = 0xD3A7#16 &&& ~~~ignoredMask .ret := by decide

/-- Bytes and words at both ends of the address space, and a ROM. -/
theorem witness_ReadsAreBigEndianAndWordsAligned :
    let s := withBytes (mapped 0#16 0#16 0#16 0#16 0#16) [(0xFFFE#16, 0x12#8), (0xFFFF#16, 0x34#8), (0x3001#16, 7#8)]
    (Stored s 0xFFFF#16 ∧ s.readByte 0xFFFF#16 = some 0x34#8) ∧ (Stored s 0x3001#16 ∧ s.readByte 0x3001#16 = some 7#8) ∧
      isOdd 0xFFFF#16 = true ∧
      (isOdd 0xFFFE#16 = false ∧ Stored s 0xFFFE#16 ∧ Stored s (0xFFFE#16 + 1#16) ∧ s.readByte 0xFFFE#16 = some 0x12#8 ∧
        s.readByte (0xFFFE#16 + 1#16) = some 0x34#8) :=
  ⟨⟨.inl (by decide), by decide⟩, ⟨.inr ⟨false, by decide⟩, by decide⟩, by decide,
    ⟨by decide, .inl (by decide), .inl (by decide), by decide, by decide⟩⟩

theorem witness_WritesAreBigEndianAndWordsAligned :
    let s := mapped 0#16 0#16 0#16 0#16 0#16
    s.kindAt 0xFFFF#16 = .ram ∧ isOdd 0x0001#16 = true ∧ (isOdd 0xFFFE#16 = false ∧ RamWord s 0xFFFE#16) :=
  ⟨by decide, by decide, by decide, by decide, by decide⟩

/-- Words whose bytes are of two kinds: a device's last byte stands at 5000H, and the bytes at 5003H, 5005H and 5007H are
a device's, an unmapped one and one of a ROM that stops; all else is read-write storage, 5004H holding 7. -/
def seams (answers : List Byte) : State :=
  { withBytes (prog 0#16 0#16 0#16 0#16 0#16) [(0x5001#16, 0x34#8), (0x5002#16, 0x12#8), (0x5004#16, 7#8)] with
    map := [⟨0x4F00, 0x101, .peripheral⟩, ⟨0x5003, 1, .peripheral⟩, ⟨0x5005, 1, .empty none⟩, ⟨0x5007, 1, .rom true⟩,
      ⟨0, 65536, .ram⟩],
    dev := { answers := answers, unanswered := 0, accesses := [] } }

/-- Each clause about a read at an end of its region, or where two regions meet inside a word. -/
theorem witness_AccessesFollowTheAddressMap_reads :
    (let s := mapped 0#16 0#16 0#16 0#16 0#16
     (s.kindAt 0x40FF#16 = .peripheral ∧ s.dev.answers = 0x12#8 :: [0x34#8]) ∧
      (isOdd 0x40FE#16 = false ∧ s.kindAt 0x40FE#16 = .peripheral ∧ s.kindAt (0x40FE#16 + 1#16) = .peripheral ∧
        s.dev.answers = 0x12#8 :: 0x34#8 :: []) ∧
      s.kindAt 0x50FF#16 = .empty (some 0xFF#8) ∧
      (isOdd 0x50FE#16 = false ∧ s.kindAt 0x50FE#16 = .empty (some 0xFF#8) ∧
        s.kindAt (0x50FE#16 + 1#16) = .empty (some 0xFF#8)) ∧
      (Stored s 0x3000#16 ∧ s.readByte 0x3000#16 = none ∧ isOdd 0x3000#16 = false) ∧
      (s.kindAt 0x60FF#16 = .empty none ∧ s.kindAt 0x6000#16 = .empty none ∧ isOdd 0x6000#16 = false)) ∧
    (let s := seams []
     s.kindAt 0x4F00#16 = .peripheral ∧ s.dev.answers = []) ∧
    (let s := seams [0x12#8]
     (isOdd 0x5000#16 = false ∧ s.kindAt 0x5000#16 = .peripheral ∧ Stored s (0x5000#16 + 1#16) ∧
        s.readByte (0x5000#16 + 1#16) = some 0x34#8 ∧ s.dev.answers = 0x12#8 :: []) ∧
      (isOdd 0x5002#16 = false ∧ Stored s 0x5002#16 ∧ s.readByte 0x5002#16 = some 0x12#8 ∧
        s.kindAt (0x5002#16 + 1#16) = .peripheral ∧ s.dev.answers = 0x12#8 :: []) ∧
      (isOdd 0x5004#16 = false ∧ s.memReadByte 0x5004#16 = .value 7#8 s.dev ∧ s.kindAt (0x5004#16 + 1#16) = .empty none)) ∧
    (let s := withBytes (mapped 0#16 0#16 0#16 0#16 0#16) [(0xFFFE#16, 0x12#8)]
     isOdd 0xFFFE#16 = false ∧ s.memReadByte 0xFFFE#16 = .value 0x12#8 s.dev ∧ Stored s (0xFFFE#16 + 1#16) ∧
      s.readByte (0xFFFE#16 + 1#16) = none) :=
  ⟨⟨by decide, by decide, by decide, by decide, ⟨.inr ⟨false, by decide⟩, by decide, by decide⟩, by decide⟩, by decide,
    ⟨⟨by decide, by decide, .inl (by decide), by decide, by decide⟩,
      ⟨by decide, .inl (by decide), by decide, by decide, by decide⟩, by decide⟩,
    ⟨by decide, by decide, .inl (by decide), by decide⟩⟩

/-- The same for the clauses about a write. -/
theorem witness_AccessesFollowTheAddressMap_writes :
    (let s := mapped 0#16 0#16 0#16 0#16 0#16
     (s.kindAt 0x40FF#16 ≠ .ram ∧ Writable s 0x40FF#16) ∧ (s.kindAt 0x3000#16 ≠ .ram ∧ Writable s 0x3000#16) ∧
      WordWritable s 0x40FE#16 ∧ (s.kindAt 0x31FE#16 = .rom true ∧ isOdd 0x31FE#16 = false) ∧
      (s.kindAt 0x60FE#16 = .empty none ∧ isOdd 0x60FE#16 = false)) ∧
    (let s := seams []
     WordWritable s 0x5000#16 ∧
      (isOdd 0x5006#16 = false ∧ Writable s 0x5006#16 ∧ s.kindAt (0x5006#16 + 1#16) = .rom true) ∧
      (isOdd 0x5004#16 = false ∧ Writable s 0x5004#16 ∧ s.kindAt (0x5004#16 + 1#16) = .empty none)) :=
  ⟨⟨⟨by decide, by decide, by decide⟩, ⟨by decide, by decide, by decide⟩,
      ⟨by decide, ⟨by decide, by decide⟩, by decide, by decide⟩, by decide, by decide⟩,
    ⟨by decide, ⟨by decide, by decide⟩, by decide, by decide⟩, ⟨by decide, ⟨by decide, by decide⟩, by decide⟩,
    ⟨by decide, ⟨by decide, by decide⟩, by decide⟩⟩

/-- A fetch from storage, and one from a device. -/
theorem witness_StepRunsTheDecodedInstruction :
    (let s := prog 0x0012#16 1#16 2#16 0#16 0#16
     boundary s = .proceed s.atBoundary ∧ isOdd s.atBoundary.pc = false ∧
      (Stored s.atBoundary s.atBoundary.pc ∧ Stored s.atBoundary (s.atBoundary.pc + 1#16)) ∧
      s.atBoundary.readByte s.atBoundary.pc = some 0x00#8 ∧
      s.atBoundary.readByte (s.atBoundary.pc + 1#16) = some 0x12#8 ∧
      decode (0x00#8 ++ 0x12#8) = .ok (.add (.r 1) (.r 2))) ∧
    (let s : State := { mapped 0#16 0#16 0#16 0#16 0#16 with pc := 0x4000#16 }
     boundary s = .proceed s.atBoundary ∧
      s.atBoundary.readWord s.atBoundary.pc = .value 0x1234#16 (deviceAfterWord 0x4000#16) ∧
      decode 0x1234#16 = .ok (.not (.r 3))) :=
  ⟨⟨by decide, by decide, ⟨.inl (by decide), .inl (by decide)⟩, by decide, by decide, by decide⟩, by decide⟩

/-- A quiet boundary, one at which the host sets pins and the DMA master writes to storage and to a ROM, one at which an
interrupt is accepted, and with no host action left one with IE = 1 and no request and one with a latched request. -/
theorem witness_BoundaryServesTheHostAndSamplesThePins :
    (let s := prog 0x0012#16 1#16 2#16 0#16 0#16
     s.inputs = [] ∧ s.run = .running ∧ s.ie = false ∧ s.restart = Lines.all false ∧ latchesFit s = true) ∧
    (let h : HostInput := { pins13 with brq := true, dma := [.write 0x1000#16 1#8, .write 0x3000#16 2#8] }
     let s : State := { mapped 0#16 0#16 0#16 0#16 0x2000#16 with inputs := [h, pins13] }
     s.inputs = h :: [pins13] ∧ h.reset = false ∧ s.run = .running ∧ s.atBoundary.readByte 0x1000#16 = some 1#8 ∧
       s.atBoundary.readByte 0x3000#16 = none ∧ s.atBoundary.bgt = true) ∧
    (let s : State := { prog 0#16 0#16 0#16 0#16 0x1100#16 with inputs := [pins13] }
     s.inputs = pins13 :: [] ∧ pins13.reset = false ∧ s.run = .running ∧ ∃ i, s.atBoundary.accepted = some i) ∧
    (let s := prog 0#16 0#16 0#16 0#16 0x1F00#16
     s.inputs = [] ∧ s.run = .running ∧ s.atBoundary.accepted = none) ∧
    (let s : State := { prog 0#16 0#16 0#16 0#16 0x1F00#16 with ip := ⟨false, false, true, false⟩ }
     s.inputs = [] ∧ s.run = .running ∧ s.atBoundary.accepted = some 2) ∧
    (let s : State := { prog 0#16 0#16 0#16 0#16 0x1E00#16 with ip := ⟨false, false, true, false⟩ }
     s.inputs = [] ∧ s.run = .running ∧ s.re.getLsbD 8 = false) :=
  ⟨by decide, by decide, ⟨rfl, rfl, rfl, 3, by decide⟩, by decide, by decide, by decide⟩

/-- The two clauses, at an odd pc and at a word with an unassigned opcode. -/
theorem witness_FetchExceptionsEnterTheirHandlers :
    (let s : State := { prog 0#16 0#16 0#16 0#16 0#16 with pc := 0x0101#16 }
     boundary s = .proceed s.atBoundary ∧ isOdd s.atBoundary.pc = true ∧ EntryReady s.atBoundary 9#8) ∧
    (let s := prog 0xFFFF#16 0#16 0#16 0#16 0#16
     boundary s = .proceed s.atBoundary ∧ s.atBoundary.readWord s.atBoundary.pc = .value 0xFFFF#16 s.atBoundary.dev ∧
       (∀ i : Instr, decode 0xFFFF#16 ≠ .ok i) ∧ EntryReady (s.atBoundary.withDev s.atBoundary.dev) 7#8) :=
  ⟨⟨by decide, by decide, ready (v := 0x0300#16) (by decide)⟩,
    ⟨by decide, by decide, no_instr (e := .unassigned 0xF#4) (by decide),
      ready (v := 0x0300#16) (by decide)⟩⟩

theorem witness_EveryStepKeepsTheInvariant :
    let s := prog 0x6C10#16 0xCAFE#16 0#16 0#16 0#16
    s.inv = true ∧ ∃ t, step s = .next t := ⟨by decide, _, rfl⟩

/-- RESET asserted in the stuck state. -/
theorem witness_ResetPinAppliesTheResetOperation :
    let h : HostInput := { pins13 with reset := true }
    let s : State := { prog 0#16 0#16 0#16 0#16 0#16 with run := .doubleFault, inputs := [h] }
    s.inputs = h :: [] ∧ h.reset = true := by decide

/-- A map of small ranges: a ROM that stops at 5000H, nothing at 5003H, a ROM that discards writes at 5100H; and from 5200H
a table whose first word has no second byte mapped, whose second word has its first byte written alone, whose third has no
first byte mapped, whose fourth is a device's, and whose sixth nothing has written. -/
def edges (ssp bte : Word) : State :=
  { withBytes (prog 0#16 0#16 0#16 0#16 0#16) [(0x5200#16, 3#8), (0x5202#16, 3#8)] with
    ssp := ssp, bte := bte,
    map := [⟨0x5000, 1, .rom true⟩, ⟨0x5003, 1, .empty none⟩, ⟨0x5100, 2, .rom false⟩, ⟨0x5201, 1, .empty none⟩,
      ⟨0x5204, 1, .empty none⟩, ⟨0x5206, 2, .peripheral⟩, ⟨0, 65536, .ram⟩] }

/-- The two ends of the table; a frame in a ROM that discards it, with a table in a device, and a table word that is one
of the two words of the frame; a stop at either byte of either frame word, and of the table word. -/
theorem witness_EntrySavesTheFrameAndLoadsTheHandler :
    EntryReady (prog 0#16 0#16 0#16 0#16 0x4105#16) 8#8 ∧
      EntryReady (withBytes (prog 0#16 0#16 0#16 0#16 0#16) [(0x023E#16, 3#8), (0x023F#16, 0#8)]) 255#8 ∧
      (let s := edges 0x5102#16 0x5206#16
       WordWritable s (s.ssp - 2#16) ∧ WordWritable s (s.ssp - 4#16) ∧ isOdd s.bte = false ∧
        VectorByteReads s (vectorAddr s 0#8) ∧ VectorByteReads s (vectorAddr s 0#8 + 1#16)) ∧
      (let s := edges 0x1004#16 0x1000#16
       WordWritable s (s.ssp - 2#16) ∧ WordWritable s (s.ssp - 4#16) ∧
        (∀ k ∈ [0#8, 1#8], InFrame s (vectorAddr s k) ∧ InFrame s (vectorAddr s k + 1#16)) ∧
        (vectorAddr s 1#8 = s.ssp - 2#16 ∧ RamWord s (s.ssp - 2#16)) ∧
        (vectorAddr s 0#8 = s.ssp - 4#16 ∧ RamWord s (s.ssp - 4#16))) ∧
      (isOdd 0x5002#16 = false ∧ WordWriteStops (edges 0x5002#16 0#16) (0x5002#16 - 2#16) .readOnly) ∧
      (isOdd 0x5004#16 = false ∧ WordWriteStops (edges 0x5004#16 0#16) (0x5004#16 - 2#16) .unmapped) ∧
      (WordWritable (edges 0x5008#16 0#16) (0x5008#16 - 2#16) ∧ WordWritable (edges 0x5008#16 0#16) (0x5008#16 - 4#16) ∧
        VectorStops (edges 0x5008#16 0x5200#16) (vectorAddr (edges 0x5008#16 0x5200#16) 2#8) .unmapped ∧
        VectorStops (edges 0x5008#16 0x5200#16) (vectorAddr (edges 0x5008#16 0x5200#16) 0#8) .unmapped ∧
        VectorStops (edges 0x5008#16 0x5200#16) (vectorAddr (edges 0x5008#16 0x5200#16) 5#8) .unwrittenVector ∧
        VectorStops (edges 0x5008#16 0x5200#16) (vectorAddr (edges 0x5008#16 0x5200#16) 1#8) .unwrittenVector) ∧
      (WordWritable (edges 0x5006#16 0#16) (0x5006#16 - 2#16) ∧
        WordWriteStops (edges 0x5006#16 0#16) (0x5006#16 - 4#16) .unmapped) :=
  ⟨ready (v := 0x0300#16) (by decide), ready (v := 0x0300#16) (by decide),
    ⟨⟨by decide, ⟨by decide, by decide⟩, by decide, by decide⟩, ⟨by decide, ⟨by decide, by decide⟩, by decide, by decide⟩,
      by decide, .inl ⟨_, _, rfl⟩, .inl ⟨_, _, rfl⟩⟩,
    ⟨⟨by decide, ⟨by decide, by decide⟩, by decide, by decide⟩, ⟨by decide, ⟨by decide, by decide⟩, by decide, by decide⟩,
      by unfold InFrame; decide, ⟨by decide, by decide, by decide⟩, by decide, by decide, by decide⟩,
    ⟨by decide, .inl (.inl (by decide))⟩, ⟨by decide, .inr ⟨⟨by decide, by decide⟩, .inr (by decide)⟩⟩,
    ⟨⟨by decide, ⟨by decide, by decide⟩, by decide, by decide⟩, ⟨by decide, ⟨by decide, by decide⟩, by decide, by decide⟩,
      .inl (.inr (by decide)), .inr ⟨.inl ⟨_, _, rfl⟩, .inr (by decide)⟩,
      .inl (.inl ⟨.inl (by decide), by decide, by unfold InFrame; decide, rfl⟩),
      .inr ⟨.inl ⟨_, _, rfl⟩, .inl ⟨.inl (by decide), by decide, by unfold InFrame; decide, rfl⟩⟩⟩,
    ⟨by decide, ⟨by decide, by decide⟩, by decide, by decide⟩, .inr ⟨⟨by decide, by decide⟩, .inr (by decide)⟩⟩

theorem witness_OddStackOrTableIsADoubleFault :
    let s := prog 0xD506#16 0#16 0#16 0#16 0#16
    isOdd { s with ssp := 0x1FFF#16 }.ssp = true ∧
      (isOdd s.ssp = false ∧ isOdd { s with bte := 0x0041#16 }.bte = true ∧ RamWord s (s.ssp - 2#16) ∧
        RamWord s (s.ssp - 4#16)) ∧
      { s with run := .doubleFault }.run = .doubleFault ∧ { s with run := .doubleFault }.hostInput.reset = false :=
  ⟨by decide, ⟨by decide, by decide, ⟨by decide, by decide⟩, by decide, by decide⟩, by decide, by decide⟩

theorem witness_SweEntersTheHandlerOfItsOperand : EntryReady (prog 0xD506#16 0#16 0#16 0#16 0x4104#16) 6#8 ∧
    (let s : State := { prog 0xD506#16 0#16 0#16 0#16 0#16 with bte := 0x0041#16 }
     isOdd { s with ssp := 0x1FFF#16 }.ssp = true ∧
       (isOdd s.bte = true ∧ RamWord s (s.ssp - 2#16) ∧ RamWord s (s.ssp - 4#16))) :=
  ⟨ready (v := 0x0300#16) (by decide), by decide, by decide,
    ⟨by decide, by decide⟩, by decide, by decide⟩

/-- At user level, the frame at USP = 1000H; and an odd SP. -/
theorem witness_RfeRestoresStatusAndPc :
    let s : State := { prog 0xD600#16 0#16 0#16 0#16 0x4000#16 with usp := 0x1000#16 }
    s.readWord (s.x .sp) = .value 0xAABB#16 s.dev ∧
      (s.withDev s.dev).readWord (s.x .sp + 2#16) = .value 0x1234#16 s.dev ∧
      isOdd ({ s with usp := 0x1001#16 }.x .sp) = true := by decide

theorem witness_RfeUndoesAnEntry : EntryReady (prog 0#16 0#16 0#16 0#16 0x4104#16) 6#8 :=
  ready (v := 0x0300#16) (by decide)

/-- The lowest of two enabled requests, and none while IE = 0. -/
theorem witness_LowestEnabledRequestIsAccepted :
    let s : State := { prog 0#16 0#16 0#16 0#16 0x1F00#16 with ip := ⟨false, true, false, true⟩ }
    s.accepted = some 1 ∧ { s with re := 0x1E00#16 }.accepted = none ∧
      { s with re := 0x1100#16 }.accepted = some 3 := by decide

theorem witness_AcceptedInterruptEntersItsHandler :
    let s : State := { prog 0xD700#16 0#16 0#16 0#16 0x1100#16 with inputs := [pins13] }
    s.hostInput.reset = false ∧ s.run = .running ∧ s.atBoundary.accepted = some 3 ∧
      EntryReady s.atBoundary (BitVec.ofNat 8 (3 : Fin 4).val) :=
  ⟨by decide, by decide, by decide,
    ready (v := 0x0300#16) (by decide)⟩

/-- A falling-edge code for INT1 and a level code for INT2: bits 3 and 2, and 5 and 4, of RCN. -/
theorem witness_LatchesFollowTheSelectedEdge :
    let s : State := { prog 0#16 0#16 0#16 0#16 0#16 with rcn := 0x0024#16, intPins := ⟨true, true, true, true⟩ }
    (false = s.rcn.getLsbD (2 * (1 : Fin 4).val + 1) ∧ true = s.rcn.getLsbD (2 * (1 : Fin 4).val)) ∧
      (true = s.rcn.getLsbD (2 * (2 : Fin 4).val + 1) ∧ false = s.rcn.getLsbD (2 * (2 : Fin 4).val)) ∧
      (s.samplePins (Lines.all false)).ip = ⟨false, true, false, false⟩ := by decide

/-- RCN written so that the field of INT0 stays and that of INT3 changes; and another auxiliary register. -/
theorem witness_MovarWritesRcnAndRestartsDetectors :
    let same := fun i : Nat => decide ((0x0040#16).getLsbD (2 * i + 1) = (0x0000#16).getLsbD (2 * i + 1) ∧
      (0x0040#16).getLsbD (2 * i) = (0x0000#16).getLsbD (2 * i))
    same 0 = true ∧ same 3 = false ∧ (15 : Fin 16) ≠ 0 := by decide

/-- The bus granted and not granted. -/
theorem witness_DmaNeedsItsEnableBit :
    let s := prog 0#16 0#16 0#16 0#16 0x2000#16
    let l := [DmaAccess.write 0x1000#16 1#8, .read 0x1000#16, .write 0x1000#16 2#8]
    (s.dmaBoundary true l).readByte 0x1000#16 = some 2#8 ∧ (s.dmaBoundary false l).readByte 0x1000#16 = some 0xAA#8 ∧
      ({ s with re := 0x0000#16 }.dmaBoundary true l).readByte 0x1000#16 = some 0xAA#8 := by decide

/-- Sums at the edge of the range with TV = 1, for a register, a constant and a carry; and a sum outside it with
TV = 0. -/
theorem witness_AdditionsWriteTheSumAndItsFlags :
    let s := prog 0#16 0x7FFE#16 0x0001#16 0x8000#16 0x0044#16
    fitsWord ((s.x (.r 1)).toInt + (s.x (.r 2)).toInt) ∧
      fitsWord ((s.x (.r 1)).toInt + (constWord 1).toInt) ∧
      fitsWord ((s.x (.r 3)).toInt + (s.x (.r 2)).toInt + s.flagC.toNat) ∧ { s with re := 0#16 }.tv = false := by decide

/-- Differences at the edge of the range with TV = 1, and TV = 0 for the others. -/
theorem witness_SubtractionsWriteTheDifferenceAndItsFlags :
    let s := prog 0#16 0x8001#16 0x0001#16 0x0000#16 0x0044#16
    fitsWord ((s.x (.r 1)).toInt - (s.x (.r 2)).toInt) ∧ fitsWord ((s.x (.r 1)).toInt - (constWord 1).toInt) ∧
      fitsWord ((s.x (.r 1)).toInt - (s.x (.r 3)).toInt - s.flagC.toNat) ∧ s.x (.r 1) ≠ 0x8000#16 ∧
      { s with re := 0#16 }.tv = false := by decide

theorem witness_ComparisonsWriteFlagsAlone :
    let s := prog 0#16 0x8001#16 0x0001#16 0#16 0x0040#16
    fitsWord ((s.x (.r 1)).toInt - (s.x (.r 2)).toInt) ∧ fitsWord ((s.x (.r 1)).toInt - (constWord 1).toInt) ∧
      { s with re := 0#16 }.tv = false := by decide

/-- TV = 1 and a result just outside the range, for every clause. -/
theorem witness_OverflowTrapsAfterTheResultIsWritten :
    let s := prog 0#16 0x7FFF#16 0x0001#16 0x8000#16 0x0044#16
    s.tv = true ∧ ¬fitsWord ((s.x (.r 1)).toInt + (s.x (.r 2)).toInt) ∧
      ¬fitsWord ((s.x (.r 1)).toInt + (constWord 1).toInt) ∧
      ¬fitsWord ((s.x (.r 1)).toInt + (s.x (.r 2)).toInt + s.flagC.toNat) ∧
      ¬fitsWord ((s.x (.r 3)).toInt - (s.x (.r 2)).toInt) ∧ ¬fitsWord ((s.x (.r 3)).toInt - (constWord 1).toInt) ∧
      ¬fitsWord ((s.x (.r 3)).toInt - (s.x (.r 2)).toInt - s.flagC.toNat) ∧ s.x (.r 3) = 0x8000#16 ∧
      ¬fitsWord ((s.x (.r 3)).toInt * (s.x (.r 3)).toInt) ∧
      ¬fitsWord ((s.x (.r 1)).toInt * 2 ^ (15 : Fin 16).val) := by decide

theorem witness_MultiplicationWritesTheLowHalf :
    let s := prog 0#16 0x8000#16 0x0001#16 0#16 0x0040#16
    fitsWord ((s.x (.r 1)).toInt * (s.x (.r 2)).toInt) ∧ { s with re := 0#16 }.tv = false := by decide

theorem witness_DivisionTruncatesTowardZero : (prog 0#16 0x8000#16 0xFFFF#16 0#16 0#16).x (.r 2) ≠ 0x0000#16 := by
  decide

/-- A zero divisor with TD = 1, with TD = TV = 0 and with TD = 0, TV = 1. -/
theorem witness_DivisionByZeroTrapsOrOverflows :
    let s := prog 0#16 0x0009#16 0x0000#16 0#16 0x0080#16
    (Instr.mod (.r 1) (.r 2) = .div (.r 1) (.r 2) ∨ Instr.mod (.r 1) (.r 2) = .mod (.r 1) (.r 2)) ∧
      s.x (.r 2) = 0x0000#16 ∧ s.td = true ∧ EntryReady s 5#8 ∧
      { s with re := 0#16 }.td = false ∧ { s with re := 0#16 }.tv = false ∧
      { s with re := 0x0040#16 }.td = false ∧ { s with re := 0x0040#16 }.tv = true :=
  ⟨by decide, by decide, by decide, ready (v := 0x0300#16) (by decide), by decide, by decide,
    by decide, by decide⟩

/-- Each of the three instructions with its bit. -/
theorem witness_BitOperationsChangeOneBit :
    let s := prog 0#16 0x8000#16 0#16 0#16 0#16
    (Instr.setbit (.r 1) 15 = .setbit (.r 1) 15 ∧ true = true) ∧
      (Instr.clrbit (.r 1) 0 = .clrbit (.r 1) 0 ∧ false = false) ∧
      (Instr.cplbit (.r 1) 15 = .cplbit (.r 1) 15 ∧ false = !(s.x (.r 1)).getLsbD (15 : Fin 16).val) := by decide

theorem witness_ShlaOverflowsWhenTheProductDoesNotFit :
    let s := prog 0#16 0xFFFF#16 0#16 0#16 0x0040#16
    fitsWord ((s.x (.r 1)).toInt * 2 ^ (15 : Fin 16).val) ∧ { s with re := 0#16 }.tv = false := by decide

/-- An effective address that wraps, an index that is negative, the plain one, and the last word of the device. -/
theorem witness_WordLoadsWriteTheirDestinationAlone :
    (let s := prog 0#16 0#16 0xFFFE#16 0x1002#16 0#16
     s.readWord (s.x (.r 2) + BitVec.ofInt 16 2) = .value 0xBEEF#16 s.dev ∧
       s.readWord (s.x (.r 3) + s.x (.r 2)) = .value 0xAABB#16 s.dev ∧
       s.readWord (s.x (.r 3)) = .value 0x1234#16 s.dev) ∧
    (let s := mapped 0#16 0#16 0x40FE#16 0#16 0#16
     isOdd (s.x (.r 2)) = false ∧ s.kindAt (s.x (.r 2)) = .peripheral ∧ s.kindAt (s.x (.r 2) + 1#16) = .peripheral ∧
       s.dev.answers = 0x12#8 :: 0x34#8 :: []) := by decide

/-- In storage below the base, before it by a negative index, and at the last word of the device. -/
theorem witness_WordStoresWriteTheirWordAlone :
    let s := mapped 0#16 0x1000#16 0x40FE#16 0xFFFE#16 0#16
    WordWritable s (s.x (.r 1) + BitVec.ofInt 16 (-16)) ∧ WordWritable s (s.x (.r 1) + s.x (.r 3)) ∧
      WordWritable s (s.x (.r 2)) :=
  ⟨⟨by decide, ⟨by decide, by decide⟩, by decide, by decide⟩, ⟨by decide, ⟨by decide, by decide⟩, by decide, by decide⟩,
    ⟨by decide, ⟨by decide, by decide⟩, by decide, by decide⟩⟩

/-- Each of the four clauses at an odd address. -/
theorem witness_MisalignedAccessTrapsWithNothingChanged :
    let s : State := { prog 0#16 0#16 0x1001#16 0xFFFE#16 0#16 with ssp := 0x0001#16 }
    isOdd (s.x (.r 2) + BitVec.ofInt 16 (-16)) = true ∧ isOdd (s.x (.r 2) + s.x (.r 3)) = true ∧
      isOdd (s.x (.r 2)) = true ∧ isOdd (s.x .sp) = true := by decide

/-- A byte of storage at an odd address, and one of the device. -/
theorem witness_ByteTransfersReachAnyAddress :
    let s := mapped 0#16 0#16 0x1005#16 0x40FF#16 0#16
    s.memReadByte (s.x (.r 2)) = .value 0x81#8 s.dev ∧
      s.memReadByte (s.x (.r 3)) =
        .value 0x12#8 { answers := [0x34#8], unanswered := 0, accesses := [.readByte 0x40FF#16 0x12#8] } ∧
      Writable s (s.x (.r 2)) ∧ Writable s (s.x (.r 3)) :=
  ⟨by decide, by decide, ⟨by decide, by decide⟩, by decide, by decide⟩

theorem witness_MovesWriteTheirDestinationAlone : (-128 : Int) ≤ -128 ∧ (127 : Int) ≤ 127 := by decide

theorem witness_MovraReadsRcnOrAFreeValue : (0 : Fin 16) = Param.rcnIndex ∧ (15 : Fin 16) ≠ 0 := by decide

/-- Operands for each of the four cases. -/
theorem witness_SwaprExchangesThroughTemp :
    (Reg.r 1 ≠ .temp ∧ Reg.sp ≠ .temp ∧ ¬(Reg.r 1 = .re ∧ Reg.sp = .sp)) ∧ (Reg.re = .re ∧ Reg.sp = .sp) ∧
      (Reg.temp = .temp ∧ Reg.r 1 ≠ .temp) := by decide

/-- A word of storage, and one of the device. -/
theorem witness_SwapmExchangesWithMemory :
    let s := mapped 0#16 0x1111#16 0x1002#16 0x4000#16 0#16
    (s.readWord (s.x (.r 2)) = .value 0x1234#16 s.dev ∧ WordWritable s (s.x (.r 2))) ∧
      (s.readWord (s.x (.r 3)) = .value 0x1234#16 (deviceAfterWord 0x4000#16) ∧ WordWritable s (s.x (.r 3))) :=
  ⟨⟨by decide, by decide, ⟨by decide, by decide⟩, by decide, by decide⟩,
    by decide, by decide, ⟨by decide, by decide⟩, by decide, by decide⟩

/-- The stack pointer 0, below which lies the top of the address space. -/
theorem witness_PushStoresBelowTheStackPointer :
    let s : State := { prog 0#16 0#16 0#16 0#16 0#16 with ssp := 0x0000#16 }
    WordWritable s (s.x .sp - 2#16) := ⟨by decide, ⟨by decide, by decide⟩, by decide, by decide⟩

theorem witness_PopLoadsAndRaisesTheStackPointer :
    let s : State := { prog 0#16 0#16 0#16 0#16 0x4000#16 with usp := 0x1004#16 }
    s.readWord (s.x .sp) = .value 0x8081#16 s.dev ∧ (Reg.r 1 ≠ .sp ∧ Reg.r 1 ≠ .re) := by decide

theorem witness_ConditionalJumpsTestTheirFlags :
    let s := prog 0#16 0#16 0#16 0#16 0x000A#16
    false = s.re.getLsbD 0 ∧ true = s.re.getLsbD 1 ∧ false = s.re.getLsbD 2 ∧ true = s.re.getLsbD 3 := by decide

theorem witness_JumpsAfterCmpCompareTheRegisters :
    let s := prog 0#16 0x8001#16 0x0001#16 0#16 0x0040#16
    fitsWord ((s.x (.r 1)).toInt - (s.x (.r 2)).toInt) ∧ { s with re := 0#16 }.tv = false := by decide

theorem witness_CallsAndReturnsUseTheStack :
    let s : State := { prog 0#16 0#16 0#16 0#16 0#16 with ssp := 0x1002#16 }
    WordWritable s (s.x .sp - 2#16) ∧ s.readWord (s.x .sp) = .value 0x1234#16 s.dev :=
  ⟨⟨by decide, ⟨by decide, by decide⟩, by decide, by decide⟩, by decide⟩

theorem witness_RelativeTransfersKeepPcEven :
    let s := prog 0#16 0#16 0#16 0#16 0#16
    isOdd s.pc = false ∧ (∃ t, exec (.callf (-1)) s = .next t) ∧ isOdd (s.x .sp) = false ∧
      ∃ t, exec (.call (-1)) s = .next t := ⟨by decide, ⟨_, rfl⟩, by decide, _, rfl⟩

theorem witness_OnlyMovarChangesRcnAndLatches :
    (∃ t, exec .nop (prog 0#16 0#16 0#16 0#16 0#16) = .next t) ∧ ∀ (a : Fin 16) (r : Reg), Instr.nop ≠ .movar a r :=
  ⟨⟨_, rfl⟩, (fun _ _ h => by cases h)⟩

/-- An ADD, which names R1 alone; and a PUSH and a POP, which use the stack, at either level. -/
theorem witness_RegistersChangeOnlyWhenNamed :
    (let i := Instr.add (.r 1) (.r 2)
     (∃ t, exec i (prog 0#16 1#16 2#16 0#16 0#16) = .next t) ∧ destination i ≠ some (.r 2) ∧
       secondRegister i ≠ some (.r 2) ∧ destination i ≠ some .bte ∧ secondRegister i ≠ some .bte ∧
       destination i ≠ some .rl ∧ destination i ≠ some .temp ∧ (∀ dif : Int, i ≠ .callf dif) ∧
       (∀ r : Reg, i ≠ .crf r) ∧ (∀ d r : Reg, i ≠ .swapr d r) ∧ (∀ d r : Reg, i ≠ .swapm d r) ∧
       (∀ k : Byte, i ≠ .swe k) ∧ i ≠ .rfe ∧ (∀ r : Reg, i ≠ .movur r) ∧ ¬writesSp i) ∧
    (let i := Instr.push (.r 1)
     (∃ t, exec i (prog 0#16 1#16 2#16 0#16 0#16) = .next t) ∧ (∀ r : Reg, i ≠ .movur r) ∧
       (prog 0#16 1#16 2#16 0#16 0#16).np = false ∧ destination i ≠ some .re) ∧
    (let i := Instr.pop (.r 1)
     let s : State := { prog 0#16 1#16 2#16 0#16 0x4000#16 with usp := 0x1000#16 }
     (∃ t, exec i s = .next t) ∧ (∀ k : Byte, i ≠ .swe k) ∧ s.np = true ∧ destination i ≠ some .re) :=
  ⟨⟨⟨_, rfl⟩, by decide, by decide, by decide, by decide, by decide, by decide, (fun _ h => by cases h),
    (fun _ h => by cases h), (fun _ _ h => by cases h), (fun _ _ h => by cases h), (fun _ h => by cases h), by decide,
    (fun _ h => by cases h), by simp [writesSp, destination, secondRegister]⟩,
    ⟨⟨_, rfl⟩, (fun _ h => by cases h), by decide, by decide⟩,
    ⟨_, rfl⟩, (fun _ h => by cases h), by decide, by decide⟩

theorem witness_OnlyListedFlagsChange :
    let i := Instr.shr (.r 1) 4
    (∃ t, exec i (prog 0#16 1#16 2#16 0#16 0#16) = .next t) ∧ destination i ≠ some .re ∧
      secondRegister i ≠ some .re ∧ (∀ k : Byte, i ≠ .swe k) ∧ i ≠ .rfe :=
  ⟨⟨_, rfl⟩, by decide, by decide, (fun _ h => by cases h), by decide⟩

theorem witness_OnlyStoresChangeMemory :
    let i := Instr.pop (.r 1)
    (∃ t, exec i { prog 0#16 0#16 0#16 0#16 0#16 with ssp := 0x1000#16 } = .next t) ∧ stores i = false :=
  ⟨⟨_, rfl⟩, by decide⟩

/-- The ends of both ranges, and constants of one and of two instructions. -/
theorem witness_AssembledConstantReachesItsRegister :
    ((-32768 : Int) ≤ -32768 ∧ (65535 : Int) ≤ 65535) ∧ const8Ok (Asm.signedConst 65535) = true ∧
      const8Ok (Asm.signedConst (-128)) = true ∧ const8Ok (Asm.signedConst 128) = false ∧
      const8Ok (Asm.signedConst (-32768)) = false := by decide

/-! ## The assembler (S1, S8) -/

theorem test_assemble_constants :
    (Asm.expandMov (.r 1) 127).map encode = [0x717F#16] ∧
      (Asm.expandMov (.r 1) 32767).map encode = [0x71FF#16, 0x817F#16] ∧
      (Asm.expandMov (.r 1) (-128)).map encode = [0x7180#16] ∧
      (Asm.expandMov (.r 1) (-32768)).map encode = [0x7100#16, 0x8180#16] := by decide

/-- R284: an odd label, and an odd place, is an error; R282: -2 stands for FFFEH. -/
theorem test_assemble_odd_address :
    Asm.relInstr "JMP" 0 3 .jmp = .error (.oddAddress "JMP") ∧ Asm.relInstr "JMP" 1 3 .jmp = .error (.oddAddress "JMP") ∧
      Asm.relInstr "JMP" 0xFFF0 (-2) .jmp = .ok [.jmp 6] := by decide

/-- R115, R9, D4: at FFFEH EIS is 0000H, and the number 1 leads to 0002H. Assumption log 35: FF00H lies across 0000H. -/
theorem test_assemble_jump_at_the_end :
    Asm.assembleForm [] 0xFFFE "JMP" [.val (.num 2)] = .ok [.jmp 1] ∧ encode (.jmp 1) = 0xA001#16 ∧
      Asm.assembleForm [] 0xFFFE "JMP" [.val (.num 0xFF00)] = .error (.outOfRange "JMP") := ⟨rfl, by decide, rfl⟩

/-- Assumption log 35: no ASCII code, and a table that passes the end. -/
theorem test_assemble_refused :
    Asm.stringBytes [] (.str ['o', 'é']) = .error .badOperand ∧
      Asm.stringBytes [] (.str ['o', 'l', 'a']) = .ok [0x6F#8, 0x6C#8, 0x61#8] ∧
      Asm.tableEnd 0xFFF0 9 = .error (.outOfRange "TABLE") := ⟨rfl, rfl, rfl⟩

/-- R358 (a): a jump to itself ends a run; with a RESET at that boundary it does not (assumption log 32). R358 (c): a
double fault reached ends it, RESET or not. -/
theorem test_end_of_run :
    endOfRun (prog 0xAFFF#16 0#16 0#16 0#16 0#16) = true ∧
      endOfRun { prog 0xAFFF#16 0#16 0#16 0#16 0#16 with inputs := [{ pins13 with reset := true }] } = false ∧
      endOfRun { prog 0xD700#16 0#16 0#16 0#16 0#16 with run := .doubleFault } = true ∧
      endOfRun { prog 0xD700#16 0#16 0#16 0#16 0#16 with
        run := .doubleFault, inputs := [{ pins13 with reset := true }] } = true := by decide

end Sys2Proof.Tests
end

section
/-! PROOFS. What one instruction leaves unchanged, said once for all of them (`exec_effectOrEntry`), and the statements of
spec/10_state.md that follow from it: the registers, the flags, RCN and the latches, and the invariant. -/

namespace Sys2Proof.Machine

/-! ## Frames: what a sequence of updates may have changed -/

/-- `m` differs from `s` at most in pc, the peripherals, free values, the registers of `W`, the bits `F` of RE (all of RE
where `W` has it), the latches (where `W` has RCN) and, where `st`, the stored bytes. -/
structure Frame (W : Phys → Prop) (F : List Nat) (st : Bool) (s m : State) : Prop where
  regs : ∀ p : Phys, p ≠ .re → ¬W p → m.get p = s.get p
  flags : ¬W .re → ∀ n : Nat, n ∉ F → m.re.getLsbD n = s.re.getLsbD n
  control : ¬W .rcn → SameControl s m
  mem : st = false → m.mem = s.mem
  wf : s.mem.wf = true → m.mem.wf = true

section
variable {W : Phys → Prop} {F : List Nat} {st : Bool} {s m t : State}

theorem Frame.of_same (hg : ∀ p : Phys, m.get p = s.get p) (hc : SameControl s m) (hm : m.mem = s.mem) :
    Frame W F st s m where
  regs p _ _ := hg p
  flags _ n _ := congrArg (·.getLsbD n) (hg .re)
  control _ := hc
  mem _ := hm
  wf h := hm ▸ h

theorem Frame.refl (s : State) : Frame W F st s s :=
  .of_same (fun _ => rfl) (by simp [SameControl]) rfl

theorem Frame.trans (h1 : Frame W F st s m) (h2 : Frame W F st m t) : Frame W F st s t where
  regs p hp hw := (h2.regs p hp hw).trans (h1.regs p hp hw)
  flags hw n hn := (h2.flags hw n hn).trans (h1.flags hw n hn)
  control hw := by
    have c1 := h1.control hw
    have c2 := h2.control hw
    simp_all [SameControl]
  mem h := (h2.mem h).trans (h1.mem h)
  wf h := h2.wf (h1.wf h)

theorem frame_pc (s : State) (a : Word) : Frame W F st s { s with pc := a } :=
  .of_same (fun p => by cases p <;> rfl) (by simp [SameControl]) rfl

theorem frame_advance (s : State) : Frame W F st s s.advance := frame_pc s s.eis

theorem frame_withDev (s : State) (d : Device) : Frame W F st s (s.withDev d) :=
  .of_same (by simp) (by simp [SameControl]) rfl

theorem frame_drawBit (s : State) : Frame W F st s s.drawBit.2 :=
  .of_same (by simp) (by simp [SameControl]) rfl

theorem frame_drawWord (s : State) : Frame W F st s s.drawWord.2 :=
  .of_same (by simp) (by simp [SameControl]) rfl

theorem frame_set (s : State) {p : Phys} (v : Word) (h : W p) : Frame W F st s (s.set p v) where
  regs q _ hq := get_set_ne s v fun e => hq (e ▸ h)
  flags hw n _ := by rw [set_re s v fun e => hw (e ▸ h)]
  control _ := by simp [SameControl]
  mem _ := by simp
  wf hs := by simpa using hs

theorem frame_setX (s : State) {d : Reg} (v : Word) (h : W (Reg.phys s.np d)) : Frame W F st s (s.setX d v) :=
  frame_set s v h

/-- The flags a flag assignment lists (R33). -/
def FlagUpdate.listed (u : FlagUpdate) : List Nat :=
  (u.z.toList.map fun _ => bitZ) ++ (u.n.toList.map fun _ => bitN) ++ (u.c.toList.map fun _ => bitC) ++
    (u.v.toList.map fun _ => bitV)

/-- A bit of RE that a flag assignment does not list is kept (R33). -/
theorem apply_getLsbD_unlisted {u : FlagUpdate} {n : Nat} (re : Word) (h : n ∉ u.listed) :
    (u.apply re).getLsbD n = re.getLsbD n := by
  obtain ⟨z, f, c, v⟩ := u
  rw [apply_flagsWritten]
  match n with
  | 0 => cases z <;> simp_all [FlagUpdate.listed, flagBit]
  | 1 => cases f <;> simp_all [FlagUpdate.listed, flagBit]
  | 2 => cases c <;> simp_all [FlagUpdate.listed, flagBit]
  | 3 => cases v <;> simp_all [FlagUpdate.listed, flagBit]
  | n + 4 => rfl

theorem frame_setFlags (s : State) {u : FlagUpdate} (h : F = u.listed) : Frame W F st s (s.setFlags u) where
  regs p hp _ := setFlags_get s u hp
  flags _ n hn := apply_getLsbD_unlisted s.re (h ▸ hn)
  control _ := by simp [SameControl]
  mem _ := by simp
  wf hs := hs

theorem frame_commit (s : State) {d : Reg} (v : Word) {u : FlagUpdate} (hd : W (Reg.phys s.np d)) (hu : F = u.listed) :
    Frame W F st s (s.commit d v u) := by
  unfold State.commit
  split
  · next h => subst h; exact frame_set (p := .re) s v hd
  · exact (frame_setX s v hd).trans (frame_setFlags _ hu)

theorem frame_putWord (s : State) (a v : Word) (h : st = true) : Frame W F st s (s.putWord a v) where
  regs p _ _ := putWord_get s a v p
  flags _ n _ := by simp
  control _ := by simp [SameControl]
  mem h' := by rw [h] at h'; cases h'
  wf := putWord_wf s a v

theorem frame_memWriteByte (s : State) (a : Word) (v : Byte) (h : st = true) :
    Frame W F st s (s.memWriteByte a v) where
  regs p _ _ := by simp
  flags _ n _ := by simp
  control _ := by simp [SameControl]
  mem h' := by rw [h] at h'; cases h'
  wf := memWriteByte_wf s a v

theorem frame_writeRcn (s : State) (v : Word) (h : W .rcn) : Frame W F st s (s.writeRcn v) where
  regs p _ hp := by
    cases p
    case rcn => exact absurd h hp
    all_goals rfl
  flags _ n _ := rfl
  control hw := absurd h hw
  mem _ := rfl
  wf hs := hs

end

/-! ## What an instruction may write -/

/-- Only number 12 denotes two registers (R24). -/
theorem phys_inj {np np' : Bool} {d d' : Reg} : Reg.phys np d = Reg.phys np' d' ↔ d = d' ∧ (d = .sp → np = np') := by
  cases d <;> cases d' <;> cases np <;> cases np' <;> simp [Reg.phys]

@[simp] theorem phys_eq_rl (np : Bool) (d : Reg) : Reg.phys np d = .rl ↔ d = .rl := by
  cases d <;> cases np <;> simp [Reg.phys]

@[simp] theorem phys_eq_temp (np : Bool) (d : Reg) : Reg.phys np d = .temp ↔ d = .temp := by
  cases d <;> cases np <;> simp [Reg.phys]

@[simp] theorem phys_eq_usp (np : Bool) (d : Reg) : Reg.phys np d = .usp ↔ d = .sp ∧ np = true := by
  cases d <;> cases np <;> simp [Reg.phys]

@[simp] theorem phys_ne_rcn (np : Bool) (d : Reg) : Reg.phys np d ≠ .rcn := by
  cases d <;> cases np <;> simp [Reg.phys]

/-- The registers an instruction writes at level `np` without naming them as its destination or second register. -/
def implicitWrites (np : Bool) : Instr → List Phys
  | .callf _ | .crf _ => [.rl]
  | .swapr _ _ | .swapm _ _ => [.temp]
  | .push _ | .pop _ | .call _ | .cr _ | .ret => [Reg.phys np .sp]
  | .rfe => [.temp, .re, Reg.phys np .sp]
  | .movur _ => [.usp]
  | .movar _ _ => [.rcn]
  | _ => []

/-- The physical registers an instruction may write, besides its flags: at the level of `s`, or at either level where its
destination is RE. -/
def mayWrite (i : Instr) (s : State) (p : Phys) : Prop :=
  ∃ np : Bool, (np = s.np ∨ destination i = some .re) ∧
    ((∃ d : Reg, (destination i = some d ∨ secondRegister i = some d) ∧ p = Reg.phys np d) ∨ p ∈ implicitWrites np i)

/-- `m` differs from `s` at most in what instruction `i` may change by itself. -/
abbrev Effect (i : Instr) (s m : State) : Prop := Frame (mayWrite i s) (listedFlags i) (stores i) s m

section
variable {i : Instr} {s m t : State} {d r : Reg} {np : Bool} {p : Phys}

theorem mayWrite_destination (h : destination i = some d) (hn : np = s.np) : mayWrite i s (Reg.phys np d) :=
  ⟨np, .inl hn, .inl ⟨d, .inl h, rfl⟩⟩

/-- The second register is written after the destination, at the level that then holds. -/
theorem mayWrite_second (hd : destination i = some d) (hr : secondRegister i = some r) (hn : d ≠ .re → np = s.np) :
    mayWrite i s (Reg.phys np r) := by
  refine ⟨np, ?_, .inl ⟨r, .inr hr, rfl⟩⟩
  by_cases h : d = .re
  · exact .inr (h ▸ hd)
  · exact .inl (hn h)

theorem mayWrite_implicit (h : p ∈ implicitWrites s.np i) : mayWrite i s p := ⟨s.np, .inl rfl, .inr h⟩

/-- The registers of `implicitWrites`, by instruction. -/
theorem implicitWrites_cases (h : p ∈ implicitWrites np i) :
    (p = .rl ∧ ((∃ dif, i = .callf dif) ∨ ∃ r, i = .crf r)) ∨
      (p = .temp ∧ ((∃ d r, i = .swapr d r) ∨ (∃ d r, i = .swapm d r) ∨ i = .rfe)) ∨
      (p = Reg.phys np .sp ∧ writesSp i) ∨ (p = .re ∧ i = .rfe) ∨ (p = .usp ∧ ∃ r, i = .movur r) ∨
      (p = .rcn ∧ ∃ a r, i = .movar a r) := by
  cases i
  case rfe =>
    simp only [implicitWrites, List.mem_cons, List.not_mem_nil, or_false] at h
    rcases h with rfl | rfl | rfl <;> simp [writesSp]
  case callf | crf | swapr | swapm | push | pop | call | cr | ret | movur | movar =>
    simp_all [implicitWrites, writesSp]
  all_goals exact absurd h List.not_mem_nil

/-- An instruction that writes no register implicitly leaves every untouched one alone. -/
theorem not_mayWrite_of_untouched (hi : ∀ np : Bool, implicitWrites np i = []) (h : untouched i p) :
    ¬mayWrite i s p := by
  rintro ⟨np, -, ⟨d, hd, rfl⟩ | hp⟩
  · exact h.2 np d hd rfl
  · simp [hi] at hp

end

/-! ## How an instruction ends: its effect, or the entry of an exception -/

theorem np_congr {s m : State} (h : m.re = s.re) : m.np = s.np := by unfold State.np; rw [h]

/-- The protection level is unchanged by a result committed to any register but RE. -/
theorem commit_np (s : State) {d : Reg} (v : Word) (u : FlagUpdate) (h : d ≠ .re) : (s.commit d v u).np = s.np := by
  rw [State.commit, if_neg h, setFlags_np, setX_np s v h]

section
variable {i : Instr} {s m t : State} {d r : Reg}

theorem EffectOrEntry.mono {P Q : State → Prop} (h : EffectOrEntry P i s t) (hPQ : ∀ m, P m → Q m) :
    EffectOrEntry Q i s t := by
  rcases h with h | ⟨e, m, he, hm, hrest⟩
  · exact .inl (hPQ t h)
  · exact .inr ⟨e, m, he, hPQ m hm, hrest⟩

/-- An exception raised before anything is written. -/
theorem entry_from_start {e : Exc} (he : e ∈ [Exc.excesso, Exc.div0, Exc.dDesalinhado])
    (h : takeException e s = .next t) : EffectOrEntry (Effect i s) i s t :=
  .inr ⟨e, s, he, .refl s, rfl, fun _ _ => rfl, fun _ => rfl, by simp [SameHost, SameControl], h⟩

theorem ends_with_effect (he : Effect i s m) (h : (.next m : Result) = .next t) :
    EffectOrEntry (Effect i s) i s t := by
  cases h
  exact .inl he

/-- An instruction that loads a word: D_DESALINHADO before it has written anything, or what follows the load. -/
theorem loadWord_ends {a : Word} {k : Word → State → Result}
    (hk : ∀ v d, isOdd a = false → k v (s.withDev d) = .next t → EffectOrEntry (Effect i s) i s t)
    (h : loadWord s a k = .next t) : EffectOrEntry (Effect i s) i s t := by
  rcases loadWord_next h with ⟨v, d, hv, h⟩ | ⟨-, h⟩
  · exact hk v d (isOdd_of_value hv) h
  · exact entry_from_start (by simp) h

/-- An instruction that stores a word first: D_DESALINHADO before it has written anything, or what follows the store. -/
theorem storeWord_ends {a v : Word} {k : State → Result}
    (hk : k (s.putWord a v) = .next t → EffectOrEntry (Effect i s) i s t) (h : storeWord s a v k = .next t) :
    EffectOrEntry (Effect i s) i s t := by
  rcases storeWord_next h with ⟨-, h⟩ | ⟨-, h⟩
  · exact hk h
  · exact entry_from_start (by simp) h

/-- An instruction that computes V, from the state `m` with its results written: the next instruction, or EXCESSO. -/
theorem endArith_ends {v tv : Bool} (hi : ∀ np : Bool, implicitWrites np i = []) (hs : stores i = false)
    (he : Effect i s m) (hpc : m.pc = s.pc) (hdev : m.dev = s.dev) (h : endArith v tv m = .next t) :
    EffectOrEntry (Effect i s) i s t := by
  rcases endArith_next h with ⟨-, rfl⟩ | ⟨-, h⟩
  · exact .inl (he.trans (frame_advance m))
  · have hrcn : ¬mayWrite i s .rcn :=
      not_mayWrite_of_untouched hi ⟨by simp, fun np d _ => (phys_ne_rcn np d).symm⟩
    refine .inr ⟨.excesso, m, by simp, he, hpc, fun p hp => ?_, fun a => ?_, ⟨he.control hrcn, hdev⟩, h⟩
    · exact he.regs p hp.1 (not_mayWrite_of_untouched hi hp)
    · rw [State.readByte, he.mem hs, State.readByte]

/-! ## Each shape of instruction -/

theorem arithWrite_ends {a : AluResult} (hd : destination i = some d) (hf : listedFlags i = a.flags.listed)
    (hi : ∀ np : Bool, implicitWrites np i = []) (hs : stores i = false) (h : arithWrite d a s = .next t) :
    EffectOrEntry (Effect i s) i s t :=
  endArith_ends hi hs (frame_commit s _ (mayWrite_destination hd rfl) hf) (by simp) (by simp) h

theorem arithCompare_ends {a : AluResult} (hf : listedFlags i = a.flags.listed)
    (hi : ∀ np : Bool, implicitWrites np i = []) (hs : stores i = false) (h : arithCompare a s = .next t) :
    EffectOrEntry (Effect i s) i s t :=
  endArith_ends hi hs (frame_setFlags s hf) (by simp) (by simp) h

theorem execMul_ends (h : execMul d r s = .next t) : EffectOrEntry (Effect (.mul d r) s) (.mul d r) s t := by
  refine endArith_ends (fun _ => rfl) rfl ?_ (by simp) (by simp) h
  refine ((frame_drawBit s).trans (frame_commit _ _ ?_ ?_)).trans ((frame_drawWord _).trans (frame_setX _ _ ?_))
  · exact mayWrite_destination rfl rfl
  · rfl
  · exact mayWrite_second (d := d) rfl rfl fun hd =>
      (np_congr (drawWord_re _)).trans (commit_np s.drawBit.2 _ _ hd)

/-- A division by zero that does not trap: four free values, then the result and flags they make (R153). -/
theorem divideByZero_untrapped (d : Reg) (h : s.td = false) :
    divideByZero d s = endArith true s.tv (s.drawWord.2.drawBit.2.drawBit.2.drawBit.2.commit d s.drawWord.1
      { z := some s.drawWord.2.drawBit.1, n := some s.drawWord.2.drawBit.2.drawBit.1,
        c := some s.drawWord.2.drawBit.2.drawBit.2.drawBit.1, v := some true }) := by
  rw [divideByZero, h]
  rfl

theorem divideByZero_ends (hd : destination i = some d) (hf : listedFlags i = [bitZ, bitN, bitC, bitV])
    (hi : ∀ np : Bool, implicitWrites np i = []) (hs : stores i = false) (h : divideByZero d s = .next t) :
    EffectOrEntry (Effect i s) i s t := by
  cases htd : s.td
  · rw [divideByZero_untrapped d htd] at h
    have hdraws : Effect i s s.drawWord.2.drawBit.2.drawBit.2.drawBit.2 :=
      ((frame_drawWord s).trans (frame_drawBit _)).trans ((frame_drawBit _).trans (frame_drawBit _))
    have hn : s.drawWord.2.drawBit.2.drawBit.2.drawBit.2.np = s.np := np_congr (by simp)
    exact endArith_ends hi hs (hdraws.trans (frame_commit _ _ (mayWrite_destination hd hn) (hf.trans rfl)))
      (by simp) (by simp) h
  · rw [divideByZero, if_pos htd] at h
    exact entry_from_start (by simp) h

theorem divideWrite_ends {w : Word} (hd : destination i = some d) (hf : listedFlags i = [bitZ, bitN, bitC, bitV])
    (h : divideWrite d w s = .next t) : EffectOrEntry (Effect i s) i s t :=
  ends_with_effect (((frame_drawBit s).trans (frame_commit _ _ (mayWrite_destination hd rfl) hf)).trans
    (frame_advance _)) h

theorem execDiv_ends (h : execDiv d r s = .next t) : EffectOrEntry (Effect (.div d r) s) (.div d r) s t := by
  unfold execDiv at h
  split at h
  · exact divideByZero_ends rfl rfl (fun _ => rfl) rfl h
  · exact divideWrite_ends rfl rfl h

theorem execMod_ends (h : execMod d r s = .next t) : EffectOrEntry (Effect (.mod d r) s) (.mod d r) s t := by
  unfold execMod at h
  split at h
  · exact divideByZero_ends rfl rfl (fun _ => rfl) rfl h
  · exact divideWrite_ends rfl rfl h

theorem execShla_ends {n : Fin 16} (h : execShla d n s = .next t) :
    EffectOrEntry (Effect (.shla d n) s) (.shla d n) s t :=
  endArith_ends (fun _ => rfl) rfl (frame_commit s _ (mayWrite_destination rfl rfl) rfl) (by simp) (by simp) h

theorem logicWrite_ends {w : Word} (hd : destination i = some d) (hf : listedFlags i = [bitZ, bitN])
    (h : logicWrite d w s = .next t) : EffectOrEntry (Effect i s) i s t :=
  ends_with_effect ((frame_commit s _ (mayWrite_destination hd rfl) hf).trans (frame_advance _)) h

theorem shiftWrite_ends {x : ShiftResult} (hd : destination i = some d) (hf : listedFlags i = [bitZ, bitN, bitC])
    (h : shiftWrite d x s = .next t) : EffectOrEntry (Effect i s) i s t :=
  ends_with_effect ((frame_commit s _ (mayWrite_destination hd rfl) hf).trans (frame_advance _)) h

/-- TEST and BIT. -/
theorem flagsOnly_ends {u : FlagUpdate} (hf : listedFlags i = u.listed)
    (h : (.next (s.setFlags u).advance : Result) = .next t) : EffectOrEntry (Effect i s) i s t :=
  ends_with_effect ((frame_setFlags s hf).trans (frame_advance _)) h

/-- A transfer to the destination, from a state that differs from `s` in peripherals and free values alone. -/
theorem moveTo_ends {v : Word} (hd : destination i = some d) (hm : Effect i s m) (hn : m.np = s.np)
    (h : moveTo d v m = .next t) : EffectOrEntry (Effect i s) i s t :=
  ends_with_effect (hm.trans ((frame_setX m v (mayWrite_destination hd hn)).trans (frame_advance _))) h

theorem loadTo_ends {ea : Word} (hd : destination i = some d) (h : loadTo d ea s = .next t) :
    EffectOrEntry (Effect i s) i s t :=
  loadWord_ends (fun _ p _ h => moveTo_ends hd (frame_withDev s p) rfl h) h

/-- LDB and LDBS. -/
theorem loadByte_moveTo_ends {a : Word} {ext : Byte → Word} (hd : destination i = some d)
    (h : (loadByte s a fun b u => moveTo d (ext b) u) = .next t) : EffectOrEntry (Effect i s) i s t := by
  obtain ⟨b, p, -, h⟩ := loadByte_next h
  exact moveTo_ends hd (frame_withDev s p) rfl h

theorem storeAt_ends {ea v : Word} (hs : stores i = true) (h : storeAt ea v s = .next t) :
    EffectOrEntry (Effect i s) i s t := by
  unfold storeAt at h
  exact storeWord_ends (fun h => ends_with_effect ((frame_putWord s ea v hs).trans (frame_advance _)) h) h

theorem execStb_ends (h : execStb d r s = .next t) : EffectOrEntry (Effect (.stb d r) s) (.stb d r) s t := by
  obtain ⟨-, h⟩ := storeByte_next h
  exact ends_with_effect ((frame_memWriteByte s _ _ rfl).trans (frame_advance _)) h

theorem execMovar_ends {a : Fin 16} (h : execMovar a r s = .next t) :
    EffectOrEntry (Effect (.movar a r) s) (.movar a r) s t := by
  unfold execMovar at h
  split at h
  · refine ends_with_effect ((frame_writeRcn s _ ?_).trans (frame_advance _)) h
    exact mayWrite_implicit (by simp [implicitWrites])
  · exact ends_with_effect (frame_advance s) h

theorem execMovra_ends {a : Fin 16} (h : execMovra d a s = .next t) :
    EffectOrEntry (Effect (.movra d a) s) (.movra d a) s t := by
  unfold execMovra at h
  split at h
  · exact moveTo_ends rfl (.refl s) rfl h
  · exact moveTo_ends rfl (frame_drawWord s) rfl h

theorem execMovur_ends (h : execMovur r s = .next t) : EffectOrEntry (Effect (.movur r) s) (.movur r) s t :=
  ends_with_effect ((frame_set s _ (mayWrite_implicit (by simp [implicitWrites]))).trans (frame_advance _)) h

theorem execSwapr_ends (h : execSwapr d r s = .next t) : EffectOrEntry (Effect (.swapr d r) s) (.swapr d r) s t := by
  refine ends_with_effect (((frame_set (p := .temp) s (s.x d) ?_).trans (frame_setX _ _ ?_)).trans
    ((frame_setX _ _ ?_).trans (frame_advance _))) h
  · exact mayWrite_implicit (by simp [implicitWrites])
  · exact mayWrite_destination rfl rfl
  · exact mayWrite_second (d := d) rfl rfl fun hd => setX_np _ _ hd

theorem execSwapm_ends (h : execSwapm d r s = .next t) : EffectOrEntry (Effect (.swapm d r) s) (.swapm d r) s t := by
  unfold execSwapm at h
  refine loadWord_ends (fun v p hodd h => ?_) h
  rcases storeWord_next h with ⟨-, h⟩ | ⟨hodd', -⟩
  · refine ends_with_effect (((frame_withDev s p).trans (frame_set (p := .temp) _ v ?_)).trans
      ((frame_putWord _ _ _ rfl).trans ((frame_setX _ _ ?_).trans (frame_advance _)))) h
    · exact mayWrite_implicit (by simp [implicitWrites])
    · exact mayWrite_destination rfl (np_congr (by simp [State.set]))
  · rw [hodd] at hodd'
    cases hodd'

theorem execPush_ends (h : execPush r s = .next t) : EffectOrEntry (Effect (.push r) s) (.push r) s t := by
  unfold execPush at h
  refine storeWord_ends (fun h => ends_with_effect ((frame_putWord s _ _ rfl).trans
    ((frame_setX _ _ ?_).trans (frame_advance _))) h) h
  rw [np_congr (putWord_re s _ _)]
  exact mayWrite_implicit (by simp [implicitWrites])

theorem execPop_ends (h : execPop d s = .next t) : EffectOrEntry (Effect (.pop d) s) (.pop d) s t := by
  refine loadWord_ends (fun v p _ h => ends_with_effect ((frame_withDev s p).trans ((frame_setX _ v ?_).trans
    ((frame_setX _ _ ?_).trans (frame_advance _)))) h) h
  · exact mayWrite_destination rfl rfl
  · refine ⟨_, ?_, .inr (List.mem_singleton.mpr rfl)⟩
    by_cases hd : d = .re
    · exact .inr (hd ▸ rfl)
    · exact .inl (setX_np _ _ hd)

theorem jumpTo_ends {a : Word} (hm : Effect i s m) (h : jumpTo a m = .next t) : EffectOrEntry (Effect i s) i s t :=
  ends_with_effect (hm.trans (frame_pc m a)) h

theorem condJump_ends {c : Bool} {dif : Int} (h : condJump c dif s = .next t) :
    EffectOrEntry (Effect i s) i s t := by
  unfold condJump at h
  split at h
  · exact jumpTo_ends (.refl s) h
  · exact ends_with_effect (frame_advance s) h

theorem callTo_ends {a : Word} (hs : stores i = true) (hi : Reg.phys s.np .sp ∈ implicitWrites s.np i)
    (h : callTo a s = .next t) : EffectOrEntry (Effect i s) i s t := by
  unfold callTo at h
  refine storeWord_ends (fun h => jumpTo_ends ((frame_putWord s _ _ hs).trans (frame_setX _ _ ?_)) h) h
  rw [np_congr (putWord_re s _ _)]
  exact mayWrite_implicit hi

theorem setX_rl_jumpTo_ends {a v : Word} (hi : .rl ∈ implicitWrites s.np i)
    (h : jumpTo a (s.setX .rl v) = .next t) : EffectOrEntry (Effect i s) i s t :=
  jumpTo_ends (frame_set s v (mayWrite_implicit hi)) h

theorem execRet_ends (h : execRet s = .next t) : EffectOrEntry (Effect .ret s) .ret s t :=
  loadWord_ends (fun _ p _ h => jumpTo_ends ((frame_withDev s p).trans
    (frame_setX _ _ (mayWrite_implicit (List.mem_singleton.mpr rfl)))) h) h

theorem execRfe_ends (h : execRfe s = .next t) : EffectOrEntry (Effect .rfe s) .rfe s t := by
  rcases returnFromException_next h with ⟨w1, w2, _, e, -, -, rfl⟩ | ⟨-, h⟩
  · have himp : ∀ p ∈ [Phys.temp, .re, Reg.phys s.np .sp], mayWrite .rfe s p := fun p hp => mayWrite_implicit hp
    exact .inl (((frame_withDev s e).trans ((frame_set (p := .temp) _ w1 (himp _ (by simp))).trans
      ((frame_pc _ w2).trans (frame_setX _ _ (himp _ (by simp [State.np, State.set])))))).trans
        (frame_set (p := .re) _ _ (himp _ (by simp))))
  · exact entry_from_start (by simp) h

/-- Everything an instruction other than SWE can do when it answers a state: its own effect, or the entry of EXCESSO, DIV0
or D_DESALINHADO from a state with no more than that effect. -/
theorem exec_effectOrEntry (h : exec i s = .next t) (hswe : ∀ k : Byte, i ≠ .swe k) :
    EffectOrEntry (Effect i s) i s t := by
  cases i
  case add | addi | addc | sub | subi | subb | neg => exact arithWrite_ends rfl rfl (fun _ => rfl) rfl h
  case cmp | cmpi => exact arithCompare_ends rfl (fun _ => rfl) rfl h
  case mul => exact execMul_ends h
  case div => exact execDiv_ends h
  case mod => exact execMod_ends h
  case shla => exact execShla_ends h
  case and | or | not | xor | setbit | clrbit | cplbit => exact logicWrite_ends rfl rfl h
  case test | bit => exact flagsOnly_ends rfl h
  case shra | shr | shl | ror | rol | rorc | rolc => exact shiftWrite_ends rfl rfl h
  case ldo | ldr | ldp => exact loadTo_ends rfl h
  case ldb | ldbs => exact loadByte_moveTo_ends rfl h
  case sto | str | stp => exact storeAt_ends rfl h
  case stb => exact execStb_ends h
  case movl | movh | movrr | movru => exact moveTo_ends rfl (.refl s) rfl h
  case movar => exact execMovar_ends h
  case movra => exact execMovra_ends h
  case movur => exact execMovur_ends h
  case swapr => exact execSwapr_ends h
  case swapm => exact execSwapm_ends h
  case push => exact execPush_ends h
  case pop => exact execPop_ends h
  case jz | jnz | jn | jnn | jp | jnp | jc | jnc | jv | jnv | jlt | jle | jgt | jge | ja | jbe => exact condJump_ends h
  case jmp | jmpr | retf => exact jumpTo_ends (.refl s) h
  case call | cr => exact callTo_ends rfl (List.mem_singleton.mpr rfl) h
  case callf | crf => exact setX_rl_jumpTo_ends (List.mem_singleton.mpr rfl) h
  case ret => exact execRet_ends h
  case swe k => exact absurd rfl (hswe k)
  case rfe => exact execRfe_ends h
  case nop => exact ends_with_effect (frame_advance s) h

/-- SWE is an entry with its own index (R267). -/
theorem exec_swe (k : Byte) (s : State) : exec (.swe k) s = enter k s.eis s := rfl

/-! ## What holds of every instruction, whatever exception it enters -/

/-- An instruction answers a state either by its own effect or by an entry from a state with no more than that effect. -/
theorem exec_next (h : exec i s = .next t) :
    Effect i s t ∨ ∃ (m : State) (k : Byte) (ret : Word), Effect i s m ∧ enter k ret m = .next t := by
  by_cases hswe : ∃ k, i = .swe k
  · obtain ⟨k, rfl⟩ := hswe
    exact .inr ⟨s, k, s.eis, .refl s, (exec_swe k s).symm.trans h⟩
  · rcases exec_effectOrEntry h fun k hk => hswe ⟨k, hk⟩ with he | ⟨e, m, -, he, -, -, -, -, ht⟩
    · exact .inl he
    · exact .inr ⟨m, e.index, returnAddress e m, he, ht⟩

/-- The two stores of an entry change no register but TEMP and RE (R310). -/
theorem entryFrame_get (ret : Word) (s : State) {p : Phys} (hp : p ∉ [Phys.temp, .re, .ssp]) :
    (entryFrame ret s).get p = s.get p := by
  rw [entryFrame, putWord_get, putWord_get]
  cases p <;> simp_all [entryStart, State.get]

/-- The last updates of an entry change SSP and no other register (R310). -/
theorem entered_get (s : State) (a v : Word) (d : Device) {p : Phys} (hp : p ≠ .ssp) :
    ({ s with pc := a, dev := d, ssp := v } : State).get p = s.get p := by
  cases p
  case ssp => exact absurd rfl hp
  all_goals rfl

/-- An entry changes no register but TEMP, RE and SSP (R312). -/
theorem enter_get {k : Byte} {ret : Word} {p : Phys} (hp : p ∉ [Phys.temp, .re, .ssp]) (h : enter k ret s = .next t) :
    t.get p = s.get p := by
  have hssp : p ≠ .ssp := fun e => hp (by simp [e])
  rcases enter_next h with ⟨-, rfl⟩ | ⟨-, -, rfl⟩ | ⟨-, -, v, d, -, rfl⟩
  · rw [stuck_get]
    cases p <;> simp_all [entryStart, State.get]
  · rw [stuck_get, entryFrame_get ret s hp]
  · rw [entered_get _ _ _ _ hssp, entryFrame_get ret s hp]

/-- A register that neither the instruction writes nor an entry does is kept. -/
theorem exec_get {p : Phys} (h : exec i s = .next t) (hp : p ∉ [Phys.temp, .re, .ssp]) (hw : ¬mayWrite i s p) :
    t.get p = s.get p := by
  have hre : p ≠ .re := fun e => hp (by simp [e])
  rcases exec_next h with he | ⟨m, k, ret, he, ht⟩
  · exact he.regs p hre hw
  · rw [enter_get hp ht, he.regs p hre hw]

/-- Every instruction keeps the canonical form of memory. -/
theorem exec_wf (h : exec i s = .next t) (hs : s.mem.wf = true) : t.mem.wf = true := by
  rcases exec_next h with he | ⟨m, k, ret, he, ht⟩
  · exact he.wf hs
  · exact enter_wf (he.wf hs) ht

end

/-! ## Which registers an instruction may write, by number -/

section
variable {i : Instr} {s t : State} {np : Bool} {d : Reg}

/-- An instruction that may write a register other than a stack pointer names it, or is listed for it. -/
theorem mayWrite_named (hd : d ≠ .sp) (h : mayWrite i s (Reg.phys np d)) :
    destination i = some d ∨ secondRegister i = some d ∨
      (d = .rl ∧ ((∃ dif, i = .callf dif) ∨ ∃ r, i = .crf r)) ∨
      (d = .temp ∧ ((∃ d r, i = .swapr d r) ∨ (∃ d r, i = .swapm d r) ∨ i = .rfe)) ∨ (d = .re ∧ i = .rfe) := by
  obtain ⟨np', -, ⟨d', h, hp⟩ | hp⟩ := h
  · obtain ⟨rfl, -⟩ := phys_inj.mp hp
    exact h.imp_right .inl
  · have himp := implicitWrites_cases hp
    simp_all [phys_inj]

/-- An instruction that may write the stack pointer of level `np` is MOVUR, or is one that writes SP, and then `np` is the
present level unless RE is written first. -/
theorem mayWrite_sp (h : mayWrite i s (Reg.phys np .sp)) :
    (np = true ∧ ∃ r, i = .movur r) ∨ (writesSp i ∧ (np = s.np ∨ destination i = some .re)) := by
  obtain ⟨np', hnp, ⟨d', h, hp⟩ | hp⟩ := h
  · obtain ⟨rfl, hlevel⟩ := phys_inj.mp hp
    exact .inr ⟨h.elim .inl fun h => .inr (.inl h), hlevel rfl ▸ hnp⟩
  · rcases implicitWrites_cases hp with ⟨he, -⟩ | ⟨he, -⟩ | ⟨he, hsp⟩ | ⟨he, -⟩ | ⟨he, hr⟩ | ⟨he, -⟩
    · simp at he
    · simp at he
    · exact .inr ⟨hsp, (phys_inj.mp he).2 rfl ▸ hnp⟩
    · simp at he
    · exact .inl ⟨((phys_eq_usp ..).mp he).2, hr⟩
    · simp at he

theorem not_mayWrite_rcn (h : ∀ (a : Fin 16) (r : Reg), i ≠ .movar a r) : ¬mayWrite i s .rcn := by
  rintro ⟨np, -, ⟨d, -, hp⟩ | hp⟩
  · exact phys_ne_rcn np d hp.symm
  · have himp := implicitWrites_cases hp
    simp_all [(phys_ne_rcn np .sp).symm]

/-- The stack pointer of a level is out of reach of an instruction that writes no SP, or that runs at the other level and
does not write RE. -/
theorem not_mayWrite_sp (hm : np = true → ∀ r : Reg, i ≠ .movur r)
    (h : ¬writesSp i ∨ (s.np = !np ∧ destination i ≠ some .re)) : ¬mayWrite i s (Reg.phys np .sp) := by
  intro hw
  rcases mayWrite_sp hw with ⟨hn, r, hr⟩ | ⟨hsp, hlevel⟩
  · exact hm hn r hr
  · rcases h with h | ⟨hn, hre⟩
    · exact h hsp
    · rcases hlevel with hlevel | hlevel
      · rw [hn] at hlevel
        cases np <;> cases hlevel
      · exact hre hlevel

/-- Every instruction but MOVAR keeps RCN, the latches and the pins (R42, R45). -/
theorem exec_pins (h : exec i s = .next t) (hi : ∀ (a : Fin 16) (r : Reg), i ≠ .movar a r) :
    t.rcn = s.rcn ∧ t.ip = s.ip ∧ t.restart = s.restart ∧ t.intPins = s.intPins ∧ t.inta = s.inta ∧ t.bgt = s.bgt ∧
      t.inputs = s.inputs ∧ t.map = s.map := by
  have hw : ¬mayWrite i s .rcn := not_mayWrite_rcn hi
  have hrcn : t.rcn = s.rcn := exec_get (p := .rcn) h (by simp) hw
  rcases exec_next h with he | ⟨m, k, ret, he, ht⟩
  · obtain ⟨h1, h2, h3, h4, h5, -, h6, h7⟩ := he.control hw
    exact ⟨hrcn, h1, h3, h2, h4, h5, h6, h7⟩
  · obtain ⟨h1, h2, h3, h4, h5, -, h6, h7⟩ := he.control hw
    obtain ⟨-, e1, e2, e3, e4, e5, e6, e7, -⟩ := enter_pins ht
    exact ⟨hrcn, e1.trans h1, e3.trans h3, e2.trans h2, e4.trans h4, e5.trans h5, e6.trans h6, e7.trans h7⟩

/-! ## The invariant, step by step -/

theorem inv_iff (s : State) : s.inv = true ↔ s.mem.wf = true ∧ latchesFit s = true := by
  simp [State.inv]

theorem exec_latchesFit (h : exec i s = .next t) (hs : latchesFit s = true) : latchesFit t = true := by
  by_cases hi : ∃ a r, i = .movar a r
  · obtain ⟨a, r, rfl⟩ := hi
    change execMovar a r s = .next t at h
    unfold execMovar at h
    split at h
    · cases h; exact writeRcn_latchesFit _ hs
    · cases h; exact hs
  · obtain ⟨hrcn, hip, -⟩ := exec_pins h fun a r e => hi ⟨a, r, e⟩
    rw [latchesFit_congr hrcn hip, hs]

theorem exec_inv (h : exec i s = .next t) (hs : s.inv = true) : t.inv = true := by
  rw [inv_iff] at hs ⊢
  exact ⟨exec_wf h hs.1, exec_latchesFit h hs.2⟩

theorem enter_inv {k : Byte} {ret : Word} (h : enter k ret s = .next t) (hs : s.inv = true) : t.inv = true := by
  obtain ⟨hrcn, hip, -⟩ := enter_pins h
  rw [inv_iff] at hs ⊢
  exact ⟨enter_wf hs.1 h, by rw [latchesFit_congr hrcn hip, hs.2]⟩

/-- Accepting an interrupt only clears a latch before the entry (R316 (2)). -/
theorem acceptInterrupt_inv {j : Fin 4} (h : acceptInterrupt j s = .next t) (hs : s.inv = true) : t.inv = true := by
  rw [inv_iff] at hs
  exact enter_inv h ((inv_iff _).mpr ⟨hs.1, clearLatch_latchesFit j hs.2⟩)

/-- A boundary keeps the canonical form and leaves latches only on edge sensitive pins, whatever the DMA master and the
pins do. -/
theorem atBoundary_inv (hs : s.inv = true) : s.atBoundary.inv = true := by
  rw [inv_iff] at hs ⊢
  exact ⟨atBoundary_wf hs.1, atBoundary_latchesFit s⟩

theorem resetOperation_inv (l : Lines) (hs : s.inv = true) : (s.resetOperation l).inv = true := by
  rw [inv_iff] at hs ⊢
  exact ⟨hs.1, rfl⟩

theorem step_inv (h : step s = .next t) (hs : s.inv = true) : t.inv = true := by
  rcases step_next h with ⟨-, rfl⟩ | ⟨j, -, h⟩ | ⟨i, d, -, h⟩ | ⟨e, d, -, h⟩
  · exact resetOperation_inv (s := s.openBoundary) _ hs
  · exact acceptInterrupt_inv h (atBoundary_inv hs)
  · exact exec_inv h (atBoundary_inv hs)
  · exact enter_inv h (atBoundary_inv hs)

end

/-! ## The statements of spec/10_state.md -/

/-- Settles O12: after reset memory lists no byte and no latch is set. -/
theorem resetMeetsTheInvariant : Obligations.ResetMeetsTheInvariant :=
  (inv_iff _).mpr ⟨rfl, rfl⟩

/-- Settles O13: a step is a reset, an interrupt's entry, an instruction or an exception of the fetch, and each keeps the
invariant. -/
theorem everyStepKeepsTheInvariant : Obligations.EveryStepKeepsTheInvariant :=
  fun _ _ hs h => step_inv h hs

/-- Settles O14, by evaluating the reset state; its empty memory lists no byte at any address. -/
theorem resetClearsStatusAndConfiguration : Obligations.ResetClearsStatusAndConfiguration :=
  ⟨rfl, rfl, rfl, rfl, rfl, fun _ => rfl⟩

/-- Settles O24, by the four codes of the pin's NSI field. -/
theorem latchesFollowTheSelectedEdge : Obligations.LatchesFollowTheSelectedEdge := by
  rintro s new i _ _ rfl rfl
  refine ⟨rfl, rfl, ?_, ?_⟩
  · rw [samplePins_ip_get, sensitivity_eq]
    cases s.restart.get i <;> cases s.rcn.getLsbD (2 * i.val + 1) <;> cases s.rcn.getLsbD (2 * i.val) <;>
      simp [latchAfter]
  · rw [State.requests, sensitivity_eq]
    cases s.rcn.getLsbD (2 * i.val + 1) <;> cases s.rcn.getLsbD (2 * i.val) <;> simp

/-- Settles O56: no instruction but MOVAR writes RCN or a latch, and no entry does. -/
theorem onlyMovarChangesRcnAndLatches : Obligations.OnlyMovarChangesRcnAndLatches :=
  fun _ _ _ h hi => exec_pins h hi

/-- Settles O57: `mayWrite` holds the registers an instruction writes by itself; an entry adds TEMP, RE and SSP. -/
theorem registersChangeOnlyWhenNamed : Obligations.RegistersChangeOnlyWhenNamed := by
  intro i s t h
  refine ⟨fun n hd hr => ?gpr, fun hd hr => ?bte, fun hd hr hcallf hcrf => ?rl,
    fun hd hr hswapr hswapm hswe hrfe => ?temp, fun hmovur hsp => ?usp, fun hswe hsp => ?ssp⟩
  case gpr =>
    refine exec_get h (by simp) fun hw => ?_
    have hnamed := mayWrite_named (np := s.np) (d := .r n) (by simp) hw
    simp_all
  case bte =>
    refine exec_get (p := .bte) h (by simp) fun hw => ?_
    have hnamed := mayWrite_named (np := s.np) (d := .bte) (by simp) hw
    simp_all
  case rl =>
    refine exec_get (p := .rl) h (by simp) fun hw => ?_
    have hnamed := mayWrite_named (np := s.np) (d := .rl) (by simp) hw
    simp_all
  case temp =>
    refine (exec_effectOrEntry h hswe).mono fun m he => he.regs .temp (by simp) fun hw => ?_
    have hnamed := mayWrite_named (np := s.np) (d := .temp) (by simp) hw
    simp_all
  case usp =>
    exact exec_get (p := .usp) h (by simp) (not_mayWrite_sp (np := true) (fun _ => hmovur) hsp)
  case ssp =>
    exact (exec_effectOrEntry h hswe).mono fun m he =>
      he.regs .ssp (by simp) (not_mayWrite_sp (np := false) (by simp) hsp)

/-- Settles O58: outside RE as a whole, an instruction's own effect on RE is its flag assignments. -/
theorem onlyListedFlagsChange : Obligations.OnlyListedFlagsChange := by
  intro i s t h hd hr hswe hrfe
  refine (exec_effectOrEntry h hswe).mono fun m he => he.flags fun hw => ?_
  have hnamed := mayWrite_named (np := s.np) (d := .re) (by simp) hw
  simp_all

end Sys2Proof.Machine
end

section
/-! PROOFS. Data accesses by what stands at each of their bytes, the DMA master's writes, the entry that goes through, the
step of a fetched word, and the statements of spec/20_memory.md that follow from them. -/

namespace Sys2Proof.Machine

/-! ## What a byte read takes from the host and from an empty range -/

theorem answer_of_cons {d : Device} {b : Byte} {l : List Byte} (h : d.answers = b :: l) :
    d.answer = (b, { d with answers := l }) := by
  simp [Device.answer, h]

theorem answer_of_nil {d : Device} (h : d.answers = []) :
    d.answer = (Config.freeByte d.unanswered, { d with unanswered := d.unanswered + 1 }) := by
  simp [Device.answer, h]

theorem takeByte_fixed {s : State} {a : Word} {b : Byte} (d : Device) (h : s.kindAt a = .empty (some b)) :
    s.takeByte d a = .value b d := by
  simp [State.takeByte, h]

/-! ## Loads, by the bytes taken -/

/-- A data read of the byte at `a` stops with this fault, as no value stands there (log 6, 7). -/
def ByteReadStops (s : State) (a : Word) (f : Fault) : Prop :=
  (Stored s a ∧ s.readByte a = none ∧ f = .unwrittenData) ∨ (s.kindAt a = .empty none ∧ f = .unmapped)

section
variable {s : State} {a : Word}

/-- What a byte load goes on with: the byte taken, a device's access shown to the host (R74, R83). -/
theorem loadByte_of_takeByte {b : Byte} {d : Device} (k : Byte → State → Result)
    (h : s.takeByte s.dev a = .value b d) :
    loadByte s a k = k b (s.withDev (d.note (s.isDevice a) (.readByte a b))) :=
  loadByte_value k (by simp [State.memReadByte, h])

/-- What an aligned word load goes on with: the byte at `a` in bits 15..8, then the one after it (R75, R83). -/
theorem loadWord_of_takeByte {hi lo : Byte} {d e : Device} (k : Word → State → Result) (ho : isOdd a = false)
    (h1 : s.takeByte s.dev a = .value hi d) (h2 : s.takeByte d (a + 1#16) = .value lo e) :
    loadWord s a k = k (hi ++ lo) (s.withDev (e.note (s.isDeviceWord a) (.readWord a (hi ++ lo)))) :=
  loadWord_value k (by simp [State.readWord, ho, h1, h2, wordOfBytes])

/-- A byte read answers what is taken from its address. -/
theorem takeByte_of_memReadByte {b : Byte} {p : Device} (h : s.memReadByte a = .value b p) :
    ∃ d, s.takeByte s.dev a = .value b d := by
  unfold State.memReadByte at h
  split at h
  · next c d hc => cases h; exact ⟨d, hc⟩
  · cases h
  · cases h

theorem loadByte_stops {f : Fault} (k : Byte → State → Result) (h : ByteReadStops s a f) :
    loadByte s a k = .fault f := by
  rcases h with ⟨hs, hn, rfl⟩ | ⟨hk, rfl⟩
  · simp [loadByte, State.memReadByte, takeByte_unwritten _ hs hn]
  · simp [loadByte, State.memReadByte, takeByte_unmapped _ hk]

theorem loadWord_stops_first {f : Fault} (k : Word → State → Result) (ho : isOdd a = false)
    (h : ByteReadStops s a f) : loadWord s a k = .fault f := by
  rcases h with ⟨hs, hn, rfl⟩ | ⟨hk, rfl⟩
  · simp [loadWord, State.readWord, ho, takeByte_unwritten _ hs hn]
  · simp [loadWord, State.readWord, ho, takeByte_unmapped _ hk]

theorem loadWord_stops_second {b : Byte} {p : Device} {f : Fault} (k : Word → State → Result) (ho : isOdd a = false)
    (h1 : s.memReadByte a = .value b p) (h2 : ByteReadStops s (a + 1#16) f) : loadWord s a k = .fault f := by
  obtain ⟨d, h1⟩ := takeByte_of_memReadByte h1
  rcases h2 with ⟨hs, hn, rfl⟩ | ⟨hk, rfl⟩
  · simp [loadWord, State.readWord, ho, h1, takeByte_unwritten _ hs hn]
  · simp [loadWord, State.readWord, ho, h1, takeByte_unmapped _ hk]

/-! ## Loads, by what stands at each byte -/

/-- A byte that concerns no device is loaded without a trace. -/
theorem loadByte_plain {b : Byte} (k : Byte → State → Result) (hd : s.kindAt a ≠ .peripheral)
    (h : s.takeByte s.dev a = .value b s.dev) : loadByte s a k = k b s := by
  rw [loadByte_of_takeByte k h, isDevice_eq, decide_eq_false hd]
  rfl

/-- A word that concerns no device is loaded without a trace. -/
theorem loadWord_plain {hi lo : Byte} (k : Word → State → Result) (ho : isOdd a = false)
    (hd : s.isDeviceWord a = false) (h1 : s.takeByte s.dev a = .value hi s.dev)
    (h2 : s.takeByte s.dev (a + 1#16) = .value lo s.dev) : loadWord s a k = k (hi ++ lo) s := by
  rw [loadWord_of_takeByte k ho h1 h2, hd]
  rfl

theorem loadByte_stored {b : Byte} (k : Byte → State → Result) (hs : Stored s a) (h : s.readByte a = some b) :
    loadByte s a k = k b s :=
  loadByte_plain k (by simpa [isDevice_eq] using hs.not_device) (takeByte_stored _ hs h)

theorem loadWord_stored {hi lo : Byte} (k : Word → State → Result) (ho : isOdd a = false) (s1 : Stored s a)
    (s2 : Stored s (a + 1#16)) (h1 : s.readByte a = some hi) (h2 : s.readByte (a + 1#16) = some lo) :
    loadWord s a k = k (hi ++ lo) s :=
  loadWord_plain k ho (by simp [State.isDeviceWord, s1.not_device, s2.not_device]) (takeByte_stored _ s1 h1)
    (takeByte_stored _ s2 h2)

theorem loadByte_fixed {b : Byte} (k : Byte → State → Result) (h : s.kindAt a = .empty (some b)) :
    loadByte s a k = k b s :=
  loadByte_plain k (by simp [h]) (takeByte_fixed _ h)

theorem loadWord_fixed {hi lo : Byte} (k : Word → State → Result) (ho : isOdd a = false)
    (h1 : s.kindAt a = .empty (some hi)) (h2 : s.kindAt (a + 1#16) = .empty (some lo)) :
    loadWord s a k = k (hi ++ lo) s :=
  loadWord_plain k ho (by simp [State.isDeviceWord, isDevice_eq, h1, h2]) (takeByte_fixed _ h1) (takeByte_fixed _ h2)

/-- A device's byte is the host's next answer (R83). -/
theorem loadByte_device {b : Byte} {d : Device} (k : Byte → State → Result) (h : s.kindAt a = .peripheral)
    (hd : s.dev.answer = (b, d)) :
    loadByte s a k = k b (s.withDev { d with accesses := d.accesses ++ [.readByte a b] }) := by
  have ht : s.takeByte s.dev a = .value b d := by rw [takeByte_device _ h, hd]
  rw [loadByte_of_takeByte k ht, isDevice_eq, decide_eq_true h]
  rfl

/-- A word with a device at either byte is one access shown to the host (R73, R83). -/
theorem loadWord_device {hi lo : Byte} {d e : Device} (k : Word → State → Result) (ho : isOdd a = false)
    (hp : s.kindAt a = .peripheral ∨ s.kindAt (a + 1#16) = .peripheral) (h1 : s.takeByte s.dev a = .value hi d)
    (h2 : s.takeByte d (a + 1#16) = .value lo e) :
    loadWord s a k = k (hi ++ lo) (s.withDev { e with accesses := e.accesses ++ [.readWord a (hi ++ lo)] }) := by
  have hd : s.isDeviceWord a = true := by simpa [State.isDeviceWord, isDevice_eq] using hp
  rw [loadWord_of_takeByte k ho h1 h2, hd]
  rfl

/-- A device takes the host's next answer when one is left. -/
theorem takeByte_answered {d : Device} {b : Byte} {l : List Byte} (h : s.kindAt a = .peripheral)
    (hl : d.answers = b :: l) : s.takeByte d a = .value b { d with answers := l } := by
  rw [takeByte_device d h, answer_of_cons hl]

/-! ## Stores -/

theorem storeByte_stops {f : Fault} (v : Byte) (k : State → Result) (h : ByteWriteStops s a f) :
    storeByte s a v k = .fault f := by
  simp [storeByte, h.writeStop]

theorem storeWord_stops {f : Fault} (v : Word) (k : State → Result) (ho : isOdd a = false)
    (h : WordWriteStops s a f) : storeWord s a v k = .fault f := by
  simp [storeWord, writeWord_stopped v ho h]

/-- A byte write changes no register, not pc, and neither latches, pins, run state, host's actions nor map. -/
theorem memWriteByte_frame (s : State) (a : Word) (v : Byte) :
    SameRegsBut [] s (s.memWriteByte a v) ∧ (s.memWriteByte a v).pc = s.pc ∧ SameControl s (s.memWriteByte a v) :=
  ⟨fun p _ => memWriteByte_get s a v p, memWriteByte_pc s a v, by simp [SameControl]⟩

/-- A word write changes no register, not pc, and neither latches, pins, run state, host's actions nor map. -/
theorem putWord_frame (s : State) (a v : Word) :
    SameRegsBut [] s (s.putWord a v) ∧ (s.putWord a v).pc = s.pc ∧ SameControl s (s.putWord a v) :=
  ⟨fun p _ => putWord_get s a v p, putWord_pc s a v, by simp [SameControl]⟩

/-- Outside read-write storage a byte write stores nothing. -/
theorem memWriteByte_sameMem (v : Byte) (h : s.kindAt a ≠ .ram) : SameMem s (s.memWriteByte a v) := by
  intro c
  rw [readByte_memWriteByte, byteAfterWrite, if_neg h]
  split
  · next hc => rw [hc]
  · rfl

/-- The last byte of the address space is odd, so a word at an even address does not wrap (R75). -/
theorem toNat_add_one_of_even (h : isOdd a = false) : (a + 1#16).toNat = a.toNat + 1 := by
  rw [isOdd_eq, decide_eq_false_iff_not] at h
  have hlt := a.isLt
  rw [BitVec.toNat_add, BitVec.toNat_ofNat]
  omega

end

/-! ## The DMA master -/

/-- One access of the DMA master: a write stores its byte where there is read-write storage (R84). -/
theorem readByte_dmaAccess_write (s : State) (b : Word) (v : Byte) (a : Word) :
    (s.dmaAccess (.write b v)).readByte a =
      if s.kindAt a = .ram then (if a = b then some v else none).or (s.readByte a) else s.readByte a := by
  rw [State.dmaAccess, readByte_putByte, byteAfterWrite]
  by_cases hab : a = b
  · subst hab; simp
  · simp [hab]

/-- The accesses of the DMA master one after the other: the last write to an address stays (R84). -/
theorem readByte_dmaAccesses (l : List DmaAccess) (s : State) (a : Word) :
    (l.foldl State.dmaAccess s).readByte a =
      if s.kindAt a = .ram then (lastDmaWrite l a).or (s.readByte a) else s.readByte a := by
  induction l generalizing s with
  | nil => simp [lastDmaWrite]
  | cons d l ih =>
    rw [List.foldl_cons, ih, dmaAccess_kindAt]
    cases d with
    | read b => rfl
    | write b v =>
      rw [readByte_dmaAccess_write, lastDmaWrite, Option.or_assoc]
      split <;> rfl

/-- Granting the bus stores nothing by itself (R84). -/
theorem readByte_dmaBoundary_foldl (s : State) (brq : Bool) (l : List DmaAccess) (a : Word) :
    (s.dmaBoundary brq l).readByte a =
      if brq && s.de then (l.foldl State.dmaAccess s).readByte a else s.readByte a := by
  unfold State.dmaBoundary
  split <;> rfl

/-- Memory after the bus is served: the master's writes while BRQ is asserted and DE = 1, nothing else (R37, R84). -/
theorem readByte_dmaBoundary (s : State) (brq : Bool) (l : List DmaAccess) (a : Word) :
    (s.dmaBoundary brq l).readByte a =
      if brq = true ∧ s.re.getLsbD 13 = true ∧ s.kindAt a = .ram then (lastDmaWrite l a).or (s.readByte a)
      else s.readByte a := by
  rw [readByte_dmaBoundary_foldl, readByte_dmaAccesses, State.de]
  cases brq <;> cases s.re.getLsbD 13 <;> simp

/-! ## The entry that goes through -/

/-- A ready entry leaves what R310 and R312 say. -/
theorem enter_entered {s : State} {k : Byte} (ret : Word) (h : EntryReady s k) :
    ∃ u, enter k ret s = .next u ∧ Entered k ret s u := by
  obtain ⟨ho, -, h2, h4, v, hv⟩ := h
  obtain ⟨w, hw⟩ := entryFrame_readable ret h2 h4 hv
  obtain ⟨r2, r4⟩ := entryFrame_words ret ho h2 h4
  have hdev := entryFrame_dev ret h2 h4
  have hgo : enter k ret s = .next { entryFrame ret s with pc := w, ssp := s.ssp - 4#16 } := by
    rw [enter_frame ho h2 h4, hw]
  refine ⟨_, hgo, by simp [entryFrame, entryStart], by simp [entryFrame, entryStart], rfl, r2, r4, hw, ?_, ?_, ?_⟩
  · exact fun p hp => enter_get hp hgo
  · exact fun a n4 n3 n2 n1 => entryFrame_others ret h2 h4 n4 n3 n2 n1
  · obtain ⟨-, hip, hpins, hrestart, hinta, hbgt, hinputs, hmap, -⟩ := enter_pins hgo
    exact ⟨⟨hip, hpins, hrestart, hinta, hbgt, by simp [entryFrame, entryStart], hinputs, hmap⟩, hdev⟩

/-! ## The step after a boundary that lets the fetch proceed -/

section
variable {s t u : State}

theorem step_of_fetch_instr {i : Instr} (hb : boundary s = .proceed t) (hf : fetch t = .instr i u) :
    step s = exec i u := by
  simp [step, hb, hf]

theorem step_of_fetch_raised {e : Exc} (hb : boundary s = .proceed t) (hf : fetch t = .raised e u) :
    step s = takeException e u := by
  simp [step, hb, hf]

end

/-! ## The statements of spec/20_memory.md -/

/-- Settles O6, by the bytes that storage holds at the address and after it. -/
theorem readsAreBigEndianAndWordsAligned : Obligations.ReadsAreBigEndianAndWordsAligned :=
  fun _ _ => ⟨fun _ k hs h => loadByte_stored k hs h, fun ho k => loadWord_odd k ho,
    fun ho => ⟨toNat_add_one_of_even ho, fun _ _ k s1 s2 h1 h2 => loadWord_stored k ho s1 s2 h1 h2⟩⟩

/-- Settles O7: the states are those that `memWriteByte` and `putWord` make. -/
theorem writesAreBigEndianAndWordsAligned : Obligations.WritesAreBigEndianAndWordsAligned := by
  intro s a
  refine ⟨fun v hram => ?byte, fun ho v k => storeWord_odd v k ho, fun ho v hram => ?word⟩
  case byte =>
    obtain ⟨hregs, hpc, hcontrol⟩ := memWriteByte_frame s a v
    have hdev : (s.memWriteByte a v).dev = s.dev := by
      rw [memWriteByte_dev, isDevice_eq, hram]; rfl
    refine ⟨s.memWriteByte a v, fun k => storeByte_done v k (.of_ram hram), ?_, fun c hc => ?_, hregs, hpc,
      hcontrol, hdev⟩
    · rw [readByte_memWriteByte, if_pos rfl, byteAfterWrite, if_pos hram]
    · rw [readByte_memWriteByte, if_neg hc]
  case word =>
    obtain ⟨hregs, hpc, hcontrol⟩ := putWord_frame s a v
    obtain ⟨hhigh, hlow, hothers, -⟩ := putWord_storedWord s a v
    rw [byteAfterWrite, if_pos hram.1] at hhigh
    rw [byteAfterWrite, if_pos hram.2] at hlow
    exact ⟨s.putWord a v, fun k => storeWord_done v k (hram.writable ho), hhigh, hlow, hothers,
      wordReadable_putWord v ho hram, hregs, hpc, hcontrol, putWord_dev_ram v hram⟩

/-- Settles O8, by what stands at each byte of the access. -/
theorem accessesFollowTheAddressMap : Obligations.AccessesFollowTheAddressMap := by
  intro s a
  refine ⟨fun v l k hp hl => loadByte_device k hp (answer_of_cons hl),
    fun hp hl => ⟨_, fun k => loadByte_device k hp (answer_of_nil hl)⟩, fun ho hi lo l k h => ?deviceWord,
    fun v k h => loadByte_fixed k h, fun ho hi lo k h1 h2 => loadWord_fixed k ho h1 h2,
    fun hs hn => ?unwritten, fun h => ?unmapped, fun ho v p h1 k => ?secondByte,
    fun v hram hw => ?discardedByte, fun v hw => ?storedWord, fun h => ?readOnly, fun h => ?unmappedWrite,
    fun ho hw v k => ?secondWrite⟩
  case deviceWord =>
    rcases h with ⟨p1, p2, hl⟩ | ⟨p1, s2, h2, hl⟩ | ⟨s1, h1, p2, hl⟩
    · exact loadWord_device k ho (.inl p1) (takeByte_answered p1 hl) (takeByte_answered p2 rfl)
    · exact loadWord_device k ho (.inl p1) (takeByte_answered p1 hl) (takeByte_stored _ s2 h2)
    · exact loadWord_device k ho (.inr p2) (takeByte_stored _ s1 h1) (takeByte_answered p2 hl)
  case unwritten =>
    have hstop : ByteReadStops s a .unwrittenData := .inl ⟨hs, hn, rfl⟩
    exact ⟨fun k => loadByte_stops k hstop, fun ho k => loadWord_stops_first k ho hstop⟩
  case unmapped =>
    have hstop : ByteReadStops s a .unmapped := .inr ⟨h, rfl⟩
    exact ⟨fun k => loadByte_stops k hstop, fun ho k => loadWord_stops_first k ho hstop⟩
  case secondByte =>
    exact ⟨fun hs hn => loadWord_stops_second k ho h1 (.inl ⟨hs, hn, rfl⟩),
      fun h => loadWord_stops_second k ho h1 (.inr ⟨h, rfl⟩)⟩
  case discardedByte =>
    obtain ⟨hregs, hpc, hcontrol⟩ := memWriteByte_frame s a v
    refine ⟨s.memWriteByte a v, fun k => storeByte_done v k hw, memWriteByte_sameMem v hram, hregs, hpc,
      hcontrol, ?_⟩
    rw [memWriteByte_dev, note_eq, isDevice_eq]
    simp
  case storedWord =>
    exact ⟨s.putWord a v, fun k => storeWord_done v k hw, putWord_storedWord s a v, putWord_frame s a v⟩
  case readOnly =>
    have hstop : ByteWriteStops s a .readOnly := .inl ⟨h, rfl⟩
    exact ⟨fun v k => storeByte_stops v k hstop, fun ho v k => storeWord_stops v k ho (.inl hstop)⟩
  case unmappedWrite =>
    have hstop : ByteWriteStops s a .unmapped := .inr ⟨h, rfl⟩
    exact ⟨fun v k => storeByte_stops v k hstop, fun ho v k => storeWord_stops v k ho (.inl hstop)⟩
  case secondWrite =>
    exact ⟨fun h => storeWord_stops v k ho (.inr ⟨hw, .inl ⟨h, rfl⟩⟩),
      fun h => storeWord_stops v k ho (.inr ⟨hw, .inr ⟨h, rfl⟩⟩)⟩

/-- Settles O9: a word of storage is fetched without a trace, any other as the fetch leaves it. -/
theorem stepRunsTheDecodedInstruction : Obligations.StepRunsTheDecodedInstruction := by
  intro s t i hb
  refine ⟨fun w p hw hd => step_of_fetch_instr hb (fetch_instr hw hd), fun hi lo ho s1 s2 h1 h2 hd => ?_⟩
  exact step_of_fetch_instr hb (fetch_instr (readWord_stored ho s1 s2 h1 h2) hd)

/-- Settles O11: an odd pc and a free encoding are the exceptions of the fetch, and a ready entry goes through. -/
theorem fetchExceptionsEnterTheirHandlers : Obligations.FetchExceptionsEnterTheirHandlers := by
  intro s t hb
  refine ⟨fun ho hready => ?oddPc, fun w p hw hd hready => ?freeEncoding⟩
  case oddPc =>
    rw [step_of_fetch_raised hb (fetch_odd ho)]
    exact enter_entered t.pc hready
  case freeEncoding =>
    cases he : decode w with
    | ok i => exact absurd he (hd i)
    | error e =>
      rw [step_of_fetch_raised hb (fetch_invalid hw he)]
      exact enter_entered t.eis hready

/-- Settles O26, by induction on the accesses of the DMA master (`readByte_dmaAccesses`). -/
theorem dmaNeedsItsEnableBit : Obligations.DmaNeedsItsEnableBit :=
  fun s brq l => ⟨dmaBoundary_bgt s brq l, fun p _ => dmaBoundary_get s brq l p, dmaBoundary_dev s brq l,
    readByte_dmaBoundary s brq l⟩

/-- Settles O59: an instruction's own effect includes no store unless `stores` lists it, and SWE is listed. -/
theorem onlyStoresChangeMemory : Obligations.OnlyStoresChangeMemory := by
  intro i s t h hs
  have hswe : ∀ k : Byte, i ≠ .swe k := by
    rintro k rfl
    cases hs
  refine (exec_effectOrEntry h hswe).mono fun m he a => ?_
  rw [State.readByte, he.mem hs, State.readByte]

end Sys2Proof.Machine
end

section
/-! PROOFS. What a word decodes to, as a relation between packed words and instructions (`DecodesTo`), and the
statements of spec/30_encoding.md that follow from it. -/

namespace Sys2Proof

/-! ## Packed words under the masks of the ignored fields -/

@[simp] theorem packF_inj {x y a b x' y' a' b' : Nibble} :
    packF x y a b = packF x' y' a' b' ↔ x = x' ∧ y = y' ∧ a = a' ∧ b = b' := by
  refine ⟨fun h => ⟨?_, ?_, ?_, ?_⟩, fun ⟨hx, hy, ha, hb⟩ => by rw [hx, hy, ha, hb]⟩
  · simpa using congrArg op1Of h
  · simpa using congrArg op2Of h
  · simpa using congrArg fieldA h
  · simpa using congrArg fieldB h

@[simp] theorem const8_packF (x y a b : Nibble) : const8 (packF x y a b) = a ++ b := by
  ext i hi; simp [const8, packF]; grind

theorem byte_eq_append (c : Byte) : ∃ a b : Nibble, c = a ++ b :=
  ⟨c.extractLsb' 4 4, c.extractLsb' 0 4, by ext i hi; simp; grind⟩

/-- An 8-bit constant fills the fields `a` and `b` (R102). -/
theorem packC8_append (x y a b : Nibble) : packC8 x y (a ++ b) = packF x y a b := by
  ext i hi; simp [packC8, packF]; grind

theorem packF_clear_b (x y a b : Nibble) : packF x y a b &&& ~~~0x000F#16 = packF x y a 0#4 := by
  ext i hi
  rw [BitVec.getElem_and, BitVec.getElem_not]
  have : (0x000F#16)[i] = decide (i < 4) := by revert i; decide
  rw [this]
  simp [packF]
  grind

theorem packF_clear_a (x y a b : Nibble) : packF x y a b &&& ~~~0x00F0#16 = packF x y 0#4 b := by
  ext i hi
  rw [BitVec.getElem_and, BitVec.getElem_not]
  have : (0x00F0#16)[i] = (decide (4 ≤ i) && decide (i < 8)) := by revert i; decide
  rw [this]
  simp [packF]
  grind

theorem packF_clear_ab (x y a b : Nibble) : packF x y a b &&& ~~~0x00FF#16 = packF x y 0#4 0#4 :=
  Laws.packF_and_ff00 x y a b

/-- Without an ignored field no bit is cleared. -/
theorem and_not_ignoredMask {i : Instr} (hi : ignoredMask i = 0#16) (w : Word) : w &&& ~~~ignoredMask i = w := by
  rw [hi]
  exact BitVec.and_allOnes

theorem and_eq_zero_of_and_not {w mask : Word} (h : w &&& ~~~mask = w) : w &&& mask = 0#16 := by
  rw [← h, BitVec.and_assoc, BitVec.not_and_self]
  exact BitVec.and_zero

/-- A word that agrees with a packed one but for its field `b`. -/
theorem exists_fieldB {w : Word} {x y a b : Nibble} (h : w &&& ~~~0x000F#16 = packF x y a b &&& ~~~0x000F#16) :
    ∃ b', w = packF x y a b' := by
  refine ⟨fieldB w, ?_⟩
  rw [← packF_fields w] at h ⊢
  rw [packF_clear_b, packF_clear_b] at h
  simpa using h

/-- A word that agrees with a packed one but for its field `a`. -/
theorem exists_fieldA {w : Word} {x y a b : Nibble} (h : w &&& ~~~0x00F0#16 = packF x y a b &&& ~~~0x00F0#16) :
    ∃ a', w = packF x y a' b := by
  refine ⟨fieldA w, ?_⟩
  rw [← packF_fields w] at h ⊢
  rw [packF_clear_a, packF_clear_a] at h
  simpa using h

/-- A word that agrees with a packed one but for its fields `a` and `b`. -/
theorem exists_fieldAB {w : Word} {x y a b : Nibble} (h : w &&& ~~~0x00FF#16 = packF x y a b &&& ~~~0x00FF#16) :
    ∃ a' b', w = packF x y a' b' := by
  refine ⟨fieldA w, fieldB w, ?_⟩
  rw [← packF_fields w] at h ⊢
  rw [packF_clear_ab, packF_clear_ab] at h
  simpa using h

/-! ## What a word decodes to -/

/-- The table of R102 to R109 under an `OpcodeMap`: the words of each format, with the instruction they stand for.
Fields that an instruction ignores take every value. -/
inductive DecodesTo (m : OpcodeMap) : Word → Instr → Prop
  | aritop (n : Aritop) (a b : Nibble) : DecodesTo m (packF (m.op1 .aritop) (m.aritop n) a b) (n.instr a b)
  | bitop (n : Bitop) (a b : Nibble) : DecodesTo m (packF (m.op1 .bitop) (m.bitop n) a b) (n.instr a b)
  | ldo (x y b : Nibble) :
    DecodesTo m (packF (m.op1 .ldo) x y b) (.ldo (Reg.ofField x) (Reg.ofField y) (offsetOf b))
  | ldr (x y b : Nibble) :
    DecodesTo m (packF (m.op1 .ldr) x y b) (.ldr (Reg.ofField x) (Reg.ofField y) (Reg.ofField b))
  | sto (x y b : Nibble) :
    DecodesTo m (packF (m.op1 .sto) x y b) (.sto (Reg.ofField x) (Reg.ofField y) (offsetOf b))
  | str (x y b : Nibble) :
    DecodesTo m (packF (m.op1 .str) x y b) (.str (Reg.ofField x) (Reg.ofField y) (Reg.ofField b))
  | xfer (n : Xfer) (a b : Nibble) : DecodesTo m (packF (m.op1 .xfer) (m.xfer n) a b) (n.instr a b)
  | movl (x : Nibble) (c : Byte) : DecodesTo m (packC8 (m.op1 .movl) x c) (.movl (Reg.ofField x) c.toInt)
  | movh (x : Nibble) (c : Byte) : DecodesTo m (packC8 (m.op1 .movh) x c) (.movh (Reg.ofField x) c)
  | cond (n : CondOp) (c : Byte) : DecodesTo m (packC8 (m.op1 .cond) (m.cond n) c) (n.instr c)
  | jmp (c : BitVec 12) : DecodesTo m (packC12 (m.op1 .jmp) c) (.jmp c.toInt)
  | call (c : BitVec 12) : DecodesTo m (packC12 (m.op1 .call) c) (.call c.toInt)
  | callf (c : BitVec 12) : DecodesTo m (packC12 (m.op1 .callf) c) (.callf c.toInt)
  | code (n : CodeOp) (a b : Nibble) : DecodesTo m (packF (m.op1 .code) (m.code n) a b) (n.instr b (a ++ b))

section
variable {m : OpcodeMap} {w w' : Word} {i j : Instr}

theorem classInstr_eq_ok {α : Type} {names : List α} {number : α → Nibble} {f : α → Instr} {x y : Nibble}
    (h : classInstr names number f x y = .ok i) : ∃ n, number n = y ∧ f n = i := by
  unfold classInstr at h
  split at h
  case h_1 n hn => exact ⟨n, number_of_nameOf hn, Except.ok.inj h⟩
  case h_2 => cases h

theorem decodeWith_eq_ok (h : decodeWith m w = .ok i) : ∃ n, m.op1 n = op1Of w ∧ decodeNamed m w n = .ok i := by
  unfold decodeWith at h
  split at h
  case h_1 n hn => exact ⟨n, number_of_nameOf hn, h⟩
  case h_2 => cases h

theorem DecodesTo.of_eq (h : DecodesTo m w i) (hw : w = w') (hi : i = j := by rfl) : DecodesTo m w' j :=
  hw ▸ hi ▸ h

/-- Whatever the numbers, the decoder reads a word by the table. -/
theorem decodesTo_of_decodeWith (h : decodeWith m w = .ok i) : DecodesTo m w i := by
  obtain ⟨name, h1, h⟩ := decodeWith_eq_ok h
  have hF := packF_fields w
  have hC8 := packC8_fields w
  have hC12 := packC12_fields w
  rw [← h1] at hF hC8 hC12
  cases name with
  | aritop =>
    obtain ⟨n, h2, rfl⟩ := classInstr_eq_ok h
    exact (DecodesTo.aritop n ..).of_eq (h2 ▸ hF)
  | bitop =>
    obtain ⟨n, h2, rfl⟩ := classInstr_eq_ok h
    exact (DecodesTo.bitop n ..).of_eq (h2 ▸ hF)
  | xfer =>
    obtain ⟨n, h2, rfl⟩ := classInstr_eq_ok h
    exact (DecodesTo.xfer n ..).of_eq (h2 ▸ hF)
  | cond =>
    obtain ⟨n, h2, rfl⟩ := classInstr_eq_ok h
    exact (DecodesTo.cond n ..).of_eq (h2 ▸ hC8)
  | code =>
    obtain ⟨n, h2, rfl⟩ := classInstr_eq_ok h
    have hc : const8 w = fieldA w ++ fieldB w := by rw [← hF, const8_packF, fieldA_packF, fieldB_packF]
    exact hc ▸ (DecodesTo.code n ..).of_eq (h2 ▸ hF)
  | ldo => cases h; exact (DecodesTo.ldo ..).of_eq hF
  | ldr => cases h; exact (DecodesTo.ldr ..).of_eq hF
  | sto => cases h; exact (DecodesTo.sto ..).of_eq hF
  | str => cases h; exact (DecodesTo.str ..).of_eq hF
  | movl => cases h; exact (DecodesTo.movl ..).of_eq hC8
  | movh => cases h; exact (DecodesTo.movh ..).of_eq hC8
  | jmp => cases h; exact (DecodesTo.jmp ..).of_eq hC12
  | call => cases h; exact (DecodesTo.call ..).of_eq hC12
  | callf => cases h; exact (DecodesTo.callf ..).of_eq hC12

/-- Under an injective `OpcodeMap` the decoder reads every word of the table. -/
theorem DecodesTo.decodeWith_eq (hm : m.injective) (h : DecodesTo m w i) : decodeWith m w = .ok i := by
  obtain ⟨-, haritop, hbitop, hxfer, hcond, hcode⟩ := id hm
  cases h with
  | aritop n a b => simp [decodeWith_packF hm, decodeNamed, classInstr_number haritop n.mem_names]
  | bitop n a b => simp [decodeWith_packF hm, decodeNamed, classInstr_number hbitop n.mem_names]
  | xfer n a b => simp [decodeWith_packF hm, decodeNamed, classInstr_number hxfer n.mem_names]
  | cond n c => simp [decodeWith_packC8 hm, decodeNamed, classInstr_number hcond n.mem_names]
  | code n a b => simp [decodeWith_packF hm, decodeNamed, classInstr_number hcode n.mem_names]
  | ldo | ldr | sto | str => simp [decodeWith_packF hm, decodeNamed]
  | movl | movh => simp [decodeWith_packC8 hm, decodeNamed]
  | jmp | call | callf => simp [decodeWith_packC12 hm, decodeNamed]

/-- Every operand field is in its range (R118). -/
theorem DecodesTo.wellFormed (h : DecodesTo m w i) : i.wellFormed = true := by
  cases h with
  | aritop n a b =>
    cases n with
    | addi | subi | cmpi => exact const4Ok_toInt b
    | _ => rfl
  | bitop n => cases n <;> rfl
  | xfer n => cases n <;> rfl
  | cond n c => cases n <;> exact const8Ok_toInt c
  | code n => cases n <;> rfl
  | ldo x y b | sto x y b => exact offsetOk_offsetOf b
  | movl x c => exact const8Ok_toInt c
  | jmp c | call c | callf c => exact const12Ok_toInt c
  | ldr | str | movh => rfl

/-- The ignored fields, said once: none, `b`, `a`, or both, with the encoder's 0 in them and every value read alike
(R116). -/
theorem DecodesTo.ignored_fields (h : DecodesTo m w i) :
    (ignoredMask i = 0#16 ∧ encodeWith m i = w) ∨
    (ignoredMask i = 0x000F#16 ∧ ∃ x y a, (∃ b, w = packF x y a b) ∧ encodeWith m i = packF x y a 0#4 ∧
      ∀ b, DecodesTo m (packF x y a b) i) ∨
    (ignoredMask i = 0x00F0#16 ∧ ∃ x y b, (∃ a, w = packF x y a b) ∧ encodeWith m i = packF x y 0#4 b ∧
      ∀ a, DecodesTo m (packF x y a b) i) ∨
    (ignoredMask i = 0x00FF#16 ∧ ∃ x y, (∃ a b, w = packF x y a b) ∧ encodeWith m i = packF x y 0#4 0#4 ∧
      ∀ a b, DecodesTo m (packF x y a b) i) := by
  cases h with
  | aritop n a b =>
    cases n with
    | neg => exact .inr (.inl ⟨rfl, _, _, a, ⟨b, rfl⟩, by simp [Aritop.instr, encodeWith], .aritop .neg a⟩)
    | _ => exact .inl ⟨rfl, by simp [Aritop.instr, encodeWith, packRR, packRN]⟩
  | bitop n a b =>
    cases n with
    | not => exact .inr (.inl ⟨rfl, _, _, a, ⟨b, rfl⟩, by simp [Bitop.instr, encodeWith], .bitop .not a⟩)
    | _ => exact .inl ⟨rfl, by simp [Bitop.instr, encodeWith, packRR, packRN]⟩
  | xfer n a b =>
    cases n with
    | movru | push | pop =>
      exact .inr (.inl ⟨rfl, _, _, a, ⟨b, rfl⟩, by simp [Xfer.instr, encodeWith], .xfer _ a⟩)
    | movur =>
      exact .inr (.inr (.inl ⟨rfl, _, _, b, ⟨a, rfl⟩, by simp [Xfer.instr, encodeWith], (.xfer .movur · b)⟩))
    | _ => exact .inl ⟨rfl, by simp [Xfer.instr, encodeWith, packRR, packRN]⟩
  | code n a b =>
    cases n with
    | jmpr | cr | crf =>
      exact .inr (.inr (.inl ⟨rfl, _, _, b, ⟨a, rfl⟩, by simp [CodeOp.instr, encodeWith], (.code _ · b)⟩))
    | ret | retf | rfe | nop => exact .inr (.inr (.inr ⟨rfl, _, _, ⟨a, b, rfl⟩, rfl, .code _⟩))
    | swe => exact .inl ⟨rfl, packC8_append ..⟩
  | cond n c => cases n <;> exact .inl ⟨rfl, by simp [CondOp.instr, encodeWith]⟩
  | _ => exact .inl ⟨rfl, by simp [encodeWith]⟩

/-- The encoder gives a word of the table back, but for the ignored fields, which it clears. -/
theorem DecodesTo.encodeWith_eq (h : DecodesTo m w i) : encodeWith m i = w &&& ~~~ignoredMask i := by
  obtain ⟨hi, he⟩ | ⟨hi, x, y, a, ⟨b, rfl⟩, he, -⟩ | ⟨hi, x, y, b, ⟨a, rfl⟩, he, -⟩ |
    ⟨hi, x, y, ⟨a, b, rfl⟩, he, -⟩ := h.ignored_fields
  · rw [and_not_ignoredMask hi, he]
  · rw [he, hi, packF_clear_b]
  · rw [he, hi, packF_clear_a]
  · rw [he, hi, packF_clear_ab]

/-- A word that differs from a word of the table in ignored fields alone stands for the same instruction (R116). -/
theorem DecodesTo.congr_ignored (h : DecodesTo m w i) (hw : w' &&& ~~~ignoredMask i = w &&& ~~~ignoredMask i) :
    DecodesTo m w' i := by
  obtain ⟨hi, -⟩ | ⟨hi, x, y, a, ⟨b, rfl⟩, -, hall⟩ | ⟨hi, x, y, b, ⟨a, rfl⟩, -, hall⟩ |
    ⟨hi, x, y, ⟨a, b, rfl⟩, -, hall⟩ := h.ignored_fields
  · rw [and_not_ignoredMask hi, and_not_ignoredMask hi] at hw
    exact hw ▸ h
  · obtain ⟨b', rfl⟩ := exists_fieldB (hi ▸ hw)
    exact hall b'
  · obtain ⟨a', rfl⟩ := exists_fieldA (hi ▸ hw)
    exact hall a'
  · obtain ⟨a', b', rfl⟩ := exists_fieldAB (hi ▸ hw)
    exact hall a' b'

/-- A well-formed instruction's word is a word of the table, for that instruction. -/
theorem decodesTo_encodeWith (m : OpcodeMap) (hi : i.wellFormed = true) : DecodesTo m (encodeWith m i) i := by
  cases i with
  | add d s | addc d s | sub d s | subb d s | cmp d s | mul d s | div d s | mod d s =>
    exact (DecodesTo.aritop _ d.toField s.toField).of_eq rfl (by simp [Aritop.instr])
  | addi d k | subi d k | cmpi d k =>
    exact (DecodesTo.aritop _ d.toField _).of_eq rfl (by simp [Aritop.instr, toInt_ofInt4 hi])
  | shra d n | shla d n =>
    exact (DecodesTo.aritop _ d.toField (numField n)).of_eq rfl (by simp [Aritop.instr])
  | neg d => exact (DecodesTo.aritop _ d.toField 0#4).of_eq rfl (by simp [Aritop.instr])
  | and d s | or d s | xor d s | test d s =>
    exact (DecodesTo.bitop _ d.toField s.toField).of_eq rfl (by simp [Bitop.instr])
  | bit d n | setbit d n | clrbit d n | cplbit d n | shr d n | shl d n | ror d n | rol d n | rorc d n | rolc d n =>
    exact (DecodesTo.bitop _ d.toField (numField n)).of_eq rfl (by simp [Bitop.instr])
  | not d => exact (DecodesTo.bitop _ d.toField 0#4).of_eq rfl (by simp [Bitop.instr])
  | ldo d s off => exact (DecodesTo.ldo d.toField s.toField _).of_eq rfl (by simp [offsetOf_offsetField hi])
  | sto s d off => exact (DecodesTo.sto s.toField d.toField _).of_eq rfl (by simp [offsetOf_offsetField hi])
  | ldr d s i => exact (DecodesTo.ldr d.toField s.toField i.toField).of_eq rfl (by simp)
  | str s d i => exact (DecodesTo.str s.toField d.toField i.toField).of_eq rfl (by simp)
  | ldb d s | stb d s | ldbs d s | ldp d s | stp d s | movrr d s | swapr d s | swapm d s =>
    exact (DecodesTo.xfer _ d.toField s.toField).of_eq rfl (by simp [Xfer.instr])
  | movar a s => exact (DecodesTo.xfer _ (numField a) s.toField).of_eq rfl (by simp [Xfer.instr])
  | movra d a => exact (DecodesTo.xfer _ d.toField (numField a)).of_eq rfl (by simp [Xfer.instr])
  | movru d | push d | pop d => exact (DecodesTo.xfer _ d.toField 0#4).of_eq rfl (by simp [Xfer.instr])
  | movur s => exact (DecodesTo.xfer _ 0#4 s.toField).of_eq rfl (by simp [Xfer.instr])
  | movl d k => exact (DecodesTo.movl d.toField _).of_eq rfl (by simp [toInt_ofInt8 hi])
  | movh d k => exact (DecodesTo.movh d.toField k).of_eq rfl (by simp)
  | jz k | jnz k | jn k | jnn k | jp k | jnp k | jc k | jnc k
  | jv k | jnv k | jlt k | jle k | jgt k | jge k | ja k | jbe k =>
    exact (DecodesTo.cond _ _).of_eq rfl (by simp [CondOp.instr, toInt_ofInt8 hi])
  | jmp k => exact (DecodesTo.jmp _).of_eq rfl (by simp [toInt_ofInt12 hi])
  | call k => exact (DecodesTo.call _).of_eq rfl (by simp [toInt_ofInt12 hi])
  | callf k => exact (DecodesTo.callf _).of_eq rfl (by simp [toInt_ofInt12 hi])
  | jmpr s | cr s | crf s => exact (DecodesTo.code _ 0#4 s.toField).of_eq rfl (by simp [CodeOp.instr])
  | ret | retf | rfe | nop => exact DecodesTo.code _ 0#4 0#4
  | swe k =>
    obtain ⟨a, b, rfl⟩ := byte_eq_append k
    exact (DecodesTo.code .swe a b).of_eq (packC8_append ..).symm

end

/-! ## The machine's map -/

/-- A numbering whose numbers have their names again is injective (R104). -/
theorem number_injective {α : Type} {names : List α} {number : α → Nibble}
    (h : ∀ n, nameOf names number (number n) = some n) (x y : α) (hxy : number x = number y) : x = y :=
  Option.some.inj (by rw [← h x, hxy, h y])

/-- The default numbers of a class are different (R104). -/
theorem opcodeMap_injective : Param.opcodeMap.injective :=
  ⟨number_injective (names := Op1.names) fun n => by cases n <;> rfl,
    number_injective (names := Aritop.names) fun n => by cases n <;> rfl,
    number_injective (names := Bitop.names) fun n => by cases n <;> rfl,
    number_injective (names := Xfer.names) fun n => by cases n <;> rfl,
    number_injective (names := CondOp.names) fun n => by cases n <;> rfl,
    number_injective (names := CodeOp.names) fun n => by cases n <;> rfl⟩

/-! ## Whether a word is an instruction -/

section
variable {m : OpcodeMap} {w w' : Word}

theorem isOk_ok (i : Instr) : (Except.ok i : Except DecodeError Instr).isOk = true := rfl

theorem classInstr_isOk {α : Type} (names : List α) (number : α → Nibble) (f : α → Instr) (x y : Nibble) :
    (classInstr names number f x y).isOk = (nameOf names number y).isSome := by
  rw [classInstr]
  cases nameOf names number y <;> rfl

theorem decodeNamed_isOk_congr (name : Op1) (h2 : op2Of w = op2Of w') :
    (decodeNamed m w name).isOk = (decodeNamed m w' name).isOk := by
  cases name with
  | aritop | bitop | xfer | cond | code => simp only [decodeNamed, classInstr_isOk, h2]
  | _ => simp only [decodeNamed, isOk_ok]

/-- The two opcodes alone say whether a word is an instruction (R117). -/
theorem decodeWith_isOk_congr (h1 : op1Of w = op1Of w') (h2 : op2Of w = op2Of w') :
    (decodeWith m w).isOk = (decodeWith m w').isOk := by
  rw [decodeWith, decodeWith, h1]
  cases nameOf Op1.names m.op1 (op1Of w') with
  | none => rfl
  | some name => exact decodeNamed_isOk_congr name h2

end

theorem forall_ne_ok_iff (w : Word) : (∀ i : Instr, decode w ≠ .ok i) ↔ (decode w).isOk = false := by
  cases decode w with
  | ok i => exact iff_of_false (fun h => h i rfl) (by simp [isOk_ok])
  | error e => exact iff_of_true (fun i => nofun) rfl

/-- The free slots of the default map, opcode by opcode (R104 to R109). -/
theorem decode_packF_isOk_eq_false_iff : ∀ x y : Nibble, (decode (packF x y 0#4 0#4)).isOk = false ↔
    (x ++ y ∈ [0x0C#8, 0x0D#8, 0x1F#8, 0x6E#8, 0x6F#8] ∨ 0xD8 ≤ (x ++ y).toNat) := by
  decide

theorem highByte_eq (w : Word) : highByte w = op1Of w ++ op2Of w := by
  ext i hi; simp [highByte, op1Of, op2Of]; grind

theorem wordOfBytes_bytes (w : Word) : wordOfBytes (highByte w) (lowByte w) = w := by
  ext i hi; simp [wordOfBytes, highByte, lowByte]; grind

theorem decodeBytes_of_decode {hi lo : Byte} {i : Instr} (rest : List Byte)
    (h : decode (wordOfBytes hi lo) = .ok i) : decodeBytes (hi :: lo :: rest) = .ok (i, rest) := by
  simp [decodeBytes, h]

/-! ## The statements of spec/30_encoding.md -/

theorem decodeWith_encodeWith {m : OpcodeMap} (hm : m.injective) {i : Instr} (hi : i.wellFormed = true) :
    decodeWith m (encodeWith m i) = .ok i :=
  (decodesTo_encodeWith m hi).decodeWith_eq hm

/-- Settles O1: the encoder's word is a word of the table, which the decoder reads back. -/
theorem decodeInvertsEncode : Obligations.DecodeInvertsEncode := by
  refine ⟨opcodeMap_injective, fun i hi => ?_⟩
  have h : decode (encode i) = .ok i := decodeWith_encodeWith opcodeMap_injective hi
  refine ⟨fun m hm => decodeWith_encodeWith hm hi, h, fun rest => ?_⟩
  exact decodeBytes_of_decode rest (by rwa [wordOfBytes_bytes])

/-- Settles O2: what a word decodes to is its row of the table. -/
theorem encodeInvertsDecodeUpToIgnoredBits : Obligations.EncodeInvertsDecodeUpToIgnoredBits := by
  intro m w i h
  have ht := decodesTo_of_decodeWith h
  exact ⟨ht.wellFormed, ht.encodeWith_eq, fun hm => hm ▸ rfl⟩

/-- The encoder writes 0 in the ignored fields, whatever the operands (R116). -/
theorem encode_and_ignoredMask (i : Instr) : encode i &&& ignoredMask i = 0#16 := by
  cases i with
  | neg | not | movru | push | pop => exact and_eq_zero_of_and_not (packF_clear_b ..)
  | movur | jmpr | cr | crf => exact and_eq_zero_of_and_not (packF_clear_a ..)
  | ret | retf | rfe | nop => exact and_eq_zero_of_and_not (packF_clear_ab ..)
  | _ => exact BitVec.and_zero

/-- Settles O3: every value of an ignored field is in the table. -/
theorem ignoredFieldsMayHoldAnyValue : Obligations.IgnoredFieldsMayHoldAnyValue := by
  refine ⟨fun w w' i h hw => ?_, fun d => ⟨rfl, rfl, rfl, rfl, rfl, rfl, rfl, rfl, rfl⟩, rfl, rfl, rfl, rfl,
    encode_and_ignoredMask⟩
  exact ((decodesTo_of_decodeWith h).congr_ignored hw).decodeWith_eq opcodeMap_injective

/-- Settles O4: the opcodes decide (`decodeWith_isOk_congr`), and there are 256 pairs of them. -/
theorem invalidWordsAreTheFreeEncodings : Obligations.InvalidWordsAreTheFreeEncodings := by
  intro w
  have hw : (decode w).isOk = (decode (packF (op1Of w) (op2Of w) 0#4 0#4)).isOk :=
    decodeWith_isOk_congr (op1Of_packF ..).symm (op2Of_packF ..).symm
  rw [forall_ne_ok_iff, hw, highByte_eq]
  exact decode_packF_isOk_eq_false_iff (op1Of w) (op2Of w)

end Sys2Proof
end

section
/-! PROOFS. The two ends of an instruction that computes V, completion and EXCESSO, said once for each of them
(`OverflowOutcome`), and the statements of spec/40_arithmetic.md that follow: additions, subtractions, comparisons,
products, divisions and the jumps after a comparison. -/

namespace Sys2Proof.Machine

/-! ## The end of an instruction: pc alone -/

section
variable {d r : Reg} {v w : Word} {u : FlagUpdate} {s m : State}

theorem Committed.advance (h : Committed d v u s m) : Committed d v u s m.advance := by
  simpa [Committed, SameRegsBut, SameMem, SameHost, SameControl] using h

theorem OnlyFlags.advance (h : OnlyFlags u s m) : OnlyFlags u s m.advance := by
  simpa [OnlyFlags, SameRegsBut, SameMem, SameHost, SameControl] using h

theorem MulEffect.advance (h : MulEffect d r s m) : MulEffect d r s m.advance := by
  simpa [MulEffect, SameRegsBut, SameMem, SameHost, SameControl] using h

theorem SameRegsBut.trans {ps qs : List Phys} {t : State} (h1 : SameRegsBut ps s m) (h2 : SameRegsBut qs m t) :
    SameRegsBut (ps ++ qs) s t := by
  intro p hp
  rw [List.mem_append, not_or] at hp
  exact (h2 p hp.2).trans (h1 p hp.1)

theorem SameMem.trans {t : State} (h1 : SameMem s m) (h2 : SameMem m t) : SameMem s t :=
  fun a => (h2 a).trans (h1 a)

theorem SameHost.trans {t : State} (h1 : SameHost s m) (h2 : SameHost m t) : SameHost s t := by
  simp_all [SameHost, SameControl]

/-! ## What is written to registers after free values were drawn -/

/-- A result committed in a state that differs from `s` in free values and pc alone. -/
theorem commit_committed_of_same (d : Reg) (v : Word) (u : FlagUpdate) (hregs : ∀ p : Phys, m.get p = s.get p)
    (hmem : SameMem s m) (hhost : SameHost s m) : Committed d v u s (m.commit d v u) := by
  have hre : m.re = s.re := hregs .re
  obtain ⟨hd, hregs', hmem', hhost'⟩ := commit_committed m d v u
  rw [np_congr hre] at hd hregs'
  rw [hre] at hd
  exact ⟨hd, fun p hp => (hregs' p hp).trans (hregs p), hmem.trans hmem', hhost.trans hhost'⟩

theorem drawBit_commit_committed (s : State) (d : Reg) (v : Word) (u : FlagUpdate) :
    Committed d v u s (s.drawBit.2.commit d v u) :=
  commit_committed_of_same d v u (drawBit_get s) (drawBit_readByte s) (by simp [SameHost, SameControl])

/-- The protection level after a result was committed: bit 14 of the result where RE took it (R33, R38). -/
theorem Committed.np (h : Committed d v u s m) : m.np = if d = .re then v.getLsbD 14 else s.np := by
  obtain ⟨hd, -⟩ := h
  by_cases hre : d = .re
  · rw [if_pos hre] at hd ⊢
    rw [State.np, hd]
  · rw [if_neg hre] at hd ⊢
    obtain ⟨-, hflags⟩ := hd
    exact hflags bitNP

theorem drawWord_setX_moved (s : State) (d : Reg) (v : Word) : Moved d v s (s.drawWord.2.setX d v) := by
  simpa [Moved, SameRegsBut, SameMem, SameHost, SameControl, np_congr (drawWord_re s)]
    using setX_moved s.drawWord.2 d v

theorem re_not_mem_phys {np : Bool} (h : d ≠ .re) : Phys.re ∉ [Reg.phys np d] := by
  simpa using fun e => h ((phys_eq_re np d).mp e.symm)

/-- Z and N of a result with C and V as given, as the instructions write them and as R31 and R32 define them. -/
theorem setZN_with (w : Word) (c v : Option Bool) :
    ({ setZN w with c := c, v := v } : FlagUpdate) = resultFlags w c v := by
  rw [setZN_eq]
  rfl

/-- A result committed and then the second register written, at the level that then holds: MUL's two writes (R149). -/
theorem mulEffect_of_committed_moved {c : Bool} {t : State}
    (hm : Committed d (s.x d * s.x r) (resultFlags (s.x d * s.x r) (some c)
      (some (decide (¬fitsWord ((s.x d).toInt * (s.x r).toInt))))) s m)
    (ht : Moved r v m t) : MulEffect d r s t := by
  have hnp := hm.np
  obtain ⟨hd, hregs, hmem, hhost⟩ := hm
  obtain ⟨-, hregs', hmem', hhost'⟩ := ht
  have hothers := hregs.trans hregs'
  rw [hnp] at hregs' hothers
  refine ⟨fun hne => ?product, fun hdre hrre => ⟨c, ?flags⟩, fun p hp => ?others, hmem.trans hmem',
    hhost.trans hhost'⟩
  case product =>
    split at hd
    case isTrue hdre =>
      have hre : t.re = m.re := hregs' .re (re_not_mem_phys fun h => hne (hdre.trans h.symm))
      rw [if_pos hdre, hre, hd]
    case isFalse hdre =>
      obtain ⟨hd, -⟩ := hd
      rw [if_neg hdre, hregs' _ (by simp [phys_inj, hne]), hd]
  case flags =>
    rw [if_neg hdre] at hd
    obtain ⟨-, hflags⟩ := hd
    have hre : t.re = m.re := hregs' .re (re_not_mem_phys hrre)
    rwa [hre]
  case others =>
    exact hothers p (by simp_all)

end

/-! ## Completing, or trapping after the effect -/

section
variable {fits : Prop} {P : State → Prop} {i : Instr} {d r : Reg} {x y : Word} {c v : Bool} {s m : State}

/-- How an instruction that computes V ends (R156): with the effect P, which EXCESSO follows exactly when the exact
result does not fit and TV was 1. -/
structure OverflowOutcome (fits : Prop) (P : State → Prop) (i : Instr) (s : State) : Prop where
  completes : fits ∨ s.tv = false → ∃ t : State, exec i s = .next t ∧ t.pc = s.pc + 2#16 ∧ P t
  traps : s.tv = true → ¬fits → EntersAfter 4#8 P i s

theorem OverflowOutcome.congr {fits' : Prop} (h : OverflowOutcome fits P i s) (hf : fits' ↔ fits) :
    OverflowOutcome fits' P i s := by
  rwa [propext hf]

/-- EXCESSO saves the address of the next instruction (R311). -/
theorem takeException_excesso (hpc : m.pc = s.pc) : takeException .excesso m = enter 4#8 s.eis m := by
  rw [State.eis, ← hpc]
  rfl

/-- The outcome of an instruction that ends by `endArith` in the state `m`, all its results written. -/
theorem overflowOutcome_of_endArith (hi : exec i s = endArith v s.tv m) (hv : v = true ↔ ¬fits) (hpc : m.pc = s.pc)
    (hP : P m) (hadv : P m.advance) : OverflowOutcome fits P i s where
  completes h := by
    have hquiet : (v && s.tv) = false := by
      rcases h with h | h
      · rw [Bool.eq_false_iff.mpr fun hv' => hv.mp hv' h, Bool.false_and]
      · rw [h, Bool.and_false]
    exact ⟨m.advance, hi.trans (endArith_quiet m hquiet), by rw [advance_pc, State.eis, hpc], hadv⟩
  traps htv h := by
    have htrap : (v && s.tv) = true := by rw [hv.mpr h, htv, Bool.and_self]
    exact ⟨m, hP, hpc, hi.trans ((endArith_trap m htrap).trans (takeException_excesso hpc))⟩

/-! ## Additions, subtractions and comparisons -/

theorem arithWrite_outcome {a : AluResult} (hi : exec i s = arithWrite d a s) (hv : a.v = true ↔ ¬fits) :
    OverflowOutcome fits (Committed d a.r a.flags s) i s :=
  overflowOutcome_of_endArith hi hv (by simp) (commit_committed ..) (commit_committed ..).advance

theorem arithCompare_outcome {a : AluResult} (hi : exec i s = arithCompare a s) (hv : a.v = true ↔ ¬fits) :
    OverflowOutcome fits (OnlyFlags a.flags s) i s :=
  overflowOutcome_of_endArith hi hv (by simp) (setFlags_onlyFlags ..) (setFlags_onlyFlags ..).advance

theorem sum_outcome (hi : exec i s = arithWrite d (addc x y c) s) :
    OverflowOutcome (fitsWord (x.toInt + y.toInt + c.toNat)) (Committed d (x + y + carryWord c) (sumFlags x y c) s)
      i s := by
  rw [← addc_r, ← addc_flags]
  exact arithWrite_outcome hi (by rw [addc_v, decide_eq_true_iff])

theorem difference_outcome (hi : exec i s = arithWrite d (subb x y c) s) :
    OverflowOutcome (fitsWord (x.toInt - y.toInt - c.toNat)) (Committed d (x - y - carryWord c) (diffFlags x y c) s)
      i s := by
  rw [← subb_r, ← subb_flags]
  exact arithWrite_outcome hi (by rw [subb_v, decide_eq_true_iff])

/-- ADD and ADDI: no carry comes in. -/
theorem plainSum_outcome (hi : exec i s = arithWrite d (addc x y false) s) :
    OverflowOutcome (fitsWord (x.toInt + y.toInt)) (Committed d (x + y) (sumFlags x y false) s) i s := by
  simpa [carryWord] using sum_outcome hi

/-- SUB, SUBI and NEG: no borrow comes in. -/
theorem plainDifference_outcome (hi : exec i s = arithWrite d (subb x y false) s) :
    OverflowOutcome (fitsWord (x.toInt - y.toInt)) (Committed d (x - y) (diffFlags x y false) s) i s := by
  simpa [carryWord] using difference_outcome hi

/-- CMP and CMPI. -/
theorem comparison_outcome (hi : exec i s = arithCompare (subb x y false) s) :
    OverflowOutcome (fitsWord (x.toInt - y.toInt)) (OnlyFlags (diffFlags x y false) s) i s := by
  rw [← subb_flags]
  exact arithCompare_outcome hi (by rw [subb_v, decide_eq_true_iff]; simp)

/-- NEG overflows for -32768 alone (R155). -/
theorem fitsWord_neg (x : Word) : x ≠ 0x8000#16 ↔ fitsWord ((0#16).toInt - x.toInt) := by
  rw [ne_eq, ← BitVec.toInt_inj]
  have hx := x.isLt
  simp only [toInt_eq, BitVec.toNat_ofNat]
  omega

theorem exec_add_outcome (d r : Reg) (s : State) : OverflowOutcome (fitsWord ((s.x d).toInt + (s.x r).toInt))
    (Committed d (s.x d + s.x r) (sumFlags (s.x d) (s.x r) false) s) (.add d r) s := plainSum_outcome rfl

theorem exec_addi_outcome (d : Reg) (k : Int) (s : State) :
    OverflowOutcome (fitsWord ((s.x d).toInt + (constWord k).toInt))
      (Committed d (s.x d + constWord k) (sumFlags (s.x d) (constWord k) false) s) (.addi d k) s := plainSum_outcome rfl

theorem exec_addc_outcome (d r : Reg) (s : State) :
    OverflowOutcome (fitsWord ((s.x d).toInt + (s.x r).toInt + s.flagC.toNat))
      (Committed d (s.x d + s.x r + carryWord s.flagC) (sumFlags (s.x d) (s.x r) s.flagC) s) (.addc d r) s :=
  sum_outcome rfl

theorem exec_sub_outcome (d r : Reg) (s : State) : OverflowOutcome (fitsWord ((s.x d).toInt - (s.x r).toInt))
    (Committed d (s.x d - s.x r) (diffFlags (s.x d) (s.x r) false) s) (.sub d r) s := plainDifference_outcome rfl

theorem exec_subi_outcome (d : Reg) (k : Int) (s : State) :
    OverflowOutcome (fitsWord ((s.x d).toInt - (constWord k).toInt))
      (Committed d (s.x d - constWord k) (diffFlags (s.x d) (constWord k) false) s) (.subi d k) s :=
  plainDifference_outcome rfl

theorem exec_subb_outcome (d r : Reg) (s : State) :
    OverflowOutcome (fitsWord ((s.x d).toInt - (s.x r).toInt - s.flagC.toNat))
      (Committed d (s.x d - s.x r - carryWord s.flagC) (diffFlags (s.x d) (s.x r) s.flagC) s) (.subb d r) s :=
  difference_outcome rfl

theorem exec_neg_outcome (d : Reg) (s : State) : OverflowOutcome (s.x d ≠ 0x8000#16)
    (Committed d (0#16 - s.x d) (diffFlags 0#16 (s.x d) false) s) (.neg d) s :=
  (plainDifference_outcome rfl).congr (fitsWord_neg (s.x d))

theorem exec_cmp_outcome (d r : Reg) (s : State) : OverflowOutcome (fitsWord ((s.x d).toInt - (s.x r).toInt))
    (OnlyFlags (diffFlags (s.x d) (s.x r) false) s) (.cmp d r) s := comparison_outcome rfl

theorem exec_cmpi_outcome (d : Reg) (k : Int) (s : State) :
    OverflowOutcome (fitsWord ((s.x d).toInt - (constWord k).toInt))
      (OnlyFlags (diffFlags (s.x d) (constWord k) false) s) (.cmpi d k) s := comparison_outcome rfl

/-! ## MUL and SHLA -/

/-- MUL ends as an arithmetic instruction does, in a state with both its writes (R149). -/
theorem exec_mul_eq_endArith (d r : Reg) (s : State) :
    ∃ m : State, exec (.mul d r) s = endArith (outOfRange ((s.x d).toInt * (s.x r).toInt)) s.tv m ∧ m.pc = s.pc ∧
      MulEffect d r s m := by
  refine ⟨_, rfl, by simp, mulEffect_of_committed_moved (c := s.drawBit.1) ?_ (drawWord_setX_moved _ r _)⟩
  rw [← outOfRange_eq, ← setZN_with]
  exact drawBit_commit_committed ..

theorem exec_mul_outcome (d r : Reg) (s : State) : OverflowOutcome (fitsWord ((s.x d).toInt * (s.x r).toInt))
    (MulEffect d r s) (.mul d r) s := by
  obtain ⟨m, hexec, hpc, heffect⟩ := exec_mul_eq_endArith d r s
  exact overflowOutcome_of_endArith hexec (by rw [outOfRange_eq, decide_eq_true_iff]) hpc heffect heffect.advance

/-- SHLA takes its value and carry from the plain shift, and V from the exact product with 2^n (R184). -/
theorem exec_shla_outcome (d : Reg) (n : Fin 16) (s : State) : OverflowOutcome (fitsWord ((s.x d).toInt * 2 ^ n.val))
    (Committed d (s.x d <<< n.val) (resultFlags (s.x d <<< n.val) (lastBitOut (s.x d) n (16 - n.val) s.flagC)
      (some (decide (¬fitsWord ((s.x d).toInt * 2 ^ n.val))))) s) (.shla d n) s := by
  rw [← shlaOverflow_eq, ← carryLeft_eq, ← setZN_with]
  exact overflowOutcome_of_endArith rfl (by rw [shlaOverflow_eq, decide_eq_true_iff]) (by simp)
    (commit_committed ..) (commit_committed ..).advance

end

/-! ## Divisions -/

section
variable {i : Instr} {d r : Reg} {s : State}

/-- A division whose divisor is not 0 (R150). -/
theorem divideWrite_completes {w : Word} (hi : exec i s = divideWrite d w s) :
    ∃ (t : State) (c : Bool), exec i s = .next t ∧ t.pc = s.pc + 2#16 ∧
      Committed d w (resultFlags w (some c) (some false)) s t := by
  refine ⟨_, s.drawBit.1, hi, by simp [State.eis], ?_⟩
  rw [← setZN_with]
  exact (drawBit_commit_committed ..).advance

/-- DIV and MOD end alike where the divisor is 0 (R153, R154). -/
theorem exec_divideByZero (hi : i = .div d r ∨ i = .mod d r) (h : s.x r = 0#16) : exec i s = divideByZero d s := by
  rcases hi with rfl | rfl <;> exact if_pos h

theorem divideByZero_trap (d : Reg) (h : s.td = true) : divideByZero d s = enter 5#8 s.eis s := by
  rw [divideByZero, if_pos h]
  rfl

/-- A division by zero that does not trap by TD always overflows (R153). -/
theorem divideByZero_outcome (hi : exec i s = divideByZero d s) (h : s.td = false) :
    ∃ (w : Word) (z n c : Bool), OverflowOutcome False (Committed d w ⟨some z, some n, some c, some true⟩ s) i s := by
  rw [divideByZero_untrapped d h] at hi
  have hc (v : Word) (u : FlagUpdate) :
      Committed d v u s (s.drawWord.2.drawBit.2.drawBit.2.drawBit.2.commit d v u) :=
    commit_committed_of_same d v u (by simp) (by simp [SameMem]) (by simp [SameHost, SameControl])
  exact ⟨_, _, _, _, overflowOutcome_of_endArith hi (by simp) (by simp) (hc ..) (hc ..).advance⟩

end

/-! ## Conditional jumps after a comparison -/

section
variable {i : Instr} {c taken : Bool} {dif : Int} {x y : Word} {s t : State}

/-- A conditional jump changes pc alone (R240). -/
theorem exec_condJump (hi : exec i s = condJump c dif s) (hc : c = taken) :
    exec i s = .next { s with pc := if taken then s.pc + 2#16 + BitVec.ofInt 16 (2 * dif) else s.pc + 2#16 } := by
  rw [hi, ← hc]
  cases c <;> rfl

theorem flagZ_of_diffFlags (h : OnlyFlags (diffFlags x y false) s t) : t.flagZ = decide (x = y) := by
  obtain ⟨hflags, -⟩ := h
  have hz : t.flagZ = decide (x - y - carryWord false = 0#16) := hflags bitZ
  rw [hz, decide_eq_decide]
  simp [carryWord, BitVec.sub_eq_iff_eq_add]

theorem flagC_of_diffFlags (h : OnlyFlags (diffFlags x y false) s t) : t.flagC = decide (x.toNat < y.toNat) := by
  obtain ⟨hflags, -⟩ := h
  exact hflags bitC

/-- N and V of a difference disagree exactly when it is negative as an exact number (R251). -/
theorem diff_sign_bne_overflow (x y : Word) :
    ((x - y - carryWord false).getLsbD 15 != decide (¬fitsWord (x.toInt - y.toInt - false.toNat))) =
      decide (x.toInt < y.toInt) := by
  have hx := x.isLt
  have hy := y.isLt
  have hr := subb_toNat x y false
  rw [subb_r] at hr
  rw [← BitVec.msb_eq_getLsbD_last, msb_eq, hr, toInt_eq, toInt_eq, Bool.eq_iff_iff]
  simp only [bne_iff_ne, ne_eq, decide_eq_decide, decide_eq_true_eq, Bool.toNat_false]
  split <;> split <;> omega

theorem less_of_diffFlags (h : OnlyFlags (diffFlags x y false) s t) :
    (t.flagN != t.flagV) = decide (x.toInt < y.toInt) := by
  obtain ⟨hflags, -⟩ := h
  have hn : t.flagN = (x - y - carryWord false).getLsbD 15 := hflags bitN
  have hv : t.flagV = decide (¬fitsWord (x.toInt - y.toInt - false.toNat)) := hflags bitV
  rw [hn, hv, diff_sign_bne_overflow]

end

/-! ## The statements of spec/40_arithmetic.md -/

/-- Settles O27, by the outcome of each addition. -/
theorem additionsWriteTheSumAndItsFlags : Obligations.AdditionsWriteTheSumAndItsFlags :=
  fun d s => ⟨fun r => (exec_add_outcome d r s).completes, fun k => (exec_addi_outcome d k s).completes,
    fun r => (exec_addc_outcome d r s).completes⟩

/-- Settles O28, by the outcome of each subtraction; NEG subtracts from 0. -/
theorem subtractionsWriteTheDifferenceAndItsFlags : Obligations.SubtractionsWriteTheDifferenceAndItsFlags :=
  fun d s => ⟨fun r => (exec_sub_outcome d r s).completes, fun k => (exec_subi_outcome d k s).completes,
    fun r => (exec_subb_outcome d r s).completes, (exec_neg_outcome d s).completes⟩

/-- Settles O29, by the outcome of each comparison. -/
theorem comparisonsWriteFlagsAlone : Obligations.ComparisonsWriteFlagsAlone :=
  fun d s => ⟨fun r => (exec_cmp_outcome d r s).completes, fun k => (exec_cmpi_outcome d k s).completes⟩

/-- Settles O30, by the other half of the same outcomes. -/
theorem overflowTrapsAfterTheResultIsWritten : Obligations.OverflowTrapsAfterTheResultIsWritten := by
  intro d s htv
  refine ⟨fun r => (exec_add_outcome d r s).traps htv, fun k => (exec_addi_outcome d k s).traps htv,
    fun r => (exec_addc_outcome d r s).traps htv,
    fun r h => ⟨(exec_sub_outcome d r s).traps htv h, (exec_cmp_outcome d r s).traps htv h⟩,
    fun k h => ⟨(exec_subi_outcome d k s).traps htv h, (exec_cmpi_outcome d k s).traps htv h⟩,
    fun r => (exec_subb_outcome d r s).traps htv, fun hx => ?neg, fun r => (exec_mul_outcome d r s).traps htv,
    fun n h => ?shla⟩
  case neg =>
    have hneg := (exec_neg_outcome d s).traps htv (not_not.mpr hx)
    rwa [hx] at hneg
  case shla =>
    have hshla := (exec_shla_outcome d n s).traps htv h
    rwa [decide_eq_true h] at hshla

/-- Settles O31, by the two writes of MUL, the second at the level the first leaves. -/
theorem multiplicationWritesTheLowHalf : Obligations.MultiplicationWritesTheLowHalf :=
  fun d r s => (exec_mul_outcome d r s).completes

/-- Settles O32: the model's quotient and remainder are those that round toward zero (`divWord_eq`, `modWord_eq`). -/
theorem divisionTruncatesTowardZero : Obligations.DivisionTruncatesTowardZero := by
  intro d r s h
  rw [← divWord_eq, ← modWord_eq]
  exact ⟨divideWrite_completes (if_neg h), divideWrite_completes (if_neg h)⟩

/-- Settles O33: TD decides between DIV0 and an overflow, on which TV then acts as always. -/
theorem divisionByZeroTrapsOrOverflows : Obligations.DivisionByZeroTrapsOrOverflows := by
  intro d r s i hi h
  have hexec := exec_divideByZero hi h
  refine ⟨fun htd hready => ?_, fun htd htv => ?_, fun htd htv => ?_⟩
  · rw [hexec, divideByZero_trap d htd]
    exact enter_entered s.eis hready
  · obtain ⟨w, z, n, c, hout⟩ := divideByZero_outcome hexec htd
    obtain ⟨t, ht⟩ := hout.completes (.inr htv)
    exact ⟨t, w, z, n, c, ht⟩
  · obtain ⟨w, z, n, c, hout⟩ := divideByZero_outcome hexec htd
    exact ⟨w, z, n, c, hout.traps htv not_false⟩

/-- Settles O52: after CMP, Z is equality, C is `<` of the numbers, N against V is `<` of the signed numbers. -/
theorem jumpsAfterCmpCompareTheRegisters : Obligations.JumpsAfterCmpCompareTheRegisters := by
  intro d r dif s h
  obtain ⟨t, ht, -, hflags⟩ := (exec_cmp_outcome d r s).completes h
  have hz := flagZ_of_diffFlags hflags
  have hless := less_of_diffFlags hflags
  have hbelow := flagC_of_diffFlags hflags
  have hsigned : t.flagZ = decide ((s.x d).toInt = (s.x r).toInt) := by
    rw [hz, decide_eq_decide, BitVec.toInt_inj]
  have hunsigned : t.flagZ = decide ((s.x d).toNat = (s.x r).toNat) := by
    rw [hz, decide_eq_decide, BitVec.toNat_inj]
  refine ⟨t, ht, fun taken i hi => ?_⟩
  simp only [List.mem_cons, Prod.mk.injEq, List.not_mem_nil, or_false] at hi
  rcases hi with ⟨rfl, rfl⟩ | ⟨rfl, rfl⟩ | ⟨rfl, rfl⟩ | ⟨rfl, rfl⟩ | ⟨rfl, rfl⟩ | ⟨rfl, rfl⟩ | ⟨rfl, rfl⟩ |
    ⟨rfl, rfl⟩ | ⟨rfl, rfl⟩ | ⟨rfl, rfl⟩
  · exact exec_condJump rfl hz
  · exact exec_condJump rfl (by rw [hz, decide_not])
  · exact exec_condJump rfl hless
  · exact exec_condJump rfl (by rw [hless, hsigned, ← Bool.decide_or, decide_eq_decide]; omega)
  · exact exec_condJump rfl (by rw [hless, hsigned, ← Bool.decide_or, ← decide_not, decide_eq_decide]; omega)
  · exact exec_condJump rfl (by rw [hless, ← decide_not, decide_eq_decide]; omega)
  · exact exec_condJump rfl hbelow
  · exact exec_condJump rfl (by rw [hbelow, ← decide_not, decide_eq_decide]; omega)
  · exact exec_condJump rfl (by rw [hbelow, hunsigned, ← Bool.decide_or, ← decide_not, decide_eq_decide]; omega)
  · exact exec_condJump rfl (by rw [hbelow, hunsigned, ← Bool.decide_or, decide_eq_decide]; omega)

end Sys2Proof.Machine
end

section
/-! PROOFS. Bit n of a word written through its mask, the end of a logic instruction, which raises no exception, and the
statements of spec/41_bit_logic.md. -/

namespace Sys2Proof.Machine

/-! ## One bit of a word, by its mask (R166 to R168) -/

section
variable (w : Word) (n : Fin 16)

/-- The mask of SETBIT is the mask of `putBit`. -/
theorem or_bitMask : w ||| bitMask n = putBit w n.val true := rfl

/-- The mask of CLRBIT is the mask of `putBit`. -/
theorem and_not_bitMask : w &&& ~~~bitMask n = putBit w n.val false := rfl

theorem getLsbD_bitMask (j : Nat) : (bitMask n).getLsbD j = decide (j = n.val) := by
  rw [← BitVec.zero_or (x := bitMask n), or_bitMask, getLsbD_putBit _ _ _ n.isLt]
  simp

/-- Exclusive or with the mask of a bit complements that bit (R168). -/
theorem xor_bitMask : w ^^^ bitMask n = putBit w n.val (!w.getLsbD n.val) := by
  refine BitVec.eq_of_getLsbD_eq fun j _ => ?_
  rw [BitVec.getLsbD_xor, getLsbD_bitMask, getLsbD_putBit _ _ _ n.isLt]
  by_cases h : j = n.val <;> simp [h]

end

/-! ## The end of a logic or bit instruction: its effect, always -/

section
variable {i : Instr} {d : Reg} {n : Fin 16} {w : Word} {b : Bool} {u : FlagUpdate} {s : State}

/-- An instruction that writes its result writes Z and N with it (R160 to R163). -/
theorem logicWrite_completes (hi : exec i s = logicWrite d w s) :
    ∃ t : State, exec i s = .next t ∧ t.pc = s.pc + 2#16 ∧ Committed d w (resultFlags w none none) s t := by
  refine ⟨_, hi, by simp [State.eis], ?_⟩
  rw [← setZN_eq]
  exact (commit_committed ..).advance

/-- An instruction that writes flags alone (R164, R165). -/
theorem setFlags_completes (hi : exec i s = .next (s.setFlags u).advance) :
    ∃ t : State, exec i s = .next t ∧ t.pc = s.pc + 2#16 ∧ OnlyFlags u s t :=
  ⟨_, hi, by simp [State.eis], (setFlags_onlyFlags ..).advance⟩

/-- SETBIT, CLRBIT and CPLBIT write their register with bit n put to the value each of them gives it (R166 to R168). -/
theorem exec_bitOperation (h : (i = .setbit d n ∧ b = true) ∨ (i = .clrbit d n ∧ b = false) ∨
    (i = .cplbit d n ∧ b = !(s.x d).getLsbD n.val)) : exec i s = logicWrite d (putBit (s.x d) n.val b) s := by
  rcases h with ⟨rfl, rfl⟩ | ⟨rfl, rfl⟩ | ⟨rfl, rfl⟩
  case inl => rw [← or_bitMask]; rfl
  case inr.inl => rw [← and_not_bitMask]; rfl
  case inr.inr => rw [← xor_bitMask]; rfl

end

/-! ## The statements of spec/41_bit_logic.md -/

/-- Settles O34; NOT is the exclusive or with all ones. -/
theorem logicWritesTheResultWithZeroAndSign : Obligations.LogicWritesTheResultWithZeroAndSign := by
  intro d r s
  refine ⟨logicWrite_completes rfl, logicWrite_completes rfl, ?not, logicWrite_completes rfl⟩
  case not =>
    rw [← BitVec.xor_allOnes]
    exact logicWrite_completes rfl

/-- Settles O35: both end in a flag assignment without a destination. -/
theorem testAndBitWriteFlagsAlone : Obligations.TestAndBitWriteFlagsAlone := by
  refine fun d s => ⟨fun r => ?test, fun n => setFlags_completes rfl⟩
  case test =>
    rw [← setZN_eq]
    exact setFlags_completes rfl

/-- Settles O36: what is written is the register with bit n put (`exec_bitOperation`). -/
theorem bitOperationsChangeOneBit : Obligations.BitOperationsChangeOneBit := by
  intro d n s i b h
  obtain ⟨t, hexec, hpc, hcommitted⟩ := logicWrite_completes (exec_bitOperation h)
  exact ⟨t, putBit (s.x d) n.val b, hexec, hpc, getLsbD_putBit (s.x d) n.val b n.isLt, hcommitted⟩

end Sys2Proof.Machine
end

section
/-! PROOFS. The end of a shift or rotate, which raises no exception unless it is SHLA, and the statements of
spec/42_shift_rotate.md. What each operation computes stands in Laws/Alu. -/

namespace Sys2Proof.Machine

/-! ## The end of a shift or rotate that does not write V: its effect, always -/

section
variable {i : Instr} {d : Reg} {x : ShiftResult} {s : State}

/-- A shift or rotate that does not write V completes with its value, Z and N of that value and its carry (R180). -/
theorem shiftWrite_completes (hi : exec i s = shiftWrite d x s) :
    ∃ t : State, exec i s = .next t ∧ t.pc = s.pc + 2#16 ∧ Committed d x.r (resultFlags x.r (some x.c) none) s t := by
  refine ⟨_, hi, by simp [State.eis], ?_⟩
  rw [← ShiftResult.flags_eq]
  exact (commit_committed ..).advance

/-- The same for an operation known by a property of its value and by its carry. -/
theorem shiftWrite_completes_of_value {P : Word → Prop} {c : Option Bool} (hi : exec i s = shiftWrite d x s)
    (hvalue : P x.r) (hcarry : some x.c = c) :
    ∃ (t : State) (w : Word), exec i s = .next t ∧ t.pc = s.pc + 2#16 ∧ P w ∧
      Committed d w (resultFlags w c none) s t := by
  obtain ⟨t, hexec, hpc, hcommitted⟩ := shiftWrite_completes hi
  rw [hcarry] at hcommitted
  exact ⟨t, x.r, hexec, hpc, hvalue, hcommitted⟩

/-- The same for a rotation through the carry, known by the ring its value and its carry make (R187, R188). -/
theorem shiftWrite_completes_of_ring {P : Word → Bool → Prop} (hi : exec i s = shiftWrite d x s) (hring : P x.r x.c) :
    ∃ (t : State) (w : Word) (c : Bool), exec i s = .next t ∧ t.pc = s.pc + 2#16 ∧ P w c ∧
      Committed d w (resultFlags w (some c) none) s t := by
  obtain ⟨t, hexec, hpc, hcommitted⟩ := shiftWrite_completes hi
  exact ⟨t, x.r, x.c, hexec, hpc, hring, hcommitted⟩

end

/-! ## The statements of spec/42_shift_rotate.md -/

/-- Settles O37: each value is the exact quotient or product of `shiftRight_r`, `shiftLeft_r`, `shiftRightArith_r`. -/
theorem shiftsScaleByAPowerOfTwo : Obligations.ShiftsScaleByAPowerOfTwo := by
  intro d n s
  refine ⟨?shr, ?shl, ?shra⟩
  case shr => exact shiftWrite_completes_of_value rfl (shiftRight_r ..) (carryRight_eq ..)
  case shl => exact shiftWrite_completes_of_value rfl (shiftLeft_r ..) (carryLeft_eq ..)
  case shra => exact shiftWrite_completes_of_value rfl (shiftRightArith_r ..) (carryRight_eq ..)

/-- Settles O38: the end of SHLA that no EXCESSO follows. -/
theorem shlaOverflowsWhenTheProductDoesNotFit : Obligations.ShlaOverflowsWhenTheProductDoesNotFit :=
  fun d n s => (exec_shla_outcome d n s).completes

/-- Settles O39: every bit goes n places round the word (`rotRight_bit`, `rotLeft_bit`). -/
theorem rotatesMoveBitsRoundTheRegister : Obligations.RotatesMoveBitsRoundTheRegister := by
  intro d n s
  refine ⟨?ror, ?rol⟩
  case ror => exact shiftWrite_completes_of_value rfl (fun j => rotRight_bit (s.x d) n s.flagC) (carryRight_eq ..)
  case rol => exact shiftWrite_completes_of_value rfl (fun j => rotLeft_bit (s.x d) n s.flagC) (carryLeft_eq ..)

/-- Settles O40: every bit goes n places round the ring (`rotRightCarry_bit`, `rotLeftCarry_bit`). -/
theorem rotatesThroughCarryMoveBitsRoundTheRing : Obligations.RotatesThroughCarryMoveBitsRoundTheRing := by
  intro d n s
  refine ⟨?rorc, ?rolc⟩
  case rorc => exact shiftWrite_completes_of_ring rfl fun j => rotRightCarry_bit (s.x d) n s.flagC
  case rolc => exact shiftWrite_completes_of_ring rfl fun j => rotLeftCarry_bit (s.x d) n s.flagC

end Sys2Proof.Machine
end

section
/-! PROOFS. The end of a move, a load and a store, said once for each of them, what a sequence of register writes leaves
(`Moved`), and the statements of spec/43_data_transfer.md. -/

namespace Sys2Proof.Machine

/-! ## What a register write leaves, read back by number -/

section
variable {d r : Reg} {v w : Word} {s m t : State}

theorem Moved.advance (h : Moved d v s m) : Moved d v s m.advance := by
  simpa [Moved, SameRegsBut, SameMem, SameHost, SameControl] using h

theorem Moved.get (h : Moved d v s t) : t.get (Reg.phys s.np d) = v := by
  obtain ⟨hd, -⟩ := h
  exact hd

theorem Moved.sameRegsBut (h : Moved d v s t) : SameRegsBut [Reg.phys s.np d] s t := by
  obtain ⟨-, hregs, -⟩ := h
  exact hregs

theorem Moved.sameMem (h : Moved d v s t) : SameMem s t := by
  obtain ⟨-, -, hmem, -⟩ := h
  exact hmem

theorem Moved.sameHost (h : Moved d v s t) : SameHost s t := by
  obtain ⟨-, -, -, hhost⟩ := h
  exact hhost

theorem Moved.get_of_ne {p : Phys} (h : Moved d v s t) (hp : p ≠ Reg.phys s.np d) : t.get p = s.get p :=
  h.sameRegsBut p (by simpa using hp)

/-- The protection level changes only with RE (R38). -/
theorem Moved.np (h : Moved d v s t) (hd : d ≠ .re) : t.np = s.np :=
  np_congr (h.get_of_ne fun e => hd ((phys_eq_re s.np d).mp e.symm))

/-- The register written is read back by its number: the write of RE alone changes which stack pointer 12 denotes. -/
theorem Moved.x_self (h : Moved d v s t) : t.x d = v := by
  have hphys : Reg.phys t.np d = Reg.phys s.np d :=
    phys_inj.mpr ⟨rfl, fun hsp => h.np (by simp [hsp])⟩
  rw [State.x, hphys, h.get]

/-- Another number denotes the register it did, with the value it had, unless RE was written and it is 12 (R24). -/
theorem Moved.x_of_ne (h : Moved d v s t) (hne : r ≠ d) (hsp : ¬(d = .re ∧ r = .sp)) : t.x r = s.x r := by
  have hphys : Reg.phys t.np r = Reg.phys s.np r :=
    phys_inj.mpr ⟨rfl, fun hr => h.np fun hd => hsp ⟨hd, hr⟩⟩
  rw [State.x, hphys, h.get_of_ne (by simp [phys_inj, hne])]
  rfl

/-- A register that takes the value it had leaves every register as it was. -/
theorem Moved.get_of_x (h : Moved d (s.x d) s t) (p : Phys) : t.get p = s.get p := by
  by_cases hp : p = Reg.phys s.np d
  · rw [hp, h.get]
    rfl
  · exact h.get_of_ne hp

/-- A word stored before a register is written. -/
theorem StoredWord.moved {ea : Word} (h : StoredWord ea v s m) (hm : Moved d w m t) : StoredWord ea v s t := by
  obtain ⟨hhigh, hlow, hothers, hdev⟩ := h
  obtain ⟨-, hdev'⟩ := hm.sameHost
  have hmem := hm.sameMem
  exact ⟨(hmem _).trans hhigh, (hmem _).trans hlow, fun a h1 h2 => (hmem a).trans (hothers a h1 h2),
    hdev'.trans hdev⟩

/-- A word stored after a register was written, told from the state before both. -/
theorem Moved.storedWord {ea : Word} (hm : Moved d w s m) (h : StoredWord ea v m t) : StoredWord ea v s t := by
  obtain ⟨⟨-, -, -, -, -, -, -, hmap⟩, hdev⟩ := hm.sameHost
  have hmem := hm.sameMem
  have hbyte (a : Word) (b : Byte) : byteAfterWrite m a b = byteAfterWrite s a b := by
    rw [byteAfterWrite, byteAfterWrite, kindAt_congr hmap, hmem]
  obtain ⟨hhigh, hlow, hothers, hdev'⟩ := h
  refine ⟨hhigh.trans (hbyte ..), hlow.trans (hbyte ..), fun a h1 h2 => (hothers a h1 h2).trans (hmem a), ?_⟩
  rw [hdev', hdev, kindAt_congr hmap, kindAt_congr hmap]

theorem SameControl.trans (h1 : SameControl s m) (h2 : SameControl m t) : SameControl s t := by
  simp_all [SameControl]

end

/-! ## The end of a move, a load and a store -/

section
variable {i : Instr} {d : Reg} {ea v w : Word} {p : Device} {s m : State}

/-- An instruction that ends by a move, from a state `m` in which it may have read a peripheral or drawn a value. -/
theorem moveTo_completes (hi : exec i s = moveTo d v m) :
    ∃ t : State, exec i s = .next t ∧ t.pc = m.pc + 2#16 ∧ Moved d v m t :=
  ⟨_, hi, by simp [State.eis], (setX_moved m d v).advance⟩

/-- An instruction that loads a word it can read (R201, R202, R208). -/
theorem loadTo_completes (hi : exec i s = loadTo d ea s) (h : s.readWord ea = .value w p) :
    ∃ t : State, exec i s = .next t ∧ t.pc = s.pc + 2#16 ∧ Moved d w (s.withDev p) t :=
  moveTo_completes (m := s.withDev p) (hi.trans (loadWord_value _ h))

/-- An instruction that stores a word where the map lets it (R203, R204, R209). -/
theorem storeAt_completes (hi : exec i s = storeAt ea v s) (h : WordWritable s ea) :
    ∃ t : State, exec i s = .next t ∧ t.pc = s.pc + 2#16 ∧ StoredWord ea v s t ∧ SameRegsBut [] s t ∧
      SameControl s t := by
  obtain ⟨hregs, hpc, hcontrol⟩ := putWord_frame s ea v
  refine ⟨(s.putWord ea v).advance, hi.trans (storeWord_done v _ h), ?_, putWord_storedWord s ea v, ?_, hcontrol⟩
  · rw [advance_pc, State.eis, hpc]
  · exact fun q hq => (advance_get _ q).trans (hregs q hq)

/-- D_DESALINHADO has index 8 and saves the address of the next instruction (R302, R311). -/
theorem takeException_dDesalinhado (s : State) : takeException .dDesalinhado s = enter 8#8 (s.pc + 2#16) s := rfl

theorem loadWord_traps (k : Word → State → Result) (h : isOdd ea = true) :
    loadWord s ea k = enter 8#8 (s.pc + 2#16) s :=
  (loadWord_odd k h).trans (takeException_dDesalinhado s)

theorem storeWord_traps (k : State → Result) (h : isOdd ea = true) :
    storeWord s ea v k = enter 8#8 (s.pc + 2#16) s :=
  (storeWord_odd v k h).trans (takeException_dDesalinhado s)

end

/-! ## Constants and bytes as words -/

/-- The constant of MOVL is the number it stands for (R111). -/
theorem constWord_toInt {k : Int} (h1 : -128 ≤ k) (h2 : k ≤ 127) : (constWord k).toInt = k := by
  rw [constWord, BitVec.toInt_ofInt]
  exact Int.bmod_eq_of_le (by omega) (by omega)

theorem zextByte_eq (b : Byte) : zextByte b = 0x00#8 ++ b := BitVec.setWidth_eq_append (by decide)

theorem sextByte_eq (b : Byte) : sextByte b = BitVec.ofInt 16 b.toInt := rfl

/-! ## RCN written -/

/-- Writing RCN changes no other register (R219). -/
theorem writeRcn_get (s : State) (v : Word) {p : Phys} (hp : p ≠ .rcn) : (s.writeRcn v).get p = s.get p := by
  cases p
  case rcn => exact absurd rfl hp
  all_goals rfl

/-! ## The instructions that write more than one register, or a register and memory -/

/-- The three lines of SWAPR (R224), from `s` to `t`: TEMP takes the first register, the first register takes the second
one, and the second one, by the number it then has, takes TEMP. -/
structure SwaprMoves (d r : Reg) (s u m t : State) : Prop where
  save : Moved .temp (s.x d) s u
  first : Moved d (u.x r) u m
  second : Moved r m.temp m t

section
variable {d r : Reg} {s u m t : State}

theorem exec_swapr_moves (d r : Reg) (s : State) :
    ∃ u m t : State, exec (.swapr d r) s = .next t ∧ t.pc = s.pc + 2#16 ∧ SwaprMoves d r s u m t :=
  ⟨s.setX .temp (s.x d), _, _, rfl, by simp [State.eis], setX_moved .., setX_moved .., (setX_moved ..).advance⟩

/-- The first line of SWAPR does not change the level. -/
theorem SwaprMoves.np (h : SwaprMoves d r s u m t) : u.np = s.np := h.save.np (by simp)

theorem SwaprMoves.sameRegsBut (h : SwaprMoves d r s u m t) :
    SameRegsBut [.temp, Reg.phys s.np d, Reg.phys m.np r] s t := by
  have hregs := (h.save.sameRegsBut.trans h.first.sameRegsBut).trans h.second.sameRegsBut
  rwa [h.np] at hregs

/-- TEMP holds the old first register until the third line, except where it is itself the first register. -/
theorem SwaprMoves.temp (h : SwaprMoves d r s u m t) (hd : d ≠ .temp) : m.temp = s.x d :=
  (h.first.x_of_ne (r := .temp) (Ne.symm hd) (by simp)).trans h.save.x_self

/-- SWAPR of two registers other than TEMP, the level unchanged before the second one is written (R224). -/
theorem SwaprMoves.exchange (h : SwaprMoves d r s u m t) (hd : d ≠ .temp) (hr : r ≠ .temp)
    (hlevel : ¬(d = .re ∧ r = .sp)) :
    t.temp = s.x d ∧ t.get (Reg.phys s.np d) = s.x r ∧ t.get (Reg.phys s.np r) = s.x d ∧
      SameRegsBut [.temp, Reg.phys s.np d, Reg.phys s.np r] s t := by
  have hphys : Reg.phys m.np r = Reg.phys s.np r :=
    phys_inj.mpr ⟨rfl, fun hsp => (h.first.np fun hre => hlevel ⟨hre, hsp⟩).trans h.np⟩
  have hsecond := h.second.get
  have hregs := h.sameRegsBut
  rw [hphys, h.temp hd] at hsecond
  rw [hphys] at hregs
  refine ⟨(h.second.x_of_ne (r := .temp) (Ne.symm hr) (by simp)).trans (h.temp hd), ?first, hsecond, hregs⟩
  case first =>
    by_cases hdr : d = r
    · rw [hdr, hsecond, hdr]
    · have hfirst := h.first.get
      rw [h.np, h.save.x_of_ne hr (by simp)] at hfirst
      rw [h.second.get_of_ne (by simp [phys_inj, hdr, hphys]), hfirst]

/-- SWAPR RE, SP: the stack pointer written is that of the level the new RE gives (decision D38). -/
theorem SwaprMoves.re_sp (h : SwaprMoves .re .sp s u m t) :
    t.temp = s.re ∧ t.re = s.x .sp ∧ t.get (Reg.phys t.np .sp) = s.re ∧
      SameRegsBut [.temp, .re, Reg.phys t.np .sp] s t := by
  have htemp : m.temp = s.re := h.temp (by simp)
  have hre : m.re = s.x .sp := h.first.x_self.trans (h.save.x_of_ne (by simp) (by simp))
  have hsecond := h.second.get
  have hregs := h.sameRegsBut
  rw [← h.second.np (by simp)] at hsecond hregs
  exact ⟨(h.second.x_of_ne (r := .temp) (by simp) (by simp)).trans htemp,
    (h.second.x_of_ne (r := .re) (by simp) (by simp)).trans hre, hsecond.trans htemp, hregs⟩

/-- SWAPR TEMP, Rs: the third line writes Rs back to itself (decision D38). -/
theorem SwaprMoves.temp_first (h : SwaprMoves .temp r s u m t) (hr : r ≠ .temp) :
    t.temp = s.x r ∧ SameRegsBut [.temp] s t := by
  have htemp : m.temp = u.x r := h.first.x_self
  have hback : m.temp = m.x r := htemp.trans (h.first.x_of_ne hr (by simp)).symm
  have hsecond := h.second
  rw [hback] at hsecond
  refine ⟨(hsecond.get_of_x .temp).trans (htemp.trans (h.save.x_of_ne hr (by simp))), fun p hp => ?_⟩
  rw [hsecond.get_of_x, h.first.sameRegsBut p hp, h.save.sameRegsBut p hp]

/-- SWAPR Rd, TEMP: the second line writes Rd back to itself (decision D38). -/
theorem SwaprMoves.temp_second (h : SwaprMoves d .temp s u m t) : t.temp = s.x d ∧ SameRegsBut [.temp] s t := by
  have hutemp : u.x .temp = s.x d := h.save.x_self
  have htemp : m.temp = s.x d := by
    by_cases hd : d = .temp
    · subst hd
      exact h.first.x_self.trans hutemp
    · exact h.temp hd
  have hfirst := h.first.get
  rw [h.np, hutemp] at hfirst
  refine ⟨h.second.x_self.trans htemp, fun p hp => ?_⟩
  rw [h.second.sameRegsBut p hp]
  by_cases hpd : p = Reg.phys s.np d
  · rw [hpd, hfirst]
    rfl
  · rw [h.first.get_of_ne (h.np ▸ hpd), h.save.sameRegsBut p hp]

end

section
variable {d r : Reg} {v w : Word} {p : Device} {s : State}

/-- SWAPM is a load, then a store from the state with TEMP written (R225). -/
theorem exec_swapm (d r : Reg) (s : State) :
    exec (.swapm d r) s = loadWord s (s.x r) fun w u =>
      storeWord (u.setX .temp w) (s.x r) ((u.setX .temp w).x d) fun m => .next (m.setX d m.temp).advance := rfl

/-- The lines of SWAPM (R225): the word read to TEMP, the register stored, TEMP to the register. -/
theorem exec_swapm_moves (d : Reg) (hv : s.readWord (s.x r) = .value w p) (hw : WordWritable s (s.x r)) :
    ∃ u m t : State, exec (.swapm d r) s = .next t ∧ t.pc = s.pc + 2#16 ∧ Moved .temp w (s.withDev p) u ∧
      (StoredWord (s.x r) (u.x d) u m ∧ SameRegsBut [] u m ∧ SameControl u m) ∧ Moved d w m t := by
  let u := (s.withDev p).setX .temp w
  let m := u.putWord (s.x r) (u.x d)
  have htemp : m.temp = w := putWord_temp ..
  have hexec : exec (.swapm d r) s = .next (m.setX d m.temp).advance :=
    ((exec_swapm d r s).trans (loadWord_value _ hv)).trans (storeWord_done (s := u) _ _ hw)
  rw [htemp] at hexec
  obtain ⟨hregs, hpc, hcontrol⟩ := putWord_frame u (s.x r) (u.x d)
  refine ⟨u, m, _, hexec, ?_, setX_moved .., ⟨putWord_storedWord .., hregs, hcontrol⟩, (setX_moved ..).advance⟩
  rw [advance_pc, State.eis, setX_pc, hpc]
  rfl

/-- The lines of PUSH (R226): the register stored, then the stack pointer lowered. -/
theorem exec_push_moves (r : Reg) (h : WordWritable s (pushAddr s)) :
    ∃ m t : State, exec (.push r) s = .next t ∧ t.pc = s.pc + 2#16 ∧
      (StoredWord (pushAddr s) (s.x r) s m ∧ SameRegsBut [] s m ∧ SameControl s m) ∧ Moved .sp (pushAddr s) m t := by
  obtain ⟨hregs, hpc, hcontrol⟩ := putWord_frame s (pushAddr s) (s.x r)
  refine ⟨s.putWord (pushAddr s) (s.x r), _, storeWord_done _ _ h, ?_, ⟨putWord_storedWord .., hregs, hcontrol⟩,
    (setX_moved ..).advance⟩
  rw [advance_pc, State.eis, setX_pc, hpc]

/-- The lines of POP (R227): the word read to the register, then the stack pointer that RE selects by then raised. -/
theorem exec_pop_moves (d : Reg) (hv : s.readWord (s.x .sp) = .value v p) :
    ∃ m t : State, exec (.pop d) s = .next t ∧ t.pc = s.pc + 2#16 ∧ Moved d v (s.withDev p) m ∧
      Moved .sp (m.x .sp + 2#16) m t :=
  ⟨(s.withDev p).setX d v, _, (loadWord_value _ hv : execPop d s = _), by simp [State.eis], setX_moved ..,
    (setX_moved ..).advance⟩

end

/-! ## The statements of spec/43_data_transfer.md -/

/-- Settles O25: a field of RCN is its two bits (`nsi_eq_iff`), and RCN is auxiliary register 0. -/
theorem movarWritesRcnAndRestartsDetectors : Obligations.MovarWritesRcnAndRestartsDetectors := by
  intro a r s
  by_cases ha : a = 0
  case pos =>
    have hexec : exec (.movar a r) s = .next (s.writeRcn (s.x r)).advance := if_pos ha
    refine ⟨_, hexec, rfl, fun _ => rfl, rfl, rfl, rfl, rfl, rfl, rfl, rfl,
      fun _ => ⟨rfl, fun p hp => ?others, fun i same hsame => ?pins⟩, fun h => absurd ha h⟩
    case others => exact (advance_get _ p).trans (writeRcn_get s _ (by simpa using hp))
    case pins =>
      simp only [← nsi_eq_iff] at hsame
      subst hsame
      simp
  case neg =>
    have hexec : exec (.movar a r) s = .next s.advance := if_neg ha
    exact ⟨_, hexec, rfl, fun _ => rfl, rfl, rfl, rfl, rfl, rfl, rfl, rfl, fun h => absurd h ha,
      fun _ => ⟨fun p _ => advance_get s p, rfl, rfl⟩⟩

/-- Settles O41: LDO, LDR and LDP differ in their effective address alone. -/
theorem wordLoadsWriteTheirDestinationAlone : Obligations.WordLoadsWriteTheirDestinationAlone := by
  intro d r s
  refine ⟨fun off w p h => loadTo_completes rfl h, fun i w p h => loadTo_completes rfl h,
    fun w p h => loadTo_completes rfl h, fun hi lo l ho p1 p2 hl => ?device⟩
  case device =>
    have hexec : exec (.ldp d r) s = moveTo d (hi ++ lo) _ :=
      loadWord_device _ ho (.inl p1) (takeByte_answered p1 hl) (takeByte_answered p2 rfl)
    obtain ⟨t, ht, -, hd, -, hmem, -, hdev⟩ := moveTo_completes hexec
    exact ⟨t, ht, hd, hmem, by rw [hdev]; rfl, by rw [hdev]; rfl⟩

/-- Settles O42: STO, STR and STP differ in their effective address alone. -/
theorem wordStoresWriteTheirWordAlone : Obligations.WordStoresWriteTheirWordAlone :=
  fun _ _ _ => ⟨fun _ h => storeAt_completes rfl h, fun _ h => storeAt_completes rfl h,
    fun h => storeAt_completes rfl h⟩

/-- Settles O43: each of these instructions begins with its access; SP - 2 is odd when SP is. -/
theorem misalignedAccessTrapsWithNothingChanged : Obligations.MisalignedAccessTrapsWithNothingChanged := by
  intro d r i s
  refine ⟨fun off h => ⟨loadWord_traps _ h, storeWord_traps _ h⟩, fun h => ⟨loadWord_traps _ h, storeWord_traps _ h⟩,
    fun h => ⟨loadWord_traps _ h, storeWord_traps _ h, (exec_swapm d r s).trans (loadWord_traps _ h)⟩,
    fun h => ?stack⟩
  case stack =>
    have hpush : isOdd (pushAddr s) = true := (isOdd_sub_two (s.x .sp)).trans h
    exact ⟨storeWord_traps _ hpush, (loadWord_traps _ h : execPop d s = _), fun dif => storeWord_traps _ hpush,
      storeWord_traps _ hpush, (loadWord_traps _ h : execRet s = _)⟩

/-- Settles O44: LDB and LDBS end by a move of the extended byte, STB by `memWriteByte`. -/
theorem byteTransfersReachAnyAddress : Obligations.ByteTransfersReachAnyAddress := by
  intro d r s
  refine ⟨fun b p h => ⟨?ldb, ?ldbs⟩, fun h => ?stb⟩
  case ldb =>
    rw [← zextByte_eq]
    exact moveTo_completes (m := s.withDev p) (loadByte_value _ h)
  case ldbs =>
    rw [← sextByte_eq]
    exact moveTo_completes (m := s.withDev p) (loadByte_value _ h)
  case stb =>
    obtain ⟨hregs, hpc, hcontrol⟩ := memWriteByte_frame s (s.x d) (lowByte (s.x r))
    refine ⟨_, (storeByte_done _ _ h : execStb d r s = _), ?_, ?_, fun a ha => ?_, fun q hq => ?_, hcontrol, ?_⟩
    · rw [advance_pc, State.eis, hpc]
    · rw [advance_readByte, readByte_memWriteByte, if_pos rfl, lowByte]
    · rw [advance_readByte, readByte_memWriteByte, if_neg ha]
    · rw [advance_get, hregs q hq]
    · rw [advance_dev, memWriteByte_dev, note_eq, isDevice_eq, lowByte]
      simp

/-- Settles O45; MOVUR alone writes a register that it does not name by number. -/
theorem movesWriteTheirDestinationAlone : Obligations.MovesWriteTheirDestinationAlone := by
  intro d r s
  refine ⟨fun k h1 h2 => ?movl, fun k => moveTo_completes rfl, moveTo_completes rfl, moveTo_completes rfl, ?movur⟩
  case movl =>
    obtain ⟨t, ht, hpc, hmoved⟩ := moveTo_completes (i := .movl d k) (s := s) rfl
    exact ⟨t, constWord k, ht, hpc, constWord_toInt h1 h2, hmoved⟩
  case movur =>
    refine ⟨_, rfl, by simp [State.eis], rfl, fun p hp => ?_, fun a => by simp, by simp [SameHost, SameControl]⟩
    rw [advance_get, get_set_ne s _ (by simpa using hp)]

/-- Settles O46: a number other than RCN's draws a free value, which changes nothing the statement names. -/
theorem movraReadsRcnOrAFreeValue : Obligations.MovraReadsRcnOrAFreeValue := by
  intro d a s
  by_cases ha : a = 0
  case pos =>
    obtain ⟨t, ht, hpc, hmoved⟩ := moveTo_completes (i := .movra d a) (s := s) (if_pos ha)
    exact ⟨t, s.rcn, ht, hpc, hmoved, fun _ => rfl⟩
  case neg =>
    have hexec : exec (.movra d a) s = moveTo d s.drawWord.1 s.drawWord.2 := if_neg ha
    exact ⟨_, s.drawWord.1, hexec, by simp [State.eis], (drawWord_setX_moved ..).advance, fun h => absurd h ha⟩

/-- Settles O47: in each of the four cases the three lines of SWAPR are followed in their order (`SwaprMoves`). -/
theorem swaprExchangesThroughTemp : Obligations.SwaprExchangesThroughTemp := by
  intro d r s
  obtain ⟨u, m, t, hexec, hpc, h⟩ := exec_swapr_moves d r s
  refine ⟨t, hexec, hpc, (h.save.sameMem.trans h.first.sameMem).trans h.second.sameMem,
    (h.save.sameHost.trans h.first.sameHost).trans h.second.sameHost, h.exchange, ?reThenSp, ?tempFirst, ?tempSecond⟩
  case reThenSp => rintro rfl rfl; exact h.re_sp
  case tempFirst => rintro rfl hr; exact h.temp_first hr
  case tempSecond => rintro rfl; exact h.temp_second

/-- Settles O48, by following the lines of SWAPM (`exec_swapm_moves`). -/
theorem swapmExchangesWithMemory : Obligations.SwapmExchangesWithMemory := by
  intro d r s w p hv hw
  obtain ⟨u, m, t, hexec, hpc, hu, ⟨hstored, hregs, hcontrol⟩, ht⟩ := exec_swapm_moves d hv hw
  have hmnp : m.np = s.np := (np_congr (hregs .re (by simp))).trans (hu.np (by simp))
  have hud : u.x d = if d = .temp then w else s.x d := by
    split
    case isTrue hd =>
      subst hd
      exact hu.x_self
    case isFalse hd => exact hu.x_of_ne hd (by simp)
  have hmtemp : m.temp = w := (hregs .temp (by simp)).trans hu.x_self
  rw [hud] at hstored
  obtain ⟨hucontrol, -⟩ := hu.sameHost
  obtain ⟨htcontrol, -⟩ := ht.sameHost
  have htd := ht.get
  have htregs := ht.sameRegsBut
  rw [hmnp] at htd htregs
  refine ⟨t, hexec, hpc, ?temp, htd, hu.storedWord (hstored.moved ht), (hu.sameRegsBut.trans hregs).trans htregs,
    (hucontrol.trans hcontrol).trans htcontrol⟩
  case temp =>
    by_cases hd : d = .temp
    · subst hd
      exact ht.x_self
    · exact (ht.x_of_ne (r := .temp) (Ne.symm hd) (by simp)).trans hmtemp

/-- Settles O49: the register is read before SP is written. -/
theorem pushStoresBelowTheStackPointer : Obligations.PushStoresBelowTheStackPointer := by
  intro r s h
  obtain ⟨m, t, hexec, hpc, ⟨hstored, hregs, hcontrol⟩, ht⟩ := exec_push_moves r h
  have hmnp : m.np = s.np := np_congr (hregs .re (by simp))
  obtain ⟨htcontrol, -⟩ := ht.sameHost
  have hsp := ht.get
  have htregs := ht.sameRegsBut
  rw [hmnp] at hsp htregs
  exact ⟨t, hexec, hpc, hstored.moved ht, hsp, hregs.trans htregs, hcontrol.trans htcontrol⟩

/-- Settles O50, by following the lines of POP (`exec_pop_moves`); RE as destination chooses the stack pointer. -/
theorem popLoadsAndRaisesTheStackPointer : Obligations.PopLoadsAndRaisesTheStackPointer := by
  intro d s v p hv
  obtain ⟨m, t, hexec, hpc, hm, ht⟩ := exec_pop_moves d hv
  have htnp : t.np = m.np := ht.np (by simp)
  have htsp := ht.get
  have hregs := hm.sameRegsBut.trans ht.sameRegsBut
  refine ⟨t, hexec, hpc, hm.sameMem.trans ht.sameMem, hm.sameHost.trans ht.sameHost, fun hsp hre => ?plain,
    fun hd => ?sp, fun hd => ?re⟩
  case plain =>
    have hmnp : m.np = s.np := hm.np hre
    have hmsp : m.x .sp = s.x .sp := hm.x_of_ne (Ne.symm hsp) (by simp [hre])
    rw [hmnp, hmsp] at htsp
    rw [hmnp] at hregs
    exact ⟨(ht.get_of_ne (by simp [phys_inj, hsp])).trans hm.get, htsp, hregs⟩
  case sp =>
    subst hd
    have hmnp : m.np = s.np := hm.np (by simp)
    rw [hmnp, hm.x_self] at htsp
    rw [hmnp] at hregs
    exact ⟨htsp, fun q hq => hregs q (by simpa using hq)⟩
  case re =>
    subst hd
    rw [← htnp] at htsp hregs
    have hmsp : m.x .sp = s.get (Reg.phys t.np .sp) := by
      rw [htnp]
      exact hm.get_of_ne (by simp [phys_inj])
    rw [hmsp] at htsp
    exact ⟨(ht.x_of_ne (r := .re) (by simp) (by simp)).trans hm.x_self, htsp, hregs⟩

end Sys2Proof.Machine
end

section
/-! PROOFS. The conditional jumps by the condition each tests (`condJumpTable`), the end of a call, a return and a
return from exception, said once for each of them, and the statements of spec/44_control_flow.md. -/

namespace Sys2Proof.Machine

/-! ## Conditional jumps -/

/-- Each conditional jump with its condition on the flags of `s` (R241 to R256). -/
def condJumpTable (dif : Int) (s : State) : List (Instr × Bool) :=
  [(.jz dif, s.flagZ), (.jnz dif, !s.flagZ), (.jn dif, s.flagN), (.jnn dif, !s.flagN), (.jp dif, !s.flagN && !s.flagZ),
    (.jnp dif, s.flagN || s.flagZ), (.jc dif, s.flagC), (.jnc dif, !s.flagC), (.jv dif, s.flagV), (.jnv dif, !s.flagV),
    (.jlt dif, s.flagN != s.flagV), (.jle dif, s.flagN != s.flagV || s.flagZ),
    (.jgt dif, s.flagN == s.flagV && !s.flagZ), (.jge dif, s.flagN == s.flagV), (.ja dif, !s.flagC && !s.flagZ),
    (.jbe dif, s.flagC || s.flagZ)]

section
variable {i : Instr} {taken : Bool} {dif : Int} {s t : State}

/-- An instruction of the table is the conditional jump on its condition; the model states JP, JGT, JGE and JA as
negations. -/
theorem exec_of_mem_condJumpTable (h : (i, taken) ∈ condJumpTable dif s) : exec i s = condJump taken dif s := by
  have hgreaterOrEqual : (s.flagN == s.flagV) = !(s.flagN != s.flagV) := by simp [bne]
  simp only [condJumpTable, List.mem_cons, Prod.mk.injEq, List.not_mem_nil, or_false] at h
  rcases h with ⟨rfl, rfl⟩ | ⟨rfl, rfl⟩ | ⟨rfl, rfl⟩ | ⟨rfl, rfl⟩ | ⟨rfl, rfl⟩ | ⟨rfl, rfl⟩ | ⟨rfl, rfl⟩ | ⟨rfl, rfl⟩ |
    ⟨rfl, rfl⟩ | ⟨rfl, rfl⟩ | ⟨rfl, rfl⟩ | ⟨rfl, rfl⟩ | ⟨rfl, rfl⟩ | ⟨rfl, rfl⟩ | ⟨rfl, rfl⟩ | ⟨rfl, rfl⟩
  · rfl
  · rfl
  · rfl
  · rfl
  · rw [← Bool.not_or]; rfl
  · rfl
  · rfl
  · rfl
  · rfl
  · rfl
  · rfl
  · rfl
  · rw [hgreaterOrEqual, ← Bool.not_or]; rfl
  · rw [hgreaterOrEqual]; rfl
  · rw [← Bool.not_or]; rfl
  · rfl

/-! ## The parity of pc -/

theorem isOdd_eis (s : State) : isOdd s.eis = isOdd s.pc := isOdd_add_even s.pc 2#16 (by decide)

/-- A relative target counts words from EIS (R240), so it is as even as pc. -/
theorem isOdd_relTarget (s : State) (dif : Int) : isOdd (relTarget s dif) = isOdd s.pc := by
  have heven : (constWord (2 * dif)).toNat % 2 = 0 := by
    rw [constWord, BitVec.toNat_ofInt]
    omega
  rw [relTarget, isOdd_add_even _ _ heven, isOdd_eis]

theorem isOdd_condJump (h : condJump taken dif s = .next t) : isOdd t.pc = isOdd s.pc := by
  unfold condJump at h
  split at h
  · cases h; exact isOdd_relTarget s dif
  · cases h; exact isOdd_eis s

/-! ## Calls and returns -/

/-- A jump right after a register was written. -/
theorem Moved.withPc {d : Reg} {v : Word} {m : State} (h : Moved d v s m) (a : Word) :
    Moved d v s { m with pc := a } := by
  have hget (p : Phys) : ({ m with pc := a } : State).get p = m.get p := by cases p <;> rfl
  exact ⟨(hget _).trans h.get, fun p hp => (hget p).trans (h.sameRegsBut p hp), h.sameMem, h.sameHost⟩

/-- A call that can store its return address (R260, R261): the word stored, then the stack pointer lowered. -/
theorem callTo_completes {target : Word} (hi : exec i s = callTo target s) (h : WordWritable s (pushAddr s)) :
    ∃ t : State, exec i s = .next t ∧ t.pc = target ∧ StoredWord (pushAddr s) s.eis s t ∧
      t.get (Reg.phys s.np .sp) = pushAddr s ∧ SameRegsBut [Reg.phys s.np .sp] s t ∧ SameControl s t := by
  obtain ⟨hregs, -, hcontrol⟩ := putWord_frame s (pushAddr s) s.eis
  have hm := (setX_moved (s.putWord (pushAddr s) s.eis) .sp (pushAddr s)).withPc target
  have hnp : (s.putWord (pushAddr s) s.eis).np = s.np := np_congr (hregs .re (by simp))
  obtain ⟨htcontrol, -⟩ := hm.sameHost
  have hsp := hm.get
  have htregs := hm.sameRegsBut
  rw [hnp] at hsp htregs
  exact ⟨_, hi.trans (storeWord_done _ _ h), rfl, (putWord_storedWord ..).moved hm, hsp, hregs.trans htregs,
    hcontrol.trans htcontrol⟩

/-- A call with an even stack pointer that goes on goes to its target. -/
theorem callTo_next_pc {target : Word} (hsp : isOdd (s.x .sp) = false) (h : callTo target s = .next t) :
    t.pc = target := by
  unfold callTo at h
  rcases storeWord_next h with ⟨-, h⟩ | ⟨hodd, -⟩
  · cases h; rfl
  · rw [pushAddr, isOdd_sub_two, hsp] at hodd
    cases hodd

/-- RET with a word it can read (R264): pc and the stack pointer. -/
theorem exec_ret_moved {w : Word} {p : Device} (h : s.readWord (s.x .sp) = .value w p) :
    ∃ t : State, exec .ret s = .next t ∧ t.pc = w ∧ Moved .sp (s.x .sp + 2#16) (s.withDev p) t :=
  ⟨_, (loadWord_value _ h : execRet s = _), rfl, (setX_moved ..).withPc w⟩

/-! ## Returning from an exception -/

/-- RFE with two words it can read (R268). -/
theorem exec_rfe_completes {w1 w2 : Word} {p q : Device} (h1 : s.readWord (s.x .sp) = .value w1 p)
    (h2 : (s.withDev p).readWord (s.x .sp + 2#16) = .value w2 q) :
    ∃ t : State, exec .rfe s = .next t ∧ t.re = w1 ∧ t.pc = w2 ∧ t.temp = w1 ∧
      t.get (Reg.phys s.np .sp) = s.x .sp + 4#16 ∧ SameRegsBut [.temp, .re, Reg.phys s.np .sp] s t ∧
      SameMem s t ∧ SameHost (s.withDev q) t := by
  have hm : Moved .temp w1 (s.withDev q) { s.withDev q with temp := w1 } := setX_moved (s.withDev q) .temp w1
  obtain ⟨hre, hpc, htemp, hsp, hregs, hmem, hhost⟩ := finishReturn_spec { s.withDev q with temp := w1 } w2
  rw [hm.np (by simp)] at hsp hregs
  rw [hm.x_of_ne (by simp) (by simp)] at hsp
  exact ⟨_, (returnFromException_value h1 h2 : execRfe s = _), hre, hpc, htemp, hsp, hm.sameRegsBut.trans hregs,
    fun a => congrArg (·.byteAt a.toNat) hmem, hm.sameHost.trans hhost⟩

/-- In the state an entry leaves, the system level holds and SP is the top of the frame (R313). -/
theorem Entered.sp {k : Byte} {ret : Word} (h : Entered k ret s t) : t.np = false ∧ t.x .sp = s.ssp - 4#16 := by
  obtain ⟨-, hre, hssp, -⟩ := h
  have hnp : t.np = false := by simp [State.np, hre]
  exact ⟨hnp, by rw [x_sp, hnp]; exact hssp⟩

end

/-! ## The statements of spec/44_control_flow.md -/

/-- Settles O19: SWE is the entry itself, and an odd SSP is found before an odd BTE. -/
theorem sweEntersTheHandlerOfItsOperand : Obligations.SweEntersTheHandlerOfItsOperand := by
  intro k s
  rw [exec_swe]
  refine ⟨fun hready => enter_entered s.eis hready, fun hodd => ?doubleFault⟩
  case doubleFault =>
    cases hssp : isOdd s.ssp
    case true => exact ⟨_, enter_odd_ssp hssp, rfl, rfl, rfl⟩
    case false =>
      obtain ⟨hbte, h2, h4⟩ := hodd.resolve_left (by simp [hssp])
      exact ⟨_, enter_odd_bte hssp hbte h2 h4, rfl, by simp [entryFrame, entryStart], by simp [entryFrame, entryStart]⟩

/-- Settles O20, by what the lines of RFE leave (`exec_rfe_completes`). -/
theorem rfeRestoresStatusAndPc : Obligations.RfeRestoresStatusAndPc :=
  fun s => ⟨fun _ _ _ _ h1 h2 => exec_rfe_completes h1 h2, fun h => (loadWord_traps _ h : returnFromException s = _)⟩

/-- Settles O21: RFE runs on the frame that the entry left at SSP - 4, and raises SSP back. -/
theorem rfeUndoesAnEntry : Obligations.RfeUndoesAnEntry := by
  intro k ret s hready
  obtain ⟨t, ht, hentered⟩ := enter_entered ret hready
  obtain ⟨hnp, hsp⟩ := hentered.sp
  obtain ⟨-, -, -, hret, hre, -, hregs, -, hhost⟩ := hentered
  have hret' : (t.withDev t.dev).readWord (t.x .sp + 2#16) = .value ret t.dev := by
    rw [hsp, show s.ssp - 4#16 + 2#16 = s.ssp - 2#16 by bv_omega]
    exact hret
  obtain ⟨u, hu, hure, hupc, -, husp, huregs, -, huhost⟩ := exec_rfe_completes (hsp.symm ▸ hre) hret'
  rw [hnp] at husp huregs
  refine ⟨t, u, ht, hu, hure, hupc, fun p hp => ?regs, hhost.trans huhost⟩
  case regs =>
    by_cases hpre : p = .re
    · rw [hpre]; exact hure
    by_cases hpssp : p = .ssp
    · have hssp : u.get .ssp = s.ssp - 4#16 + 4#16 := hsp ▸ husp
      rw [hpssp, hssp, BitVec.sub_add_cancel]
      rfl
    · have hout : p ∉ [Phys.temp, .re, .ssp] := by simp_all
      exact (huregs p hout).trans (hregs p hout)

/-- Settles O51, row by row of `condJumpTable`. -/
theorem conditionalJumpsTestTheirFlags : Obligations.ConditionalJumpsTestTheirFlags := by
  rintro dif s _ _ _ _ rfl rfl rfl rfl taken i hi
  have hmem : (i, taken) ∈ condJumpTable dif s := hi
  exact exec_condJump (exec_of_mem_condJumpTable hmem) rfl

/-- Settles O53; CRF reads its register after RL was written. -/
theorem jumpsAndLinksChangePcAndLinkAlone : Obligations.JumpsAndLinksChangePcAndLinkAlone := by
  intro s
  refine ⟨fun dif => ⟨rfl, rfl⟩, fun r => ⟨rfl, ?crf⟩, rfl, rfl⟩
  case crf =>
    have htarget : (s.setX .rl s.eis).x r = if r = .rl then s.eis else s.x r := by
      split
      case isTrue hr => rw [hr]; exact (setX_moved ..).x_self
      case isFalse hr => exact (setX_moved ..).x_of_ne hr (by simp)
    have hexec : exec (.crf r) s = jumpTo ((s.setX .rl s.eis).x r) (s.setX .rl s.eis) := rfl
    rw [hexec, htarget]
    rfl

/-- Settles O54: CALL and CR differ in their target alone. -/
theorem callsAndReturnsUseTheStack : Obligations.CallsAndReturnsUseTheStack := by
  intro s
  refine ⟨fun hw => ⟨fun dif => callTo_completes rfl hw, fun r => callTo_completes rfl hw⟩, fun w p hv => ?ret⟩
  case ret =>
    obtain ⟨t, hexec, hpc, hm⟩ := exec_ret_moved hv
    exact ⟨t, hexec, hpc, hm.get, hm.sameRegsBut, hm.sameMem, hm.sameHost⟩

/-- Settles O55: EIS and every relative target are as even as pc. -/
theorem relativeTransfersKeepPcEven : Obligations.RelativeTransfersKeepPcEven := by
  intro dif i s t hi hpc h
  rw [← hpc]
  rcases hi with hi | ⟨rfl, hsp⟩
  · have hi' : i ∈ (condJumpTable dif s).map Prod.fst ++ [.jmp dif, .callf dif] := hi
    rw [List.mem_append, List.mem_map] at hi'
    rcases hi' with ⟨⟨j, taken⟩, hmem, rfl⟩ | hjump
    · exact isOdd_condJump ((exec_of_mem_condJumpTable hmem).symm.trans h)
    · simp only [List.mem_cons, List.not_mem_nil, or_false] at hjump
      rcases hjump with rfl | rfl <;> cases h <;> exact isOdd_relTarget s dif
  · rw [callTo_next_pc hsp h, isOdd_relTarget]

end Sys2Proof.Machine
end

section
/-! PROOFS. The two expansions of `MOV Rd, k`, the value that each leaves, and the statement of spec/45_assembler.md. -/

namespace Sys2Proof.Machine

/-! ## A register written twice -/

section
variable {d : Reg} {v w : Word} {s m t : State}

/-- The number of the register written denotes the same register afterwards, even where RE was written (R38). -/
theorem Moved.phys_self (h : Moved d v s m) : Reg.phys m.np d = Reg.phys s.np d :=
  phys_inj.mpr ⟨rfl, fun hsp => h.np (by simp [hsp])⟩

/-- Of two transfers to one register the second alone remains. -/
theorem Moved.overwrite (h1 : Moved d v s m) (h2 : Moved d w m t) : Moved d w s t := by
  have hget := h2.get
  have hregs := h2.sameRegsBut
  rw [h1.phys_self] at hget hregs
  obtain ⟨hcontrol1, hdev1⟩ := h1.sameHost
  obtain ⟨hcontrol2, hdev2⟩ := h2.sameHost
  exact ⟨hget, fun p hp => (hregs p hp).trans (h1.sameRegsBut p hp), fun a => (h2.sameMem a).trans (h1.sameMem a),
    hcontrol1.trans hcontrol2, hdev2.trans hdev1⟩

end

/-! ## The constants of the two expansions (R290, R291) -/

/-- Reading a constant above 32767 as signed does not change its 16-bit pattern (R291). -/
theorem constWord_signedConst (k : Int) : constWord (Asm.signedConst k) = BitVec.ofInt 16 k := by
  unfold constWord Asm.signedConst
  split
  case isTrue => apply BitVec.eq_of_toInt_eq; simp [BitVec.toInt_ofInt, Int.bmod_def]
  case isFalse => rfl

/-- MOVL of a byte read as signed leaves that byte in bits 7..0 (R210). -/
theorem lowByte_constWord_toInt (b : Byte) : lowByte (constWord b.toInt) = b := by
  revert b; decide

theorem expandMov_of_const8 (d : Reg) {k : Int} (h : const8Ok (Asm.signedConst k) = true) :
    Asm.expandMov d k = [.movl d (Asm.signedConst k)] :=
  if_pos h

theorem expandMov_of_not_const8 (d : Reg) {k : Int} (h : const8Ok (Asm.signedConst k) = false) :
    Asm.expandMov d k =
      [.movl d (lowByte (BitVec.ofInt 16 k)).toInt, .movh d (highByte (BitVec.ofInt 16 k))] :=
  if_neg (by simp [h])

/-! ## What the two expansions leave -/

/-- MOVL leaves its constant's 16-bit pattern (R210). -/
theorem exec_movl_moved (d : Reg) (k : Int) (s : State) :
    ∃ t : State, exec (.movl d k) s = .next t ∧ Moved d (constWord k) s t := by
  obtain ⟨t, ht, -, hmoved⟩ := moveTo_completes (i := .movl d k) (s := s) rfl
  exact ⟨t, ht, hmoved⟩

/-- MOVH replaces the high byte of the register and keeps the low one (R211). -/
theorem exec_movh_moved (d : Reg) (b : Byte) (s : State) :
    ∃ t : State, exec (.movh d b) s = .next t ∧ Moved d (wordOfBytes b (lowByte (s.x d))) s t := by
  obtain ⟨t, ht, -, hmoved⟩ := moveTo_completes (i := .movh d b) (s := s) rfl
  exact ⟨t, ht, hmoved⟩

/-- MOVL of the low byte of a word, then MOVH of its high byte, leave the word (R290), in any register: MOVH reads back
what MOVL wrote, RE and either stack pointer included. -/
theorem exec_movl_movh_moved (d : Reg) (w : Word) (s : State) :
    ∃ t u : State, exec (.movl d (lowByte w).toInt) s = .next t ∧ exec (.movh d (highByte w)) t = .next u ∧
      Moved d w s u := by
  obtain ⟨t, ht, hlow⟩ := exec_movl_moved d (lowByte w).toInt s
  obtain ⟨u, hu, hhigh⟩ := exec_movh_moved d (highByte w) t
  rw [hlow.x_self, lowByte_constWord_toInt, wordOfBytes_parts] at hhigh
  exact ⟨t, u, ht, hu, hlow.overwrite hhigh⟩

/-! ## The statement of spec/45_assembler.md -/

/-- Settles O60: a signed constant of 8 bits is MOVL's own; any other goes byte by byte. -/
theorem assembledConstantReachesItsRegister : Obligations.AssembledConstantReachesItsRegister := by
  intro d k s _ _
  refine ⟨fun hshort => ⟨expandMov_of_const8 d hshort, ?one⟩, fun hlong =>
    ⟨_, _, expandMov_of_not_const8 d hlong, const8Ok_toInt _, exec_movl_movh_moved d _ s⟩⟩
  case one =>
    rw [← constWord_signedConst]
    exact exec_movl_moved d _ s

end Sys2Proof.Machine
end

section
/-! PROOFS. The interrupt that a boundary accepts, what a boundary leaves, the frame of an entry byte by byte wherever
it lies and the table read after it, and the statements of spec/60_exceptions.md. -/

namespace Sys2Proof.Machine

/-! ## The interrupt accepted (R303, R315, R317) -/

section
variable {s : State} {i : Fin 4}

/-- The three conditions of R303 and R315, by the bits of RE. -/
theorem acceptable_iff :
    s.acceptable i = true ↔ s.re.getLsbD 8 = true ∧ s.re.getLsbD (9 + i.val) = true ∧ s.requests i = true := by
  simp [State.acceptable, State.ie, State.iei, bitIE, bitIEi, and_assoc]

/-- The accepted interrupt is the acceptable one of the lowest number (R317). -/
theorem accepted_eq_some_iff :
    s.accepted = some i ↔ s.acceptable i = true ∧ ∀ j : Fin 4, j < i → s.acceptable j = false := by
  have hlist : [0, 1, 2, 3] = List.finRange 4 := rfl
  rw [accepted_eq, hlist, ← Fin.find?_eq_find?_finRange, Fin.find?_eq_some_iff]

/-- No interrupt is accepted while IE = 0 (R315). -/
theorem accepted_eq_none_of_ie (h : s.re.getLsbD 8 = false) : s.accepted = none := by
  refine Option.eq_none_iff_forall_ne_some.mpr fun i hi => ?_
  obtain ⟨hacceptable, -⟩ := accepted_eq_some_iff.mp hi
  obtain ⟨hie, -⟩ := acceptable_iff.mp hacceptable
  rw [h] at hie
  cases hie

end

/-! ## What a boundary leaves (R84, R315, R316) -/

section
variable {s : State}

/-- With no RESET a running machine's boundary leads to the fetch exactly when no interrupt is accepted (R315). -/
theorem boundary_eq_proceed_iff (hreset : s.hostInput.reset = false) (hrun : s.run = .running) :
    boundary s = .proceed s.atBoundary ↔ s.atBoundary.accepted = none := by
  cases h : s.atBoundary.accepted <;> simp [boundary, hreset, hrun, h]

/-- It leads to an entry exactly when an interrupt is accepted, which is then the one entered (R315). -/
theorem boundary_eq_interrupt_iff (hreset : s.hostInput.reset = false) (hrun : s.run = .running) (i : Fin 4) :
    boundary s = .interrupt i s.atBoundary ↔ s.atBoundary.accepted = some i := by
  cases h : s.atBoundary.accepted <;> simp [boundary, hreset, hrun, h]

/-- In the stuck state no instruction is fetched and no interrupt accepted (R319). -/
theorem step_doubleFault (hreset : s.hostInput.reset = false) (hrun : s.run = .doubleFault) :
    step s = .fault .doubleFault := by
  simp [step, boundary, hreset, hrun]

theorem step_interrupt {i : Fin 4} (hreset : s.hostInput.reset = false) (hrun : s.run = .running)
    (h : s.atBoundary.accepted = some i) : step s = acceptInterrupt i s.atBoundary := by
  rw [step, (boundary_eq_interrupt_iff hreset hrun i).mpr h]

/-- No edge is seen where the level stays; a latch that fits its pin is kept (R316 (5)). -/
theorem latchAfter_same_level {m : Sensitivity} {ip : Bool} (level : Bool) (h : ip = true → m.latched = true) :
    latchAfter m ip level level = ip := by
  cases m <;> simp_all [latchAfter, Sensitivity.latched]

/-- A sample of the levels already sampled, with no detector to start afresh, shows no edge (R316 (5)). -/
theorem samplePins_self (hrestart : s.restart = Lines.all false) (hfit : latchesFit s = true) :
    s.samplePins s.intPins = s := by
  have hip : (s.samplePins s.intPins).ip = s.ip := Lines.ext_get fun i => by
    rw [samplePins_ip_get, hrestart, latchAfter_same_level _ ((latchesFit_iff s).mp hfit i), Lines.get_all]
    rfl
  have heta : s.samplePins s.intPins =
      { s with restart := Lines.all false, ip := (s.samplePins s.intPins).ip } := rfl
  rw [heta, hip, ← hrestart]

/-- The state of a boundary at which the host does nothing, with the latches fitting RCN. -/
theorem atBoundary_of_nil (hinputs : s.inputs = []) (hrestart : s.restart = Lines.all false)
    (hfit : latchesFit s = true) :
    s.atBoundary = { s with inta := true, bgt := false, dev := { s.dev with accesses := [] } } := by
  have hhost : s.hostInput = { reset := false, pins := s.intPins, brq := false, dma := [] } := by
    rw [State.hostInput, hinputs]
  have hopen : s.openBoundary = { s with inta := true, dev := { s.dev with accesses := [] } } := by
    rw [State.openBoundary, hinputs, List.tail_nil, ← hinputs]
  rw [State.atBoundary, hhost, hopen]
  exact samplePins_self (s := { s with inta := true, bgt := false, dev := { s.dev with accesses := [] } }) hrestart hfit

/-- The latches are those of a sample of the boundary's pins (R316). -/
theorem atBoundary_ip (s : State) : s.atBoundary.ip = (s.samplePins s.hostInput.pins).ip := by
  simp [State.atBoundary, State.samplePins]

/-- The bus is granted as BRQ and DE say (R84). -/
theorem atBoundary_bgt (s : State) : s.atBoundary.bgt = (s.hostInput.brq && s.re.getLsbD 13) :=
  dmaBoundary_bgt s.openBoundary _ _

/-- Memory after a boundary: the writes of the DMA master where the bus is granted (R84). -/
theorem readByte_atBoundary (s : State) (a : Word) :
    s.atBoundary.readByte a =
      if s.hostInput.brq = true ∧ s.re.getLsbD 13 = true ∧ s.kindAt a = .ram
      then (lastDmaWrite s.hostInput.dma a).or (s.readByte a) else s.readByte a :=
  readByte_dmaBoundary s.openBoundary _ _ a

end

/-! ## Accepting an interrupt (R315, R316 (2), R47) -/

section
variable {s : State}

/-- The state in which an accepted interrupt is entered: its latch cleared, INTA driven to 0 for INT3. -/
def State.acknowledge (s : State) (i : Fin 4) : State := { s.clearLatch i with inta := decide (i ≠ 3) }

/-- An accepted interrupt is entered with its number as index and the next instruction's pc saved (R311, R315). -/
theorem acceptInterrupt_eq (i : Fin 4) (s : State) :
    acceptInterrupt i s = enter (BitVec.ofNat 8 i.val) s.pc (s.acknowledge i) := rfl

theorem acknowledge_get (s : State) (i : Fin 4) (p : Phys) : (s.acknowledge i).get p = s.get p := by
  cases p <;> rfl

/-- The codes of the edges are those whose bit 2i+1 is 0 (R43). -/
theorem sensitivity_latched (w : Word) (i : Fin 4) : (sensitivity w i).latched = !w.getLsbD (2 * i.val + 1) := by
  rw [sensitivity_eq]
  cases w.getLsbD (2 * i.val + 1) <;> cases w.getLsbD (2 * i.val) <;> rfl

theorem acknowledge_ip_get (s : State) (i j : Fin 4) :
    (s.acknowledge i).ip.get j =
      if j = i ∧ s.rcn.getLsbD (2 * i.val + 1) = false then false else s.ip.get j := by
  have h := clearLatch_ip_get s i j
  rw [sensitivity_latched] at h
  simpa [State.acknowledge] using h

/-- An entry is ready after the acknowledgement when it was before: neither latches nor INTA matter to it. -/
theorem EntryReady.acknowledge {k : Byte} (h : EntryReady s k) (i : Fin 4) : EntryReady (s.acknowledge i) k := h

end

/-! ## A word put anywhere, byte by byte (R77, R82) -/

section
variable {s : State} {c : Word}

/-- What stands at the word's other byte does not matter to a byte of read-write storage. -/
theorem readByte_putWord_of_ram (a : Word) {v : Word} (h : s.kindAt c = .ram) :
    (s.putWord a v).readByte c =
      if c = a + 1#16 then some (lowByte v) else if c = a then some (highByte v) else s.readByte c := by
  rw [readByte_putWord]
  split_ifs with h1 h2
  · rw [byteAfterWrite, ← h1, if_pos h]
  · rw [byteAfterWrite, ← h2, if_pos h]
  · rfl

theorem readByte_putWord_of_not_ram (a v : Word) (h : s.kindAt c ≠ .ram) :
    (s.putWord a v).readByte c = s.readByte c := by
  rw [readByte_putWord]
  split_ifs with h1 h2
  · rw [byteAfterWrite, ← h1, if_neg h]
  · rw [byteAfterWrite, ← h2, if_neg h]
  · rfl

end

/-! ## The frame of an entry, wherever it lies (R313, R82) -/

section
variable {s : State} {a : Word}

/-- The first lines of an entry change TEMP and RE alone. -/
theorem entryStart_sameRegsBut (s : State) : SameRegsBut [.temp, .re] s (entryStart s) := by
  intro p hp
  cases p
  case temp | re => simp at hp
  all_goals rfl

@[simp] theorem entryStart_kindAt (s : State) (c : Word) : (entryStart s).kindAt c = s.kindAt c := rfl
@[simp] theorem entryStart_readByte (s : State) (c : Word) : (entryStart s).readByte c = s.readByte c := rfl

/-- The two stores of the frame change no register. -/
theorem entryFrame_sameRegsBut (ret : Word) (s : State) : SameRegsBut [.temp, .re] s (entryFrame ret s) := by
  intro p hp
  rw [entryFrame, putWord_get, putWord_get, entryStart_sameRegsBut s p hp]

/-- The old RE is in TEMP and RE is 0 once the frame is stored; pc is still the old one (R310, R312). -/
theorem entryFrame_status (ret : Word) (s : State) :
    (entryFrame ret s).temp = s.re ∧ (entryFrame ret s).re = 0#16 ∧ (entryFrame ret s).pc = s.pc := by
  simp [entryFrame, entryStart]

theorem entryFrame_sameControl (ret : Word) (s : State) : SameControl s (entryFrame ret s) := by
  simp [SameControl, entryFrame, entryStart]

/-- A byte in read-write storage after the frame was stored, whatever stands at the other bytes of the frame. -/
theorem entryFrame_readByte_of_ram (ret : Word) (h : s.kindAt a = .ram) :
    (entryFrame ret s).readByte a =
      if a = s.ssp - 3#16 then some (lowByte s.re)
      else if a = s.ssp - 4#16 then some (highByte s.re)
      else if a = s.ssp - 1#16 then some (lowByte ret)
      else if a = s.ssp - 2#16 then some (highByte ret)
      else s.readByte a := by
  obtain ⟨-, -, -, -, -, -, e1, e3⟩ := frame_addresses s.ssp
  rw [entryFrame, readByte_putWord_of_ram _ (by simpa using h), readByte_putWord_of_ram _ (by simpa using h), e1, e3,
    entryStart_readByte]

/-- Outside read-write storage an entry stores nothing. -/
theorem entryFrame_readByte_of_not_ram (ret : Word) (h : s.kindAt a ≠ .ram) :
    (entryFrame ret s).readByte a = s.readByte a := by
  rw [entryFrame, readByte_putWord_of_not_ram _ _ (by simpa using h),
    readByte_putWord_of_not_ram _ _ (by simpa using h), entryStart_readByte]

theorem entryFrame_readByte_of_not_inFrame (ret : Word) (h : ¬InFrame s a) :
    (entryFrame ret s).readByte a = s.readByte a := by
  by_cases hram : s.kindAt a = .ram
  · have hout : a ∉ [s.ssp - 4#16, s.ssp - 3#16, s.ssp - 2#16, s.ssp - 1#16] := fun hmem => h ⟨hram, hmem⟩
    simp only [List.mem_cons, List.not_mem_nil, or_false, not_or] at hout
    obtain ⟨n4, n3, n2, n1⟩ := hout
    rw [entryFrame_readByte_of_ram ret hram, if_neg n3, if_neg n4, if_neg n1, if_neg n2]
  · exact entryFrame_readByte_of_not_ram ret hram

theorem entryFrame_readByte_of_inFrame (ret : Word) (h : InFrame s a) :
    ∃ b : Byte, (entryFrame ret s).readByte a = some b := by
  obtain ⟨hram, hmem⟩ := h
  simp only [List.mem_cons, List.not_mem_nil, or_false] at hmem
  rw [entryFrame_readByte_of_ram ret hram]
  split_ifs with n3 n4 n1 n2
  · exact ⟨_, rfl⟩
  · exact ⟨_, rfl⟩
  · exact ⟨_, rfl⟩
  · exact ⟨_, rfl⟩
  · simp [n1, n2, n3, n4] at hmem

/-- The first frame word, in read-write storage, reads as the saved address, wherever the second one lies. -/
theorem entryFrame_first_word (ret : Word) (ho : isOdd s.ssp = false) (h : RamWord s (s.ssp - 2#16)) :
    WordReadable (entryFrame ret s) (s.ssp - 2#16) ret := by
  obtain ⟨n1, n2, n3, n4, -, n6, e1, e3⟩ := frame_addresses s.ssp
  obtain ⟨hhigh, hlow⟩ := h
  rw [e1] at n2 n4 n6 hlow
  rw [e3] at n3 n4
  have hstored (c : Word) (hc : s.kindAt c = .ram) : Stored (entryFrame ret s) c :=
    .inl ((kindAt_congr (entryFrame_map ret s) c).trans hc)
  refine wordReadable_of_stored (by rw [isOdd_sub_two, ho]) (hstored _ hhigh) (by rw [e1]; exact hstored _ hlow) ?_ ?_
  · rw [entryFrame_readByte_of_ram ret hhigh, if_neg n3.symm, if_neg n1.symm, if_neg n6, if_pos rfl]
  · rw [e1, entryFrame_readByte_of_ram ret hlow, if_neg n4.symm, if_neg n2.symm, if_pos rfl]

/-- The stuck state has the memory, the map and the peripherals of the state that got stuck. -/
theorem WordReadable.stuck {v : Word} (h : WordReadable s a v) : WordReadable s.stuck a v := h

/-- The second frame word, in read-write storage, reads as the old RE, wherever the first one lies. -/
theorem entryFrame_second_word (ret : Word) (ho : isOdd s.ssp = false) (h : RamWord s (s.ssp - 4#16)) :
    WordReadable (entryFrame ret s) (s.ssp - 4#16) s.re :=
  wordReadable_putWord s.re (by rw [isOdd_sub_four, ho]) (by simpa [RamWord] using h)

end

/-! ## The table word after the frame was stored (R82, R310) -/

section
variable {k : Byte} {s : State} {a : Word} {f : Fault}

/-- Whether a byte can be taken does not depend on what the peripherals hold (R83). -/
theorem takeByte_value_of_value {b : Byte} {d e : Device} (h : s.takeByte d a = .value b e) (f : Device) :
    ∃ c g, s.takeByte f a = .value c g := by
  cases hdev : s.isDevice a
  case true => exact ⟨_, _, takeByte_device f ((isDevice_iff s a).mp hdev)⟩
  case false =>
    obtain ⟨-, hany⟩ := takeByte_plain hdev h
    exact ⟨_, _, hany f⟩

theorem entryFrame_takeByte_of_not_inFrame (ret : Word) (d : Device) (h : ¬InFrame s a) :
    (entryFrame ret s).takeByte d a = s.takeByte d a :=
  takeByte_congr d (entryFrame_map ret s) (entryFrame_readByte_of_not_inFrame ret h)

/-- A byte of the table that has a value once the frame is stored can be taken then. -/
theorem VectorByteReads.takeByte (h : VectorByteReads s a) (ret : Word) (d : Device) :
    ∃ b e, (entryFrame ret s).takeByte d a = .value b e := by
  by_cases hin : InFrame s a
  · obtain ⟨b, hb⟩ := entryFrame_readByte_of_inFrame ret hin
    obtain ⟨hram, -⟩ := hin
    exact ⟨b, d, takeByte_stored d (.inl ((kindAt_congr (entryFrame_map ret s) a).trans hram)) hb⟩
  · obtain ⟨v, p, hv⟩ := h.resolve_right hin
    obtain ⟨e, he⟩ := takeByte_of_memReadByte hv
    rw [entryFrame_takeByte_of_not_inFrame ret d hin]
    exact takeByte_value_of_value he d

/-- A byte of the table without a value is unwritten or unmapped once the frame is stored, as its fault says. -/
theorem VectorByteStops.takeByte (h : VectorByteStops s a f) (ret : Word) (d : Device) :
    ((entryFrame ret s).takeByte d a = .unwritten ∧ f = .unwrittenVector) ∨
      ((entryFrame ret s).takeByte d a = .unmapped ∧ f = .unmapped) := by
  rcases h with ⟨hstored, hnone, hout, rfl⟩ | ⟨hempty, rfl⟩
  · rw [entryFrame_takeByte_of_not_inFrame ret d hout]
    exact .inl ⟨takeByte_unwritten d hstored hnone, rfl⟩
  · exact .inr ⟨takeByte_unmapped d ((kindAt_congr (entryFrame_map ret s) a).trans hempty), rfl⟩

/-- An entry that the map lets write its frame, with BTE even and both bytes of the table word having a value then: it
ends with pc the word read. -/
theorem enter_completes (ret : Word) (h2 : WordWritable s (s.ssp - 2#16)) (h4 : WordWritable s (s.ssp - 4#16))
    (hb : isOdd s.bte = false) (r1 : VectorByteReads s (vectorAddr s k))
    (r2 : VectorByteReads s (vectorAddr s k + 1#16)) :
    ∃ w d, (entryFrame ret s).readWord (vectorAddr s k) = .value w d ∧
      enter k ret s = .next { entryFrame ret s with pc := w, dev := d, ssp := s.ssp - 4#16 } := by
  obtain ⟨hi, d, hhi⟩ := r1.takeByte ret (entryFrame ret s).dev
  obtain ⟨lo, e, hlo⟩ := r2.takeByte ret d
  have hread : (entryFrame ret s).readWord (vectorAddr s k) = .value (wordOfBytes hi lo)
      (e.note ((entryFrame ret s).isDeviceWord (vectorAddr s k)) (.readWord (vectorAddr s k) (wordOfBytes hi lo))) := by
    simp [State.readWord, isOdd_vectorAddr, hb, hhi, hlo]
  exact ⟨_, _, hread, by rw [enter_writable h2 h4, hread]⟩

/-- An entry stops at a byte of the table word that has no value (log 6, 7). -/
theorem enter_stops_vector (ret : Word) (h2 : WordWritable s (s.ssp - 2#16)) (h4 : WordWritable s (s.ssp - 4#16))
    (hb : isOdd s.bte = false) (h : VectorStops s (vectorAddr s k) f) : enter k ret s = .fault f := by
  rw [enter_writable h2 h4]
  rcases h with h | ⟨hreads, h⟩
  · rcases h.takeByte ret (entryFrame ret s).dev with ⟨hstop, rfl⟩ | ⟨hstop, rfl⟩ <;>
      simp [State.readWord, isOdd_vectorAddr, hb, hstop]
  · obtain ⟨hi, d, hhi⟩ := hreads.takeByte ret (entryFrame ret s).dev
    rcases h.takeByte ret d with ⟨hstop, rfl⟩ | ⟨hstop, rfl⟩ <;>
      simp [State.readWord, isOdd_vectorAddr, hb, hhi, hstop]

end

/-! ## The statements of spec/60_exceptions.md -/

/-- Settles O10: the boundary of a running machine is decided by the accepted interrupt in `atBoundary`, whose parts are
those of the DMA master and of a sample. -/
theorem boundaryServesTheHostAndSamplesThePins : Obligations.BoundaryServesTheHostAndSamplesThePins := by
  refine ⟨fun s hinputs hrun hie hrestart hfit => ?quiet, fun s h l hh hreset hrun => ?host⟩
  case quiet =>
    have hreset : s.hostInput.reset = false := by rw [State.hostInput, hinputs]
    have hre : s.atBoundary.re = s.re := atBoundary_get s .re
    have hnone : s.atBoundary.accepted = none := accepted_eq_none_of_ie (hre ▸ hie)
    rw [(boundary_eq_proceed_iff hreset hrun).mpr hnone, atBoundary_of_nil hinputs hrestart hfit]
  case host =>
    have hhost : s.hostInput = h ∧ s.inputs.tail = l := by
      rcases hh with hh | ⟨hh, rfl, rfl⟩ <;> simp [State.hostInput, hh]
    obtain ⟨rfl, rfl⟩ := hhost
    obtain ⟨hpc, hrun', hmap, hinta, hinputs, hpins, hrestart, hdev, -, hre⟩ := atBoundary_fields s
    exact ⟨boundary_eq_proceed_iff hreset hrun, boundary_eq_interrupt_iff hreset hrun,
      fun hie => (boundary_eq_proceed_iff hreset hrun).mpr (accepted_eq_none_of_ie (hre ▸ hie)),
      hinputs, hpins, atBoundary_ip s, hrestart, hinta, atBoundary_bgt s, hrun'.trans hrun, hmap, hdev, hpc,
      fun p _ => atBoundary_get s p, readByte_atBoundary s⟩

/-- Settles O16: a byte of the table word is a byte of the frame, or reads as before the two stores. -/
theorem entrySavesTheFrameAndLoadsTheHandler : Obligations.EntrySavesTheFrameAndLoadsTheHandler := by
  intro k ret s
  refine ⟨fun hready => enter_entered ret hready, fun h2 h4 hbte r1 r2 => ?completes, fun f =>
    ⟨fun hssp h => enter_stops_first hssp h, fun h2 h => enter_stops_second h2 h,
      fun h2 h4 hbte h => enter_stops_vector ret h2 h4 hbte h⟩⟩
  case completes =>
    obtain ⟨w, d, hread, hgo⟩ := enter_completes ret h2 h4 hbte r1 r2
    obtain ⟨htemp, hzero, -⟩ := entryFrame_status ret s
    have hssp : isOdd s.ssp = false := by
      obtain ⟨heven, -⟩ := h2
      rw [← isOdd_sub_two, heven]
    have hpc {a v : Word} (ha : vectorAddr s k = a) (h : WordReadable (entryFrame ret s) a v) : w = v := by
      rw [ha, h] at hread
      cases hread
      rfl
    have hfirst (ha : vectorAddr s k = s.ssp - 2#16) (hram : RamWord s (s.ssp - 2#16)) : w = ret :=
      hpc ha (entryFrame_first_word ret hssp hram)
    have hsecond (ha : vectorAddr s k = s.ssp - 4#16) (hram : RamWord s (s.ssp - 4#16)) : w = s.re :=
      hpc ha (entryFrame_second_word ret hssp hram)
    have hregs (p : Phys) (hp : p ∉ [Phys.temp, .re, .ssp]) := enter_get hp hgo
    have hcontrol := entryFrame_sameControl ret s
    have hmem (a : Word) (ha : ¬InFrame s a) := entryFrame_readByte_of_not_inFrame ret ha
    -- The last three updates are on top of the frame, of which only these facts are needed.
    generalize entryFrame ret s = m at hgo htemp hzero hregs hcontrol hmem
    exact ⟨_, hgo, htemp, hzero, rfl, hregs, hcontrol, hmem, hfirst, hsecond⟩

/-- Settles O17, exception by exception: the index of R302 and the return point of R311. -/
theorem eachExceptionHasItsIndexAndSavedAddress : Obligations.EachExceptionHasItsIndexAndSavedAddress := by
  intro s
  simp only [takeException_eq]
  exact ⟨fun i => rfl, rfl, rfl, rfl, rfl, rfl, rfl⟩

/-- Settles O18: the stuck state is that before the first store, or that after both. -/
theorem oddStackOrTableIsADoubleFault : Obligations.OddStackOrTableIsADoubleFault := by
  intro k ret s
  refine ⟨fun hssp => ?stack, fun hssp hbte h2 h4 => ?table, fun hrun hreset => step_doubleFault hreset hrun⟩
  case stack =>
    exact ⟨_, enter_odd_ssp hssp, rfl, rfl, rfl, rfl,
      fun p hp => (stuck_get _ p).trans (entryStart_sameRegsBut s p hp), fun a => rfl⟩
  case table =>
    obtain ⟨hret, hre⟩ := entryFrame_words ret hssp h2 h4
    obtain ⟨htemp, hzero, hpc⟩ := entryFrame_status ret s
    exact ⟨_, enter_odd_bte hssp hbte h2 h4, stuck_run _, (stuck_temp _).trans htemp, (stuck_re _).trans hzero,
      (stuck_pc _).trans hpc, fun p hp => (stuck_get _ p).trans (entryFrame_sameRegsBut ret s p hp), hret.stuck,
      hre.stuck, fun a n4 n3 n2 n1 => (stuck_readByte _ a).trans (entryFrame_others ret h2 h4 n4 n3 n2 n1)⟩

/-- Settles O22: the first acceptable interrupt by number, IE being common to all four. -/
theorem lowestEnabledRequestIsAccepted : Obligations.LowestEnabledRequestIsAccepted := by
  intro s i
  rw [accepted_eq_some_iff, acceptable_iff]
  constructor
  · rintro ⟨⟨hie, hiei, hreq⟩, hlower⟩
    refine ⟨hie, hiei, hreq, fun j hj hen => ?_⟩
    have hnot := hlower j hj
    rw [acceptable_iff.mpr ⟨hie, hen⟩] at hnot
    cases hnot
  · rintro ⟨hie, hiei, hreq, hlower⟩
    refine ⟨⟨hie, hiei, hreq⟩, fun j hj => Bool.eq_false_iff.mpr fun h => ?_⟩
    obtain ⟨-, hen⟩ := acceptable_iff.mp h
    exact hlower j hj hen

/-- Settles O23: the entry starts from the acknowledged state (`acknowledge`), in which it is as ready as before. -/
theorem acceptedInterruptEntersItsHandler : Obligations.AcceptedInterruptEntersItsHandler := by
  intro s b i hreset hrun hb haccepted hready
  have hstep : step s = enter (BitVec.ofNat 8 i.val) b.pc (b.acknowledge i) := by
    rw [hb, ← acceptInterrupt_eq]
    exact step_interrupt hreset hrun (hb ▸ haccepted)
  have hbrun : b.run = .running := by
    obtain ⟨-, hsame, -⟩ := atBoundary_fields s
    rw [hb, hsame, hrun]
  obtain ⟨t, ht, hentered⟩ := enter_entered b.pc (hready.acknowledge i)
  exact ⟨b.acknowledge i, t, hstep.trans ht, hentered, rfl, fun p _ => acknowledge_get b i p, fun _ => rfl, rfl, rfl,
    rfl, rfl, hbrun, rfl, rfl, rfl, acknowledge_ip_get b i⟩

end Sys2Proof.Machine
end

section
/-! PROOFS. The statement of spec/70_reset_and_hazards.md (R350, R52): a step at which RESET is asserted is the reset
operation, whatever the machine was doing. -/

namespace Sys2Proof.Machine

section
variable {s : State}

/-- The host's entry for this boundary is the first of the list (log 30). -/
theorem hostInput_of_cons {h : HostInput} {l : List HostInput} (hinputs : s.inputs = h :: l) : s.hostInput = h := by
  rw [State.hostInput, hinputs]

/-- RESET goes before the stuck state, DMA and interrupts: the boundary is the reset operation alone (R350, log 27). -/
theorem step_reset (hreset : s.hostInput.reset = true) :
    step s = .next (s.openBoundary.resetOperation s.hostInput.pins) := by
  rw [step, boundary, if_pos hreset]

@[simp] theorem resetOperation_readByte (s : State) (l : Lines) (a : Word) :
    (s.resetOperation l).readByte a = s.readByte a := rfl

end

/-- Settles O15: the registers are those of the reset state (O14), and the rest is what `resetOperation` keeps of the
opened boundary. -/
theorem resetPinAppliesTheResetOperation : Obligations.ResetPinAppliesTheResetOperation := by
  intro s h l hinputs hreset
  have hhost : s.hostInput = h := hostInput_of_cons hinputs
  obtain ⟨hre, hrcn, hip, hpc, hrun, -⟩ := resetClearsStatusAndConfiguration
  have hmem : SameMem s (s.openBoundary.resetOperation s.hostInput.pins) := fun a => by simp
  have htail : (s.openBoundary.resetOperation s.hostInput.pins).inputs = l := by simp [hinputs]
  have hpins : (s.openBoundary.resetOperation s.hostInput.pins).intPins = h.pins := by
    rw [resetOperation_intPins, hhost]
  exact ⟨_, step_reset (hhost ▸ hreset), hre, hrcn, hip, hpc, hrun, hmem, rfl, htail, rfl, rfl, hpins⟩

end Sys2Proof.Machine
end

section
/-! PROOFS. A word that the encoder writes decodes to the instruction it was written for, and the statement about the
words of the examples of spec/. -/

namespace Sys2Proof

/-- The encoding of a well-formed instruction stands for that instruction (R119). -/
theorem decode_of_encode_eq {w : Word} {i : Instr} (hi : i.wellFormed = true) (hw : encode i = w) :
    decode w = .ok i :=
  hw ▸ decodeWith_encodeWith opcodeMap_injective hi

/-- Settles O5: each example's instruction is well-formed, and its word is what the encoder writes for it. -/
theorem sampleWordsDecodeAsTheSpecWritesThem : Obligations.SampleWordsDecodeAsTheSpecWritesThem := by
  unfold Obligations.SampleWordsDecodeAsTheSpecWritesThem
  and_intros <;> exact decode_of_encode_eq rfl rfl

end Sys2Proof
end
